-- ==== Sys2Proof/Word.lean ====
section
/-! DEFINITION. The word types of the LZW dictionary codec block and their plainest arithmetic.
Rules R10 (XLEN, UNIT_W), R12 and R13 of spec/00_scope.md. -/

namespace Sys2Proof

/-- A host register's contents: XLEN = 32 bits (R10, R20). -/
abbrev Word := BitVec 32

/-- A code unit: one element of the 16-bit sequences the block works on (R10 `UNIT_W`, R63). -/
abbrev CodeUnit := BitVec 16

/-- The code units of a text of characters, one per character: the quoted strings of the spec (R13). -/
def codeUnits (t : String) : List CodeUnit := t.toList.map fun ch => BitVec.ofNat 16 ch.toNat

end Sys2Proof
end

