-- ==== Sys2Proof/Syntax.lean ====
section
/-! DEFINITION. The names of the spec: variants, the eight commands (one constructor per row of the opcode
table), the endings of a command, the items of a code stream, and the accesses of a host program.
Rules R80 to R94 (spec/30_encoding.md), R150 (spec/41_alphabet.md), R260 (spec/60_exceptions.md). -/

namespace Sys2Proof

/-- The four alphabet variants, `VAR` (R150). -/
inductive Variant where
  | raw | utf | base64 | uri
  deriving DecidableEq, Repr, Inhabited

/-- The direction of a command, `DIR` (R29, R80). -/
inductive Dir where
  | compress | decompress
  deriving DecidableEq, Repr, Inhabited

/-- The instruction set: the eight host commands, one per row of the opcode table (R81). A command has no
operand in its word; its operands are IN, IN_LEN and IN_CTRL (R92). -/
inductive Instr where
  | compressRaw | decompressRaw
  | compressUtf | decompressUtf
  | compressBase64 | decompressBase64
  | compressUri | decompressUri
  deriving DecidableEq, Repr, Inhabited

/-- The reasons of a MALFORMED result (R24, R263). -/
inductive MalformedCause where
  | badFirstCode | badIndex | exhausted | badSymbol
  deriving DecidableEq, Repr, Inhabited

/-- The reasons of a CAPACITY result (R24, R268). -/
inductive CapacityCause where
  | capIn | capOut | capDict
  deriving DecidableEq, Repr, Inhabited

/-- How a command ends: success, or one row of the table of R260. -/
inductive Ending where
  | ok
  | absent
  | malformed (why : MalformedCause)
  | capacity (which : CapacityCause)
  | illegalCmd
  deriving DecidableEq, Repr, Inhabited

/-- The order in which `emitBits` and `readBits` move the bits of one value (R122): `msbFirst` is normative. -/
inductive BitOrder where
  | msbFirst | lsbFirst
  deriving DecidableEq, Repr, Inhabited

/-- The items of a code stream (R83, R93). `n` is the width of the item's code field. -/
inductive StreamItem where
  /-- `CTL0@n LIT8(u)` -/
  | lit8 (n : Nat) (u : BitVec 8)
  /-- `CTL1@n LIT16(u)` -/
  | lit16 (n : Nat) (u : BitVec 16)
  /-- `REF(k)@n` -/
  | ref (k n : Nat)
  /-- `END@n` -/
  | stop (n : Nat)
  deriving DecidableEq, Repr, Inhabited

/-- The three address spaces of the block (R60). -/
inductive Space where
  | regs | inBuf | outBuf
  deriving DecidableEq, Repr, Inhabited

/-- One bus access of the host (R66, R67, R94): the space the platform selects, the address, the number of bytes
moved, and the data of a write. -/
structure Access where
  space   : Space
  isWrite : Bool
  addr    : Nat
  bytes   : Nat
  data    : Word
  deriving DecidableEq, Repr, Inhabited

/-- How far the engine runs before the host's next access lands (R299 leaves it open: any finite number of
steps). `toEnd`: until the running command completes. -/
inductive Pace where
  | toEnd
  | steps (n : Nat)
  deriving DecidableEq, Repr, Inhabited

/-- What the outside does to the block: a bus access, or a hardware reset (R290, R291). -/
inductive HostAct where
  | access (a : Access)
  | hardReset
  deriving DecidableEq, Repr, Inhabited

/-- One entry of the host's program: what it does, and how far the engine runs after it. -/
structure HostEvent where
  act  : HostAct
  pace : Pace
  deriving DecidableEq, Repr, Inhabited

/-- What one host read returned: a 32-bit register or a 16-bit unit (R67, R301). -/
inductive ReadValue where
  | word (v : Word)
  | unit (u : CodeUnit)
  deriving DecidableEq, Repr, Inhabited

/-- The direction of a command (R81). -/
def Instr.dir : Instr → Dir
  | .compressRaw | .compressUtf | .compressBase64 | .compressUri => .compress
  | .decompressRaw | .decompressUtf | .decompressBase64 | .decompressUri => .decompress

/-- The variant of a command (R81). -/
def Instr.variant : Instr → Variant
  | .compressRaw | .decompressRaw => .raw
  | .compressUtf | .decompressUtf => .utf
  | .compressBase64 | .decompressBase64 => .base64
  | .compressUri | .decompressUri => .uri

/-- The command of a direction and a variant (R81). -/
def Instr.of : Dir → Variant → Instr
  | .compress, .raw => .compressRaw
  | .decompress, .raw => .decompressRaw
  | .compress, .utf => .compressUtf
  | .decompress, .utf => .decompressUtf
  | .compress, .base64 => .compressBase64
  | .decompress, .base64 => .decompressBase64
  | .compress, .uri => .compressUri
  | .decompress, .uri => .decompressUri

end Sys2Proof
end

