-- ==== Sys2Proof/Config.lean ====
section
/-! DEFINITION. What an implementation fixes (the OPEN parameters of R10), and the free values: what the spec
leaves unspecified, as constants without a body. No proof can see the value of one. -/

namespace Sys2Proof

/-- The parameters of an implementation (R10). `none` is an unbounded capacity, the reference value (D7). -/
structure Params where
  inCap     : Option Nat
  outCap    : Option Nat
  dictCap   : Option Nat
  bitOrder  : BitOrder
  regBase   : Nat
  inWindow  : Nat
  outWindow : Nat
  deriving DecidableEq, Repr, Inhabited

/-- The reference parameters (R10, R11): the three capacities unbounded, MSB first. The three base addresses are
OPEN; DESIGN CHOICE (log 5): zero. -/
def Params.reference : Params where
  inCap := none
  outCap := none
  dictCap := none
  bitOrder := .msbFirst
  regBase := 0
  inWindow := 0
  outWindow := 0

/-- The reference semantics hold: no capacity is bounded and value bits go MSB first (R10, R11). Where the platform
places the windows does not matter. -/
def Params.isReference (p : Params) : Bool :=
  p.inCap == none && p.outCap == none && p.dictCap == none && p.bitOrder == .msbFirst

/-- `n` is more than a capacity allows (R268). Nothing exceeds an unbounded capacity. -/
def exceeds (cap : Option Nat) (n : Nat) : Bool :=
  match cap with
  | none => false
  | some k => decide (k < n)

/-- FREE VALUE (R46, U3; log 2): what unit `i` of IN holds when the host has not written it since the
`epoch`-th hardware reset. -/
opaque Config.powerOnIn : (epoch i : Nat) → CodeUnit

/-- FREE VALUE (R46, U3, U13; log 2): the same for OUT. -/
opaque Config.powerOnOut : (epoch i : Nat) → CodeUnit

/-- FREE VALUE (R62, R72, R262, U5; log 3): what the `k`-th host read of an undefined unit of OUT returns. -/
opaque Config.freeUnit : (k : Nat) → CodeUnit

/-- FREE VALUE (log 4): the 32 bits of OUT_LEN after a command with more output units than OUT_LEN can count. -/
opaque Config.freeWord : (k : Nat) → Word

/-- FREE VALUE (R295, U6; log 6): how a command ends when the host wrote IN while it ran. -/
opaque Config.freeEnding : (k : Nat) → Ending

/-- FREE VALUE (R295, U6; log 6): the output of such a command where it ends with OK. -/
opaque Config.freeOutput : (k : Nat) → List CodeUnit

/-- FREE VALUE (R35, U1, D21; log 7): the unit of the decoder's placeholder entry `k`, never read. -/
opaque Config.placeholder : (k : Nat) → CodeUnit

end Sys2Proof
end

