-- ==== Sys2Proof/WellFormed.lean ====
section
/-! DEFINITION. What is well formed: the words the host may write to CMD (R82), the accesses the spec gives an
effect (R66), the parameters an implementation may take (R268), and the items a code stream may hold (R83, R123). -/

namespace Sys2Proof

/-- A command word is legal when its RSV field, bits 31 to 3, is 0 (R21, R82). -/
def cmdWordLegal (v : Word) : Bool := v &&& 0xFFFFFFF8#32 == 0#32

/-- Every command is well formed: a command has no operand field (R92), and all eight values of OP are
assigned (R81). -/
def Instr.wf (_ : Instr) : Bool := true

/-- Parameters an implementation may take: DICT_CAP ≥ 4, so that the decoder's start value fits (R268). -/
def Params.wf (p : Params) : Bool :=
  match p.dictCap with
  | none => true
  | some k => decide (4 ≤ k)

/-- Where an access falls in its space: the byte offset of a register access that is one aligned 32-bit word, the
index of a buffer access that is one aligned 16-bit unit (R66). Any other access is none of these: the model
refuses it (U7). A unit takes two byte addresses of its window: DESIGN CHOICE (log 8), R64 leaves byte lanes to
the platform. -/
def Access.place (p : Params) (a : Access) : Option Nat :=
  match a.space with
  | .regs =>
    if a.bytes = 4 ∧ p.regBase ≤ a.addr ∧ (a.addr - p.regBase) % 4 = 0 then some (a.addr - p.regBase) else none
  | .inBuf =>
    if a.bytes = 2 ∧ p.inWindow ≤ a.addr ∧ (a.addr - p.inWindow) % 2 = 0 then some ((a.addr - p.inWindow) / 2) else none
  | .outBuf =>
    if a.bytes = 2 ∧ p.outWindow ≤ a.addr ∧ (a.addr - p.outWindow) % 2 = 0 then some ((a.addr - p.outWindow) / 2) else none

/-- An access has the shape R66 asks of the host. -/
def Access.wf (p : Params) (a : Access) : Bool := (a.place p).isSome

/-- A stream item fits its fields: the code fits the width of its code field (R123), a reference names a code from
3 on (R83). -/
def StreamItem.wf : StreamItem → Bool
  | .lit8 n _ => decide (1 ≤ n)
  | .lit16 n _ => decide (1 < 2 ^ n)
  | .ref k n => decide (3 ≤ k) && decide (k < 2 ^ n)
  | .stop n => decide (2 < 2 ^ n)

end Sys2Proof
end

