-- ==== Sys2Proof/Decode.lean ====
section
/-! DEFINITION. The two encodings of the block (spec/30_encoding.md): the command word, read and written (R80 to
R82), and the bits of a value and of a code stream item (R65, R83, R84, R122). -/

namespace Sys2Proof

/-- Why a word written to CMD names no command: its RSV field is not 0 (R82). There is no other way: all eight
values of OP are assigned (R81). -/
inductive DecodeError where
  | reservedBits
  deriving DecidableEq, Repr

/-- The direction field `CMD[0]` (R80). -/
def decodeDir (v : Word) : Dir := if v.getLsbD 0 then .decompress else .compress

/-- The variant field `CMD[2:1]` (R80). -/
def decodeVariant (v : Word) : Variant :=
  match v.getLsbD 2, v.getLsbD 1 with
  | false, false => .raw
  | false, true => .utf
  | true, false => .base64
  | true, true => .uri

/-- The decoder of command words (R81): it checks that RSV is 0, then dispatches on OP. -/
def decode (v : Word) : Except DecodeError Instr :=
  if cmdWordLegal v then .ok (Instr.of (decodeDir v) (decodeVariant v)) else .error .reservedBits

/-- The command word of an instruction (R80): `VAR` in bits 2 to 1, `DIR` in bit 0, every other bit 0. -/
def encode (i : Instr) : Word :=
  let var : Word := match i.variant with
    | .raw => 0
    | .utf => 1
    | .base64 => 2
    | .uri => 3
  let dir : Word := match i.dir with
    | .compress => 0
    | .decompress => 1
  (var <<< 1) ||| dir

/-- What the decoder reads from an instruction of `nbits` bits whose bits are `w`: the table's rows are one 32-bit
word each. Bits above `nbits` are 0, and what does not fit the CMD register is no command word. -/
def decodeTableWord (nbits w : Nat) : Option Instr :=
  let v := w % 2 ^ nbits
  if v < 2 ^ 32 then (decode (BitVec.ofNat 32 v)).toOption else none

/-- The `n` low bits of `v`, bit n-1 first and bit 0 last: "written MSB first" (R12, R122). -/
def msbBits (v : Nat) : Nat → List Bool
  | 0 => []
  | n + 1 => v.testBit n :: msbBits v n

/-- The value of a string of bits whose first bit is the most significant (R131). -/
def msbValue (bs : List Bool) : Nat := bs.foldl (fun v b => 2 * v + b.toNat) 0

/-- The bits of an n-bit value in the order `emitBits` sends them (R122). -/
def valueBits (o : BitOrder) (v n : Nat) : List Bool :=
  match o with
  | .msbFirst => msbBits v n
  | .lsbFirst => (msbBits v n).reverse

/-- The value `readBits` makes of the bits it has read, in the order it read them (R122, R131). -/
def bitsValue (o : BitOrder) (bs : List Bool) : Nat :=
  match o with
  | .msbFirst => msbValue bs
  | .lsbFirst => msbValue bs.reverse

/-- The bits of a code stream item, first bit first: the code field, then the literal field where there is one
(R83, R93). MSB first is the normative order (R65, R122). -/
def StreamItem.bits (o : BitOrder) : StreamItem → List Bool
  | .lit8 n u => valueBits o 0 n ++ valueBits o u.toNat 8
  | .lit16 n u => valueBits o 1 n ++ valueBits o u.toNat 16
  | .ref k n => valueBits o k n
  | .stop n => valueBits o 2 n

end Sys2Proof
end

