-- ==== Sys2Proof/Machine/State.lean ====
section
/-! DEFINITION. The state of the block: every element spec/10_state.md names, the two buffers of
spec/20_memory.md, the host's pending accesses, and the model's own counters; the reasons a step can stop; and the
state right after reset (R46, R290). -/

namespace Sys2Proof.Machine

/-- A buffer of 16-bit units by index (R60, R64): the units that have been written, indices strictly rising. An
index with no entry has not been written since reset, and reads as a free value (log 2). -/
abbrev Memory := List (Nat × CodeUnit)

/-- The canonical form: indices strictly rise. An unlisted index holds no written value, so that an entry is never
equal to what an unlisted index reads as. -/
abbrev Memory.wf (m : Memory) : Prop := (m.map Prod.fst).Pairwise (· < ·)

/-- STATUS.RESULT (R23). Values 6 and 7 are reserved and never produced. -/
inductive Result where
  | none | ok | absent | malformed | capacity | illegalCmd
  deriving DecidableEq, Repr, Inhabited

/-- STATUS.CAUSE (R24). -/
inductive Cause where
  | none | badFirstCode | badIndex | exhausted | badSymbol | capIn | capOut | capDict
  deriving DecidableEq, Repr, Inhabited

/-- The fields of STATUS that are held (R22). BUSY is not one of them: it is `PHASE ≠ IDLE` (R30). -/
structure Status where
  done       : Bool
  result     : Result
  cause      : Cause
  outPresent : Bool
  rejected   : Bool
  deriving DecidableEq, Repr, Inhabited

/-- `PHASE`, the engine's sequencer state (R30). -/
inductive Phase where
  | idle | encScan | encFinal | encPost | decFirst | decLoop | decDrain
  deriving DecidableEq, Repr, Inhabited

/-- The counters of R34 and R37: the next code, the code width, the growth countdown. Unbounded integers (R14, R28). -/
structure Counters where
  dictSize  : Nat
  numBits   : Nat
  enlargeIn : Nat
  deriving DecidableEq, Repr, Inhabited

/-- The bit packer (R38) and the staging sequence `E_SYM` (R40). `acc` is BPC bits wide, held as a number below
2^BPC, because BPC depends on the variant. -/
structure Packer where
  acc  : Nat
  pos  : Nat
  nsym : Nat
  sym  : List CodeUnit
  deriving DecidableEq, Repr, Inhabited

/-- The bit unpacker (R39): `U_REG`, `U_REM`, `U_IDX`. `reg` is BPC bits wide, held as a number. -/
structure Unpacker where
  reg : Nat
  rem : Nat
  idx : Nat
  deriving DecidableEq, Repr, Inhabited

/-- Why the machine stops. Every fault is safe: the model stops where the spec gives the engine no defined
behaviour. -/
inductive Fault where
  /-- `emitBits(v, n)` was called with v ≥ 2^n (R123, U4: "fault"). Raised by the encoder; safe. No state that a run
  reaches raises it (R196). -/
  | emitOverflow
  /-- The engine's working state is none that a command can make (`w` empty or not in the dictionary, a code below
  `dictSize` with no entry). Raised by the encoder and the decoder; safe. No state that a run reaches raises it
  (R33, R36, R37). -/
  | engineDefect
  deriving DecidableEq, Repr

/-- Why the model gives an action no meaning. -/
inductive Refusal where
  /-- An instruction of the opcode table that the model gives no meaning: raised by `exec` alone; safe. -/
  | notModelled (mnemonic : String)
  /-- A register access that is not one aligned 32-bit word, or a buffer access that is not one aligned 16-bit unit,
  or one outside its window (R66, U7: "refuse"). Raised by a host access; safe. -/
  | irregularAccess
  deriving DecidableEq, Repr

/-- The state of the block. -/
structure State where
  /-- the implementation's parameters (R10): no step changes them -/
  cfg        : Params
  /-- STATUS but for BUSY (R22) -/
  status     : Status
  /-- IN_LEN (R25) -/
  inLen      : Word
  /-- IN_CTRL.PRESENT (R26) -/
  inPresent  : Bool
  /-- OUT_LEN (R27) -/
  outLen     : Word
  /-- IN (R60, R61) -/
  inMem      : Memory
  /-- OUT (R60, R62) -/
  outMem     : Memory
  /-- CUR_OP.DIR (R29) -/
  curDir     : Dir
  /-- CUR_OP.VAR (R29) -/
  curVar     : Variant
  /-- IN_CTRL.PRESENT as latched at acceptance (R240, R295) -/
  latPresent : Bool
  /-- IN_LEN as latched at acceptance: N (R240, R295) -/
  latLen     : Word
  /-- PHASE (R30) -/
  phase      : Phase
  /-- E_DICT: sequences and their codes, in insertion order (R31) -/
  eDict      : List (List CodeUnit × Nat)
  /-- E_PEND (R32) -/
  ePend      : List (List CodeUnit)
  /-- `w` (R33, R36) -/
  w          : List CodeUnit
  /-- `c` (R33) -/
  c          : CodeUnit
  /-- IN_IDX (R33) -/
  inIdx      : Nat
  /-- `dictSize`, `numBits`, `enlargeIn` (R34, R37) -/
  ctr        : Counters
  /-- P_ACC, P_POS, P_NSYM, E_SYM (R38, R40) -/
  packer     : Packer
  /-- D_DICT: entries by code (R35) -/
  dDict      : List (List CodeUnit)
  /-- `cd` (R36) -/
  cd         : Nat
  /-- `entry` (R36) -/
  entry      : List CodeUnit
  /-- OUT_IDX (R36) -/
  outIdx     : Nat
  /-- U_REG, U_REM, U_IDX (R39) -/
  unpacker   : Unpacker
  /-- the host's accesses still to come, in program order (R73, R94) -/
  host       : List HostEvent
  /-- how far the engine runs before the host's next access (R299) -/
  pace       : Pace
  /-- what the host's reads returned, first read first (R301) -/
  reads      : List ReadValue
  /-- the model's own: the host wrote IN while a command ran, so that its ending is open (R295) -/
  tainted    : Bool
  /-- the model's own: how many hardware resets there have been, for the power-on contents (log 2) -/
  epoch      : Nat
  /-- the model's own: how many free values have been used (log 3, 4, 6) -/
  free       : Nat
  deriving DecidableEq, Repr

/-- The STATUS fields after reset (R46). -/
def Status.reset : Status where
  done := false
  result := .none
  cause := .none
  outPresent := false
  rejected := false

/-- The machine right after reset (R46, R290). What R46 leaves unspecified holds a value that no command reads before
writing it: DESIGN CHOICE (log 1), zero, the empty sequence, COMPRESS and RAW. -/
def State.reset : State where
  cfg := Params.reference
  status := Status.reset
  inLen := 0
  inPresent := false
  outLen := 0
  inMem := []
  outMem := []
  curDir := .compress
  curVar := .raw
  latPresent := false
  latLen := 0
  phase := .idle
  eDict := []
  ePend := []
  w := []
  c := 0
  inIdx := 0
  ctr := { dictSize := 0, numBits := 0, enlargeIn := 0 }
  packer := { acc := 0, pos := 0, nsym := 0, sym := [] }
  dDict := []
  cd := 0
  entry := []
  outIdx := 0
  unpacker := { reg := 0, rem := 0, idx := 0 }
  host := []
  pace := .toEnd
  reads := []
  tainted := false
  epoch := 0
  free := 0

/-- STATUS.BUSY: a command is running, `PHASE ≠ IDLE` (R22, R30). -/
def State.busy (s : State) : Bool := s.phase != .idle

end Sys2Proof.Machine
end

