-- ==== Sys2Proof/Machine/Flags.lean ====
section
/-! DEFINITION. The STATUS register (R22 to R24): the codes of its fields, the word the host reads, and how its
fields change at acceptance, at completion and at a rejected command. The block has no other flags (R44). -/

namespace Sys2Proof.Machine

/-- The RESULT field of an ending (R23, R260). -/
def endingResult : Ending → Result
  | .ok => .ok
  | .absent => .absent
  | .malformed _ => .malformed
  | .capacity _ => .capacity
  | .illegalCmd => .illegalCmd

/-- The CAUSE field of an ending (R24, R260). -/
def endingCause : Ending → Cause
  | .ok | .absent | .illegalCmd => .none
  | .malformed .badFirstCode => .badFirstCode
  | .malformed .badIndex => .badIndex
  | .malformed .exhausted => .exhausted
  | .malformed .badSymbol => .badSymbol
  | .capacity .capIn => .capIn
  | .capacity .capOut => .capOut
  | .capacity .capDict => .capDict

/-- The encoding of STATUS.RESULT (R23). -/
def resultCode : Result → Word
  | .none => 0
  | .ok => 1
  | .absent => 2
  | .malformed => 3
  | .capacity => 4
  | .illegalCmd => 5

/-- The encoding of STATUS.CAUSE (R24). -/
def causeCode : Cause → Word
  | .none => 0
  | .badFirstCode => 1
  | .badIndex => 2
  | .exhausted => 3
  | .badSymbol => 4
  | .capIn => 5
  | .capOut => 6
  | .capDict => 7

/-- A flag as a word. -/
def flagWord (b : Bool) : Word := if b then 1 else 0

/-- What a read of STATUS returns (R22): bits 31 to 10 read as 0. -/
def statusWord (s : State) : Word :=
  flagWord s.busy ||| (flagWord s.status.done <<< 1) ||| (resultCode s.status.result <<< 2)
    ||| (causeCode s.status.cause <<< 5) ||| (flagWord s.status.outPresent <<< 8)
    ||| (flagWord s.status.rejected <<< 9)

/-- The STATUS fields when a command is accepted (R240): all cleared. -/
def acceptedStatus : Status where
  done := false
  result := .none
  cause := .none
  outPresent := false
  rejected := false

/-- The STATUS fields when a command completes (R242). REJECTED stays (R22). -/
def completedStatus (e : Ending) (st : Status) : Status where
  done := true
  result := endingResult e
  cause := endingCause e
  outPresent := decide (e = .ok)
  rejected := st.rejected

/-- The STATUS fields when a CMD write is rejected (R253, R270): REJECTED is set, nothing else changes. -/
def rejectedStatus (st : Status) : Status := { st with rejected := true }

end Sys2Proof.Machine
end

