-- ==== Sys2Proof/Machine/Operands.lean ====
section
/-! DEFINITION. The buffers and the operands of a command. A command's operands are the input buffer, IN_LEN and
IN_CTRL, read at acceptance (R61, R80, R92, R240); its result goes to OUT (R62). -/

namespace Sys2Proof.Machine

/-- The unit last written at index `i`, if one was. -/
def Memory.read (m : Memory) (i : Nat) : Option CodeUnit :=
  match m with
  | [] => none
  | (j, u) :: rest => if i = j then some u else Memory.read rest i

/-- Write unit `u` at index `i`, keeping the indices strictly rising. -/
def Memory.write (m : Memory) (i : Nat) (u : CodeUnit) : Memory :=
  match m with
  | [] => [(i, u)]
  | (j, v) :: rest =>
    if i < j then (i, u) :: (j, v) :: rest
    else if i = j then (i, u) :: rest
    else (j, v) :: Memory.write rest i u

/-- Write a sequence of units at `i`, `i + 1`, … in increasing index order (R72). -/
def Memory.writeSeq (m : Memory) (i : Nat) : List CodeUnit → Memory
  | [] => m
  | u :: us => Memory.writeSeq (Memory.write m i u) (i + 1) us

/-- `MemRead(IN, i)`: the unit the host last wrote at index `i` of IN (R61); if it has written none since reset,
what the buffer holds is a free value (R46, U3). -/
def inUnit (s : State) (i : Nat) : CodeUnit := (Memory.read s.inMem i).getD (Config.powerOnIn s.epoch i)

/-- What OUT holds at index `i`: the unit the engine last wrote there, or what it holds after reset (R46, U3). -/
def outUnit (s : State) (i : Nat) : CodeUnit := (Memory.read s.outMem i).getD (Config.powerOnOut s.epoch i)

/-- The input sequence of a command whose latched length is `n` (R61): units 0 to n-1 of IN. -/
def inputUnits (s : State) (n : Nat) : List CodeUnit := (List.range n).map (inUnit s)

/-- The output sequence the host may read (R27, R72): units 0 to n-1 of OUT. -/
def outputUnits (s : State) (n : Nat) : List CodeUnit := (List.range n).map (outUnit s)

/-- `N`: the length of the running command's input (R240). -/
def inputLength (s : State) : Nat := s.latLen.toNat

end Sys2Proof.Machine
end

