-- ==== Sys2Proof/Machine/Ops.lean ====
section
/-! DEFINITION. The operations every command shares: completion (R242), which is also what an exceptional condition
does (R262), and the growth of the code width (R187). The block takes no trap and returns from none (R274): a
condition ends the command through `complete`, and the block is IDLE again. -/

namespace Sys2Proof.Machine

/-- Why the engine stops in the middle of its work: `raise Malformed(cause)` or `raise Capacity(which)` (R15, R262),
or a fault of the engine itself (U4). -/
inductive Stop where
  | raise (e : Ending)
  | defect (f : Fault)
  deriving DecidableEq, Repr

/-- `raise Malformed(cause)` (R263). -/
def malformed {α : Type} (why : MalformedCause) : Except Stop α := .error (.raise (.malformed why))

/-- `raise Capacity(which)` (R268). -/
def capacity {α : Type} (which : CapacityCause) : Except Stop α := .error (.raise (.capacity which))

/-- The OUT_LEN register for `m` output units (R27). Where 32 bits cannot hold the count the spec states no value:
a free one (log 4). -/
def outLenWord (k m : Nat) : Word := if m < 2 ^ 32 then BitVec.ofNat 32 m else Config.freeWord k

/-- Completion, `finish(result, cause)` (R242): `m` is the number of units written to OUT. All of these fields change
in one step. DESIGN CHOICE (log 24): the engine's working registers keep what the command left in them, where U2 leaves
open what they hold between commands. -/
def finish (e : Ending) (m : Nat) (s : State) : State :=
  { s with
    phase := .idle
    status := completedStatus e s.status
    outLen := if e = .ok then outLenWord s.free m else 0
    tainted := false
    free := s.free + 1 }

/-- A sequence cut to what OUT can hold (R62). -/
def cutTo (cap : Option Nat) (us : List CodeUnit) : List CodeUnit :=
  match cap with
  | none => us
  | some k => us.take k

/-- Completion of a command during which the host wrote IN (R295, U6): it completes, with any result and any output.
Which one is a free value (log 6). -/
def finishOpen (s : State) : State :=
  let us := cutTo s.cfg.outCap (Config.freeOutput s.free)
  finish (Config.freeEnding s.free) us.length { s with outMem := Memory.writeSeq s.outMem 0 us }

/-- How a running command completes: with the ending its engine reached, unless the host wrote IN meanwhile. -/
def complete (e : Ending) (m : Nat) (s : State) : State :=
  if s.tainted then finishOpen s else finish e m s

/-- `grow()` (R187, R218): count one dictionary insertion and widen the code when the countdown ends; the new
countdown is 2^(numBits before the increment). -/
def Counters.grow (c : Counters) : Counters :=
  if c.enlargeIn - 1 = 0 then { c with enlargeIn := 2 ^ c.numBits, numBits := c.numBits + 1 }
  else { c with enlargeIn := c.enlargeIn - 1 }

/-- Hardware reset (R46, R290, R291): a running command is abandoned with no result, and both buffers hold
unspecified values again. The parameters, the host's program, what its reads returned and the model's own counters
are no state of the block, and stay. -/
def hardReset (s : State) : State :=
  { State.reset with
    cfg := s.cfg, host := s.host, pace := s.pace, reads := s.reads, epoch := s.epoch + 1, free := s.free }

end Sys2Proof.Machine
end

