-- ==== Sys2Proof/Machine/Alphabet.lean ====
section
/-! DEFINITION. The alphabet adapter (spec/41_alphabet.md): the four variants' symbol widths, encode and decode
tables, pad symbols and post-processing. The tables are read-only constants (R41). -/

namespace Sys2Proof.Machine

/-- `BPC`: the number of code stream bits one symbol carries (R10, R150). -/
def bpc : Variant → Nat
  | .raw => 16
  | .utf => 15
  | .base64 => 6
  | .uri => 6

/-- The symbol for value 63 of a 6-bit alphabet: `/` in BASE64, `-` in URI (R156, R158). -/
def lastSymbol : Variant → Nat
  | .uri => 0x2D
  | _ => 0x2F

/-- The 6-bit encode table (R151, R156, R158): A to Z, a to z, 0 to 9, `+`, and the last symbol. -/
def sixBitSymbol (last x : Nat) : Nat :=
  if x < 26 then 0x41 + x
  else if x < 52 then 0x61 + (x - 26)
  else if x < 62 then 0x30 + (x - 52)
  else if x = 62 then 0x2B
  else last

/-- The 6-bit decode table (R157, R159): the inverse of the encode table, and INVALID (`none`) elsewhere. -/
def sixBitValue (last u : Nat) : Option Nat :=
  if 0x41 ≤ u ∧ u ≤ 0x5A then some (u - 0x41)
  else if 0x61 ≤ u ∧ u ≤ 0x7A then some (u - 0x61 + 26)
  else if 0x30 ≤ u ∧ u ≤ 0x39 then some (u - 0x30 + 52)
  else if u = 0x2B then some 62
  else if u = last then some 63
  else none

/-- `enc(x)`: the symbol of a BPC-bit value (R152, R154, R156, R158). -/
def enc (v : Variant) (x : Nat) : CodeUnit :=
  match v with
  | .raw => BitVec.ofNat 16 x
  | .utf => BitVec.ofNat 16 (x + 32)
  | .base64 | .uri => BitVec.ofNat 16 (sixBitSymbol (lastSymbol v) x)

/-- `dec(u)`: the value of a symbol, or `none` for INVALID (R153, R155, R157, R159). -/
def dec (v : Variant) (u : CodeUnit) : Option Nat :=
  match v with
  | .raw => some u.toNat
  | .utf => if 0x0020 ≤ u.toNat ∧ u.toNat ≤ 0x801F then some (u.toNat - 32) else none
  | .base64 | .uri => sixBitValue (lastSymbol v) u.toNat

/-- The pad symbol: `=` in BASE64, `$` in URI, none in RAW and UTF (R150, R157, R159). -/
def padSymbol : Variant → Option CodeUnit
  | .raw | .utf => none
  | .base64 => some 0x003D
  | .uri => some 0x0024

/-- The unit is the variant's pad symbol (R128, R134). -/
def isPad (v : Variant) (u : CodeUnit) : Bool := padSymbol v == some u

/-- The units post-processing appends after `n` packer symbols (R160 to R163): nothing in RAW, one space in UTF, pad
symbols up to a multiple of four in BASE64 and URI. -/
def postUnits (v : Variant) (n : Nat) : List CodeUnit :=
  match v with
  | .raw => []
  | .utf => [0x0020]
  | .base64 => List.replicate ((4 - n % 4) % 4) 0x003D
  | .uri => List.replicate ((4 - n % 4) % 4) 0x0024

/-- `post(VAR, E_SYM)` (R194). -/
def post (v : Variant) (sym : List CodeUnit) : List CodeUnit := sym ++ postUnits v sym.length

end Sys2Proof.Machine
end

