-- ==== Sys2Proof/Machine/BitPacker.lean ====
section
/-! DEFINITION. The bit packer and the bit unpacker (spec/40_bitpacker.md). -/

namespace Sys2Proof.Machine

/-- The packer at the start of a compress command (R120, R180). -/
def Packer.start : Packer where
  acc := 0
  pos := 0
  nsym := 0
  sym := []

/-- The unpacker at the start of a decompress command (R130, R210). -/
def Unpacker.start : Unpacker where
  reg := 0
  rem := 0
  idx := 0

/-- `outSymbol(x)` (R125): append the symbol of a full accumulator, which is cleared. -/
def Packer.outSymbol (v : Variant) (x : Nat) (p : Packer) : Packer where
  acc := 0
  pos := 0
  nsym := p.nsym + 1
  sym := p.sym ++ [enc v x]

/-- `emitBit(b)` (R121): push one bit into the accumulator, and emit a symbol when it fills. -/
def Packer.emitBit (v : Variant) (p : Packer) (b : Bool) : Packer :=
  let acc := (2 * p.acc + b.toNat) % 2 ^ bpc v
  if p.pos = bpc v - 1 then p.outSymbol v acc else { p with acc := acc, pos := p.pos + 1 }

/-- `emitBits(v, n)` (R123): push the n-bit value `x`. A value that does not fit n bits is a fault (U4). -/
def Packer.emitBits (v : Variant) (o : BitOrder) (x n : Nat) (p : Packer) : Except Stop Packer :=
  if x < 2 ^ n then .ok ((valueBits o x n).foldl (Packer.emitBit v) p) else .error (.defect .emitOverflow)

/-- The loop of `flush()` (R124), at most `fuel` times: shift in a zero bit until a symbol has been emitted. -/
def Packer.flushLoop (v : Variant) : (fuel : Nat) → Packer → Packer
  | 0, p => p
  | fuel + 1, p =>
    let acc := (2 * p.acc) % 2 ^ bpc v
    if p.pos = bpc v - 1 then p.outSymbol v acc
    else Packer.flushLoop v fuel { p with acc := acc, pos := p.pos + 1 }

/-- `flush()` (R124): pad the last symbol with zero bits and emit it. The loop emits within BPC turns, since
`P_POS` < BPC (R38). -/
def Packer.flush (v : Variant) (p : Packer) : Packer := Packer.flushLoop v (bpc v) p

/-- `refill()` (R128): fetch, check and decode the next input symbol, of an input of `n` units read by `inp`. The end
of the input and a pad symbol come before an invalid symbol (R133, R273). -/
def Unpacker.refill (v : Variant) (n : Nat) (inp : Nat → CodeUnit) (u : Unpacker) : Except Stop Unpacker :=
  if n ≤ u.idx then malformed .exhausted
  else if isPad v (inp u.idx) then malformed .exhausted
  else match dec v (inp u.idx) with
    | none => malformed .badSymbol
    | some x => .ok { reg := x, rem := bpc v, idx := u.idx + 1 }

/-- `readBit()` (R129): the next bit of the code stream; a symbol is fetched only when a bit is needed (D12). -/
def Unpacker.readBit (v : Variant) (n : Nat) (inp : Nat → CodeUnit) (u : Unpacker) :
    Except Stop (Bool × Unpacker) := do
  let u ← if u.rem = 0 then u.refill v n inp else .ok u
  return (u.reg.testBit (u.rem - 1), { u with rem := u.rem - 1 })

/-- The next `k` bits of the code stream, in stream order. -/
def Unpacker.readBitList (v : Variant) (n : Nat) (inp : Nat → CodeUnit) :
    (k : Nat) → Unpacker → Except Stop (List Bool × Unpacker)
  | 0, u => .ok ([], u)
  | k + 1, u => do
    let (b, u) ← u.readBit v n inp
    let (bs, u) ← Unpacker.readBitList v n inp k u
    return (b :: bs, u)

/-- `readBits(k)` (R131): a k-bit value of the code stream. -/
def Unpacker.readBits (v : Variant) (o : BitOrder) (n : Nat) (inp : Nat → CodeUnit) (k : Nat) (u : Unpacker) :
    Except Stop (Nat × Unpacker) := do
  let (bs, u) ← u.readBitList v n inp k
  return (bitsValue o bs, u)

/-- A unit `drainCheck` accepts (R134): the pad symbol, or a symbol of the alphabet. -/
def drainable (v : Variant) (u : CodeUnit) : Bool := isPad v u || (dec v u).isSome

/-- The loop of `drainCheck()` (R134) over `k` units from index `i` on. -/
def drainCheck (v : Variant) (inp : Nat → CodeUnit) (i : Nat) : (k : Nat) → Except Stop Unit
  | 0 => .ok ()
  | k + 1 => if drainable v (inp i) then drainCheck v inp (i + 1) k else malformed .badSymbol

end Sys2Proof.Machine
end

