-- ==== Sys2Proof/Machine/Decoder.lean ====
section
/-! DEFINITION. The decoder (spec/43_decoder.md): the engine of the decompress commands, phase by phase. -/

namespace Sys2Proof.Machine

/-- Decoder start (R210). The placeholders' contents are free values (R35, D21). DESIGN CHOICE (log 24): `w`, `cd` and
`entry`, which R46 says R210 initialises and to which R210 gives no value, keep what they held until R212, R213 and R219
first set them. -/
def decStart (s : State) : State :=
  { s with
    dDict := [[Config.placeholder 0], [Config.placeholder 1], [Config.placeholder 2]]
    ctr := { dictSize := 4, numBits := 3, enlargeIn := 4 }
    unpacker := Unpacker.start
    outIdx := 0
    phase := .decFirst }

/-- `readBits(k)` of the running command (R131). -/
def readBits (k : Nat) (s : State) : Except Stop (Nat × State) := do
  let (x, u) ← s.unpacker.readBits s.curVar s.cfg.bitOrder (inputLength s) (inUnit s) k
  return (x, { s with unpacker := u })

/-- The literal field of code 0 or 1 (R212, R216): 8 bits or 16 bits; decoding it gives the unit zext_16(L) (R85). -/
def readLiteral (cd : Nat) (s : State) : Except Stop (CodeUnit × State) := do
  let (x, s) ← readBits (if cd = 0 then 8 else 16) s
  return (BitVec.ofNat 16 x, s)

/-- `output(x)` (R221): append units to OUT, as far as OUT_CAP allows. -/
def output : List CodeUnit → State → Except Stop State
  | [], s => .ok s
  | u :: us, s =>
    if exceeds s.cfg.outCap (s.outIdx + 1) then capacity .capOut
    else output us { s with outMem := Memory.write s.outMem s.outIdx u, outIdx := s.outIdx + 1 }

/-- `addEntry(x)` (R229): the next code goes to `x`; only a finite DICT_CAP can refuse it. -/
def addEntry (x : List CodeUnit) (s : State) : Except Stop State :=
  if exceeds s.cfg.dictCap (s.ctr.dictSize + 1) then capacity .capDict
  else .ok { s with dDict := s.dDict ++ [x], ctr := { s.ctr with dictSize := s.ctr.dictSize + 1 } }

/-- `grow()` of the running command (R218). -/
def decGrow (s : State) : State := { s with ctr := s.ctr.grow }

/-- PHASE = DEC_FIRST (R212, R213): the first code and the first literal, which is entry 3. -/
def decFirst (s : State) : Except Stop State := do
  let (cd, s) ← readBits 2 s
  if cd < 2 then
    let (u, s) ← readLiteral cd s
    output [u] { s with cd := cd, dDict := s.dDict ++ [[u]], w := [u], phase := .decLoop }
  else malformed .badFirstCode

/-- Literal code (R216): the literal is a new entry, and its index is the code just decoded. -/
def decLiteral (cd : Nat) (s : State) : Except Stop State := do
  let (u, s) ← readLiteral cd s
  let s ← addEntry [u] s
  return decGrow { s with cd := s.ctr.dictSize - 1 }

/-- Entry resolution (R219, R220): an entry of the dictionary, the entry not yet made, or BAD_INDEX. -/
def resolve (s : State) : Except Stop (List CodeUnit) :=
  if s.cd < s.ctr.dictSize then
    match s.dDict[s.cd]? with
    | none => .error (.defect .engineDefect)
    | some x => .ok x
  else if s.cd = s.ctr.dictSize then
    match s.w with
    | [] => .error (.defect .engineDefect)
    | a :: t => .ok (a :: t ++ [a])
  else malformed .badIndex

/-- What follows a code other than 2 (R219 to R223): resolve it, output its entry, register `w + entry[0]`, move the
window. -/
def decEntry (s : State) : Except Stop State := do
  let x ← resolve s
  let s ← output x { s with entry := x }
  match s.entry with
  | [] => .error (.defect .engineDefect)
  | a :: _ => do
    let s ← addEntry (s.w ++ [a]) s
    return { decGrow s with w := s.entry }

/-- One iteration of PHASE = DEC_LOOP (R214 to R223): one code. -/
def decLoop (s : State) : Except Stop State := do
  let (cd, s) ← readBits s.ctr.numBits s
  let s := { s with cd := cd }
  if cd = 2 then return { s with phase := .decDrain }
  else if cd < 2 then decLiteral cd s >>= decEntry
  else decEntry s

/-- PHASE = DEC_DRAIN (R224): check the unread symbols, then completion. -/
def decDrain (s : State) : Except Stop State := do
  drainCheck s.curVar (inUnit s) s.unpacker.idx (inputLength s - s.unpacker.idx)
  return complete .ok s.outIdx s

end Sys2Proof.Machine
end

