-- ==== Sys2Proof/Machine/Encoder.lean ====
section
/-! DEFINITION. The encoder (spec/42_encoder.md): the engine of the compress commands, phase by phase. -/

namespace Sys2Proof.Machine

/-- Encoder start (R180). DESIGN CHOICE (log 24): `c`, which R46 says R180 initialises and to which R180 gives no value,
keeps what it held until the scan first sets it (R182). -/
def encStart (s : State) : State :=
  { s with
    eDict := []
    ePend := []
    w := []
    inIdx := 0
    ctr := { dictSize := 3, numBits := 2, enlargeIn := 2 }
    packer := Packer.start
    phase := .encScan }

/-- `E_DICT[x]`: the code of a sequence, if it is in the dictionary (R31). -/
def eLookup (d : List (List CodeUnit × Nat)) (x : List CodeUnit) : Option Nat :=
  match d with
  | [] => none
  | (y, k) :: rest => if x = y then some k else eLookup rest x

/-- `register(x)` (R200): the next code goes to `x`; only a finite DICT_CAP can refuse it. -/
def register (x : List CodeUnit) (s : State) : Except Stop State :=
  if exceeds s.cfg.dictCap (s.ctr.dictSize + 1) then capacity .capDict
  else .ok { s with
    eDict := s.eDict ++ [(x, s.ctr.dictSize)]
    ctr := { s.ctr with dictSize := s.ctr.dictSize + 1 } }

/-- `emitBits(v, n)` of the running command. -/
def emitBits (x n : Nat) (s : State) : Except Stop State := do
  let p ← s.packer.emitBits s.curVar s.cfg.bitOrder x n
  return { s with packer := p }

/-- `grow()` of the running command (R187). -/
def grow (s : State) : State := { s with ctr := s.ctr.grow }

/-- The item of a literal (R186): `CTL0` and 8 bits for a unit below 256, else `CTL1` and 16 bits; `n` is the width of
the control code. -/
def emitLiteralItem (u : CodeUnit) (n : Nat) (s : State) : Except Stop State :=
  if u.toNat < 256 then emitBits 0 n s >>= emitBits u.toNat 8 else emitBits 1 n s >>= emitBits u.toNat 16

/-- `emitW()`, literal form (R186): the literal at the width in force, then two growth steps; `w` is no longer
pending. -/
def emitLiteral (u : CodeUnit) (s : State) : Except Stop State := do
  let s ← emitLiteralItem u s.ctr.numBits s
  let s := grow s
  return grow { s with ePend := s.ePend.filter (· != s.w) }

/-- `emitW()`, reference form (R188): the code of `w`, then one growth step. -/
def emitReference (s : State) : Except Stop State :=
  match eLookup s.eDict s.w with
  | none => .error (.defect .engineDefect)
  | some k => do
    let s ← emitBits k s.ctr.numBits s
    return grow s

/-- `emitW()` (R186, R188): a literal where `w` is pending, else a reference. `w` is not empty (R185, R191). -/
def emitW (s : State) : Except Stop State :=
  match s.w with
  | [] => .error (.defect .engineDefect)
  | u :: _ => if s.w ∈ s.ePend then emitLiteral u s else emitReference s

/-- `encStep` part 1 (R183): a new unit is registered and marked pending. -/
def registerUnit (u : CodeUnit) (s : State) : Except Stop State :=
  match eLookup s.eDict [u] with
  | some _ => .ok s
  | none => do
    let s ← register [u] s
    return { s with ePend := s.ePend ++ [[u]] }

/-- `encStep(c)` (R183 to R190), on the unit in `c`: register it, then extend `w` or emit it. -/
def encStep (s : State) : Except Stop State := do
  let s ← registerUnit s.c s
  let wc := s.w ++ [s.c]
  match eLookup s.eDict wc with
  | some _ => return { s with w := wc }
  | none => do
    let s ← emitW s
    let s ← register wc s
    return { s with w := [s.c] }

/-- One step of PHASE = ENC_SCAN (R182): one input unit, or the end of the scan. -/
def encScan (s : State) : Except Stop State :=
  if s.inIdx < inputLength s then
    encStep { s with c := inUnit s s.inIdx, inIdx := s.inIdx + 1 }
  else .ok { s with phase := .encFinal }

/-- PHASE = ENC_FINAL (R191 to R193): the last `w`, the end code, the flush. -/
def encFinal (s : State) : Except Stop State := do
  let s ← emitW s
  let s ← emitBits 2 s.ctr.numBits s
  return { s with packer := s.packer.flush s.curVar, phase := .encPost }

/-- PHASE = ENC_POST (R194): post-processing, the capacity check, the write-back, completion. -/
def encPost (s : State) : Except Stop State :=
  let o := post s.curVar s.packer.sym
  if exceeds s.cfg.outCap o.length then capacity .capOut
  else .ok (complete .ok o.length { s with outMem := Memory.writeSeq s.outMem 0 o })

end Sys2Proof.Machine
end

