-- ==== Sys2Proof/Machine/Engine.lean ====
section
/-! DEFINITION. The engine as a sequencer (R8, R30): one step of the running command, a run of steps, and the
acceptance and rejection of a command (R240, R253). -/

namespace Sys2Proof.Machine

/-- The work of one engine step, selected by PHASE (R30). -/
def engineWork (s : State) : Except Stop State :=
  match s.phase with
  | .idle => .ok s
  | .encScan => encScan s
  | .encFinal => encFinal s
  | .encPost => encPost s
  | .decFirst => decFirst s
  | .decLoop => decLoop s
  | .decDrain => decDrain s

/-- One engine step. A condition raised in it ends the command at once (R262): no later part of the step takes
effect, and what was already written to OUT is not defined for the host. -/
def engineStep (s : State) : Host.Outcome State Fault Refusal :=
  match engineWork s with
  | .ok t => .next t
  | .error (.raise e) => .next (complete e 0 s)
  | .error (.defect f) => .fault f

/-- At most `k` engine steps, until the engine is IDLE. -/
def engineRun : (k : Nat) → State → Host.Outcome State Fault Refusal
  | 0, s => .next s
  | k + 1, s =>
    if s.busy then
      match engineStep s with
      | .next t => engineRun k t
      | .fault f => .fault f
      | .refused r => .refused r
    else .next s

/-- More engine steps than any command takes (R300): one per unit and three more for a compress command; for a
decompress command at most one per three bits of its input, and three more. -/
def engineBound (s : State) : Nat := 16 * inputLength s + 4

/-- Let the engine run until the host's next access lands (R299). -/
def advance (s : State) : Host.Outcome State Fault Refusal :=
  match s.pace with
  | .toEnd => engineRun (engineBound s) s
  | .steps n => engineRun n s

/-- Acceptance of a legal command word while BUSY = 0 (R240): the operation, the presence and the length of the input
are latched, then the checks run in the order absence, capacity, emptiness, and the engine starts. -/
def accept (d : Dir) (v : Variant) (s : State) : State :=
  let s := { s with
    status := acceptedStatus
    outLen := 0
    curDir := d
    curVar := v
    latPresent := s.inPresent
    latLen := s.inLen
    tainted := false }
  if s.latPresent = false then finish .absent 0 s
  else if exceeds s.cfg.inCap (inputLength s) then finish (.capacity .capIn) 0 s
  else if inputLength s = 0 then finish .ok 0 s
  else match d with
    | .compress => encStart s
    | .decompress => decStart s

/-- A CMD write while BUSY = 1 (R253, R270): REJECTED is set, and the running command continues unchanged. -/
def reject (s : State) : State := { s with status := rejectedStatus s.status }

/-- A command (R240, R241): rejected while one is running, else accepted and run as far as the engine gets before
the host's next access. -/
def runCommand (d : Dir) (v : Variant) (s : State) : Host.Outcome State Fault Refusal :=
  if s.busy then advance (reject s) else advance (accept d v s)

/-- A CMD write whose RSV field is not 0 (R240, R252, R253): while BUSY it is rejected like any other; else it
completes at once with ILLEGAL_CMD, and the engine never starts. -/
def illegalCommand (s : State) : Host.Outcome State Fault Refusal :=
  if s.busy then advance (reject s)
  else .next (finish .illegalCmd 0 { s with status := { s.status with rejected := false }, tainted := false })

end Sys2Proof.Machine
end

