-- ==== Sys2Proof/Machine/Commands.lean ====
section
/-! DEFINITION. The meanings of the eight commands (spec/44_commands.md), one definition each. -/

namespace Sys2Proof.Machine

/-- `COMPRESS.RAW` (R244): CMD = 0, BPC 16, no post-processing. -/
def execCompressRaw (s : State) : Host.Outcome State Fault Refusal := runCommand .compress .raw s

/-- `DECOMPRESS.RAW` (R245): CMD = 1, BPC 16, no invalid symbol and no pad. -/
def execDecompressRaw (s : State) : Host.Outcome State Fault Refusal := runCommand .decompress .raw s

/-- `COMPRESS.UTF` (R246): CMD = 2, BPC 15, one space appended. -/
def execCompressUtf (s : State) : Host.Outcome State Fault Refusal := runCommand .compress .utf s

/-- `DECOMPRESS.UTF` (R247): CMD = 3, BPC 15, the sentinel neither required nor checked. -/
def execDecompressUtf (s : State) : Host.Outcome State Fault Refusal := runCommand .decompress .utf s

/-- `COMPRESS.BASE64` (R248): CMD = 4, BPC 6, padded with `=`. -/
def execCompressBase64 (s : State) : Host.Outcome State Fault Refusal := runCommand .compress .base64 s

/-- `DECOMPRESS.BASE64` (R249): CMD = 5, BPC 6, pad symbol `=`. -/
def execDecompressBase64 (s : State) : Host.Outcome State Fault Refusal := runCommand .decompress .base64 s

/-- `COMPRESS.URI` (R250): CMD = 6, BPC 6, padded with `$`. -/
def execCompressUri (s : State) : Host.Outcome State Fault Refusal := runCommand .compress .uri s

/-- `DECOMPRESS.URI` (R251): CMD = 7, BPC 6, pad symbol `$`. -/
def execDecompressUri (s : State) : Host.Outcome State Fault Refusal := runCommand .decompress .uri s

end Sys2Proof.Machine
end

