-- ==== Sys2Proof/Machine/Dispatch.lean ====
section
/-! DEFINITION. The meaning of every instruction: one arm per constructor of Instr. -/

namespace Sys2Proof.Machine

def exec (i : Instr) (s : State) : Host.Outcome State Fault Refusal :=
  match i with
  | .compressRaw => Sys2Proof.Machine.execCompressRaw s
  | .decompressRaw => Sys2Proof.Machine.execDecompressRaw s
  | .compressUtf => Sys2Proof.Machine.execCompressUtf s
  | .decompressUtf => Sys2Proof.Machine.execDecompressUtf s
  | .compressBase64 => Sys2Proof.Machine.execCompressBase64 s
  | .decompressBase64 => Sys2Proof.Machine.execDecompressBase64 s
  | .compressUri => Sys2Proof.Machine.execCompressUri s
  | .decompressUri => Sys2Proof.Machine.execDecompressUri s

end Sys2Proof.Machine
end

