-- ==== Sys2Proof/Machine/HostBus.lean ====
section
/-! DEFINITION. The host's accesses: the register window (R20 to R27), the buffers (R60 to R62), the accesses the
block refuses (R66), and the machine's response to the host's next event. -/

namespace Sys2Proof.Machine

/-- A host write to CMD (R21, R240, R252): a legal word is the instruction it decodes to. -/
def writeCmd (v : Word) (s : State) : Host.Outcome State Fault Refusal :=
  match decode v with
  | .ok i => exec i s
  | .error .reservedBits => illegalCommand s

/-- What a read of the register at a byte offset returns (R20 to R27): CMD and every reserved offset read 0. -/
def readReg (s : State) (off : Nat) : Word :=
  if off = 0x04 then statusWord s
  else if off = 0x08 then s.inLen
  else if off = 0x0C then flagWord s.inPresent
  else if off = 0x10 then s.outLen
  else 0

/-- A host write to a register (R20): CMD starts a command; IN_LEN and IN_CTRL.PRESENT take the value; STATUS, OUT_LEN
and every reserved offset ignore it. -/
def writeReg (off : Nat) (v : Word) (s : State) : Host.Outcome State Fault Refusal :=
  if off = 0x00 then writeCmd v s
  else if off = 0x08 then advance { s with inLen := v }
  else if off = 0x0C then advance { s with inPresent := v.getLsbD 0 }
  else advance s

/-- What a host read returns is kept (R301); no read has a side effect on the block (R68). -/
def pushRead (r : ReadValue) (s : State) : State := { s with reads := s.reads ++ [r] }

/-- A host write of unit `i` of IN (R60, R61). While a command runs it leaves the command's ending open (R295). DESIGN
CHOICE (log 15): every index takes a unit, also one from IN_CAP on, as R277 and program P4 of 95_test_vectors.md have it. -/
def writeIn (i : Nat) (u : CodeUnit) (s : State) : Host.Outcome State Fault Refusal :=
  advance { s with inMem := Memory.write s.inMem i u, tainted := s.tainted || s.busy }

/-- A host read of unit `i` of IN: what the host last wrote there (R61, R296), at every index (log 15). -/
def readIn (i : Nat) (s : State) : Host.Outcome State Fault Refusal := advance (pushRead (.unit (inUnit s i)) s)

/-- A host read of unit `i` of OUT: the output of the last command below OUT_LEN while BUSY = 0 (R72); any value
elsewhere (R62, R72, R262, U5), a free one, also at an index from OUT_CAP on (log 15). -/
def readOut (i : Nat) (s : State) : Host.Outcome State Fault Refusal :=
  if s.busy = false ∧ i < s.outLen.toNat then advance (pushRead (.unit (outUnit s i)) s)
  else advance (pushRead (.unit (Config.freeUnit s.free)) { s with free := s.free + 1 })

/-- A host write of unit `i` of OUT: R277 allows it, and it changes nothing. Only the engine writes OUT (R60, R62), the
output stays as it is until the next command or reset (R294), and what the host reads elsewhere in OUT is any value. DEDUCED
(log 14). -/
def writeOut (_i : Nat) (_u : CodeUnit) (s : State) : Host.Outcome State Fault Refusal := advance s

/-- A host access, then the engine steps before the next one. -/
def hostAccess (a : Access) (s : State) : Host.Outcome State Fault Refusal :=
  match a.place s.cfg with
  | none => .refused .irregularAccess
  | some k =>
    match a.space, a.isWrite with
    | .regs, true => writeReg k a.data s
    | .regs, false => advance (pushRead (.word (readReg s k)) s)
    | .inBuf, true => writeIn k (a.data.setWidth 16) s
    | .inBuf, false => readIn k s
    | .outBuf, true => writeOut k (a.data.setWidth 16) s
    | .outBuf, false => readOut k s

/-- The next thing that happens: the host's next event where it has one; else one engine step where a command runs;
else nothing (R282). -/
def machineStep (s : State) : Host.Outcome State Fault Refusal :=
  match s.host with
  | [] => if s.busy then engineStep s else .next s
  | e :: rest =>
    let s := { s with host := rest, pace := e.pace }
    match e.act with
    | .access a => hostAccess a s
    | .hardReset => .next (hardReset s)

/-- `WR` of the register at byte offset `off` (R94). -/
def wrReg (p : Params) (off : Nat) (v : Word) : Access where
  space := .regs
  isWrite := true
  addr := p.regBase + off
  bytes := 4
  data := v

/-- `RD` of the register at byte offset `off` (R94). -/
def rdReg (p : Params) (off : Nat) : Access where
  space := .regs
  isWrite := false
  addr := p.regBase + off
  bytes := 4
  data := 0

/-- `WRIN i, u` (R94). -/
def wrIn (p : Params) (i : Nat) (u : CodeUnit) : Access where
  space := .inBuf
  isWrite := true
  addr := p.inWindow + 2 * i
  bytes := 2
  data := u.setWidth 32

/-- A host read of IN[i] (R60). -/
def rdIn (p : Params) (i : Nat) : Access where
  space := .inBuf
  isWrite := false
  addr := p.inWindow + 2 * i
  bytes := 2
  data := 0

/-- `RDOUT i` (R94). -/
def rdOut (p : Params) (i : Nat) : Access where
  space := .outBuf
  isWrite := false
  addr := p.outWindow + 2 * i
  bytes := 2
  data := 0

/-- Place a command word where the machine takes its next instruction: a CMD write, before the host's other
accesses. The pace is that of the state (log 9). -/
def placeCommand (s : State) (v : Word) : State :=
  { s with host := { act := .access (wrReg s.cfg 0 v), pace := s.pace } :: s.host }

end Sys2Proof.Machine
end

