-- ==== Sys2Proof/Machine/Step.lean ====
section
/-! DEFINITION. The step of the machine, and where its next instruction stands. -/

namespace Sys2Proof.Machine

/-- One step: the host's next event and the engine steps after it, or one engine step where the host has no event. -/
def step (s : State) : Host.Outcome State Fault Refusal := machineStep s

/-- The state whose next step runs the instruction of `nbits` bits `w`: a CMD write of that word is the host's next
access. -/
def State.withFetchWord (s : State) (nbits w : Nat) : State := placeCommand s (BitVec.ofNat 32 (w % 2 ^ nbits))

end Sys2Proof.Machine
end

