-- ==== Sys2Proof/Machine/Reference.lean ====
section
/-! DEFINITION. What a command computes, as a pure function of the operation, the presence and the units of its input
(R9), in terms the claims use. The machine does not call it: that the machine computes it is a claim. It is written
from the spec's properties, not from the engine's registers: the width of a code comes from the number of entries the
decoder holds (R197, R226), a unit is sent as a literal exactly the first time it is sent (R186), the code of a
sequence is its place in the order of registration (R198), and the padding is given by lengths (R88, R90). -/

namespace Sys2Proof.Machine

/-- The width of a code when the decoder holds `d` entries, placeholders counted (R197, R226): 2 at the start, and
one more each time `d` reaches a power of two. -/
def codeWidth (d : Nat) : Nat := Nat.log2 d + 1

/-- The item of a literal (R186): `LIT8` exactly for a unit below 256. -/
def literalItem (n : Nat) (u : CodeUnit) : StreamItem :=
  if u.toNat < 256 then .lit8 n (u.setWidth 8) else .lit16 n u

/-- The code of a registered sequence: 3 and its place in the order of registration (R198). -/
def codeOf (dict : List (List CodeUnit)) (x : List CodeUnit) : Nat := 3 + dict.idxOf x

/-- One emission of `w` (R186, R188): the item, the units sent as literals so far, and the number of entries the
decoder holds once it has read it. -/
def emission (dict : List (List CodeUnit)) (sent : List CodeUnit) (d : Nat) (w : List CodeUnit) :
    StreamItem × List CodeUnit × Nat :=
  match w with
  | [u] =>
    if u ∈ sent then (.ref (codeOf dict w) (codeWidth d), sent, d + 1)
    else (literalItem (codeWidth d) u, u :: sent, d + 2)
  | _ => (.ref (codeOf dict w) (codeWidth d), sent, d + 1)

/-- The items the encoder writes for the rest of its input (R182 to R192), and how many sequences it has registered
at the end. -/
def encodeFrom (dict : List (List CodeUnit)) (sent : List CodeUnit) (d : Nat) (w : List CodeUnit) :
    List CodeUnit → List StreamItem × Nat
  | [] =>
    let e := emission dict sent d w
    ([e.1, .stop (codeWidth e.2.2)], dict.length)
  | c :: cs =>
    let dict := if [c] ∈ dict then dict else dict ++ [[c]]
    if w ++ [c] ∈ dict then encodeFrom dict sent d (w ++ [c]) cs
    else
      let e := emission dict sent d w
      let r := encodeFrom (dict ++ [w ++ [c]]) e.2.1 e.2.2 [c] cs
      (e.1 :: r.1, r.2)

/-- The code stream of a non-empty input (R84), the same for every variant (R91). -/
def codeStream (us : List CodeUnit) : List StreamItem := (encodeFrom [] [] 2 [] us).1

/-- The encoder's `dictSize` at the end of its input (R198, R199). -/
def finalDictSize (us : List CodeUnit) : Nat := 3 + (encodeFrom [] [] 2 [] us).2

/-- The bits of a code stream before padding (R83, R90). -/
def streamBits (o : BitOrder) (items : List StreamItem) : List Bool := items.flatMap (StreamItem.bits o)

/-- The symbols that carry a string of bits (R65, R88, R127): one more than the whole symbols it fills, the last one
filled up with zero bits. -/
def symbolsOf (v : Variant) (bs : List Bool) : List CodeUnit :=
  (List.range (bs.length / bpc v + 1)).map fun j =>
    enc v (msbValue (((bs ++ List.replicate (bpc v) false).drop (j * bpc v)).take (bpc v)))

/-- The output units of a compress command on a non-empty input (R194). -/
def compressed (o : BitOrder) (v : Variant) (us : List CodeUnit) : List CodeUnit :=
  post v (symbolsOf v (streamBits o (codeStream us)))

/-- A compress command on a present, non-empty input (R180 to R195): the capacity checks, then the output. -/
def compressValue (p : Params) (v : Variant) (us : List CodeUnit) : Ending × List CodeUnit :=
  if exceeds p.dictCap (finalDictSize us) then (.capacity .capDict, [])
  else if exceeds p.outCap (compressed p.bitOrder v us).length then (.capacity .capOut, [])
  else (.ok, compressed p.bitOrder v us)

/-- A unit that carries code stream bits: a symbol of the alphabet that is not the pad (R128). -/
def carriesBits (v : Variant) (u : CodeUnit) : Bool := !isPad v u && (dec v u).isSome

/-- The code stream bits an input can supply: those of its symbols before the first unit that carries none (R65,
R128). -/
def suppliedBits (v : Variant) (us : List CodeUnit) : List Bool :=
  (us.takeWhile (carriesBits v)).flatMap fun u => msbBits ((dec v u).getD 0) (bpc v)

/-- How a command ends that needs a bit the input cannot supply (R128, R132, R133, R267). -/
def shortage (v : Variant) (us : List CodeUnit) : Ending :=
  match us.dropWhile (carriesBits v) with
  | [] => .malformed .exhausted
  | u :: _ => if isPad v u then .malformed .exhausted else .malformed .badSymbol

/-- The next `n` bits as a value, where there are so many (R131). -/
def takeBits (o : BitOrder) (n : Nat) (bs : List Bool) : Option (Nat × List Bool) :=
  if n ≤ bs.length then some (bitsValue o (bs.take n), bs.drop n) else none

/-- What a decompress command has rebuilt: the entries from code 3 on, the previous entry, the output so far. -/
structure Rebuilt where
  dict : List (List CodeUnit)
  w    : List CodeUnit
  out  : List CodeUnit
  deriving DecidableEq, Repr

/-- The number of entries, placeholders counted: the decoder's `dictSize` (R37). -/
def Rebuilt.size (r : Rebuilt) : Nat := r.dict.length + 3

/-- The entry of a code from 3 on (R219, R220). -/
def Rebuilt.entry (r : Rebuilt) (cd : Nat) : Except Ending (List CodeUnit) :=
  if cd < r.size then .ok (r.dict.getD (cd - 3) [])
  else if cd = r.size then .ok (r.w ++ r.w.take 1)
  else .error (.malformed .badIndex)

/-- A new entry (R229). -/
def Rebuilt.add (p : Params) (r : Rebuilt) (x : List CodeUnit) : Except Ending Rebuilt :=
  if exceeds p.dictCap (r.size + 1) then .error (.capacity .capDict) else .ok { r with dict := r.dict ++ [x] }

/-- Output an entry, register `w + entry[0]`, move the window (R221 to R223). -/
def Rebuilt.push (p : Params) (r : Rebuilt) (x : List CodeUnit) : Except Ending Rebuilt :=
  if exceeds p.outCap (r.out.length + x.length) then .error (.capacity .capOut)
  else do
    let r ← Rebuilt.add p { r with out := r.out ++ x } (r.w ++ x.take 1)
    return { r with w := x }

/-- The literal after code 0 or 1, where the bits suffice (R212, R216). -/
def takeLiteral (o : BitOrder) (cd : Nat) (bs : List Bool) : Option (CodeUnit × List Bool) :=
  (takeBits o (if cd = 0 then 8 else 16) bs).map fun r => (BitVec.ofNat 16 r.1, r.2)

/-- The codes after the first literal, up to the end code (R214 to R223): how the command ends (`ok`: the end code was
read), what it rebuilt, and the bits left. Each code takes bits, so that as many turns as there are bits suffice. -/
def decodeFrom (p : Params) (short : Ending) : (fuel : Nat) → Rebuilt → List Bool → Ending × Rebuilt × List Bool
  | 0, r, bs => (short, r, bs)
  | fuel + 1, r, bs =>
    match takeBits p.bitOrder (codeWidth r.size) bs with
    | none => (short, r, bs)
    | some (cd, bs) =>
      if cd = 2 then (.ok, r, bs)
      else if cd < 2 then
        match takeLiteral p.bitOrder cd bs with
        | none => (short, r, bs)
        | some (u, bs) =>
          match Rebuilt.add p r [u] >>= fun r => r.push p [u] with
          | .error e => (e, r, bs)
          | .ok r => decodeFrom p short fuel r bs
      else
        match r.entry cd >>= r.push p with
        | .error e => (e, r, bs)
        | .ok r => decodeFrom p short fuel r bs

/-- The bits of a stream from the first code on (R212 to R223). -/
def decodeBits (p : Params) (short : Ending) (bs : List Bool) : Ending × Rebuilt × List Bool :=
  let start : Rebuilt := { dict := [], w := [], out := [] }
  match takeBits p.bitOrder 2 bs with
  | none => (short, start, bs)
  | some (cd, bs) =>
    if cd < 2 then
      match takeLiteral p.bitOrder cd bs with
      | none => (short, start, bs)
      | some (u, bs) =>
        if exceeds p.outCap 1 then (.capacity .capOut, start, bs)
        else decodeFrom p short bs.length { dict := [[u]], w := [u], out := [u] } bs
    else (.malformed .badFirstCode, start, bs)

/-- A decompress command on a present, non-empty input (R210 to R224): after the end code, every unit that was not
fetched must be drainable (R134). -/
def decompressValue (p : Params) (v : Variant) (us : List CodeUnit) : Ending × List CodeUnit :=
  let bs := suppliedBits v us
  match decodeBits p (shortage v us) bs with
  | (.ok, r, rest) =>
    let fetched := (bs.length - rest.length + (bpc v - 1)) / bpc v
    if (us.drop fetched).all (fun u => isPad v u || (dec v u).isSome) then (.ok, r.out)
    else (.malformed .badSymbol, [])
  | (e, _, _) => (e, [])

/-- The value of a command (R9): how it ends and its output units, none where it does not end with OK (R261). The
checks at acceptance come first, in the order of R240. -/
def commandValue (p : Params) (i : Instr) (present : Bool) (us : List CodeUnit) : Ending × List CodeUnit :=
  if present = false then (.absent, [])
  else if exceeds p.inCap us.length then (.capacity .capIn, [])
  else if us = [] then (.ok, [])
  else match i.dir with
    | .compress => compressValue p i.variant us
    | .decompress => decompressValue p i.variant us

/-- What a command has written to OUT when it completes, from index 0 on (R62, R72): a compress command its output; a
decompress command every unit it has output before the step that ended it (R221, R262; log 10). -/
def writtenUnits (p : Params) (i : Instr) (present : Bool) (us : List CodeUnit) : List CodeUnit :=
  if present = false then []
  else if exceeds p.inCap us.length then []
  else if us = [] then []
  else match i.dir with
    | .compress => (compressValue p i.variant us).2
    | .decompress => (decodeBits p (shortage i.variant us) (suppliedBits i.variant us)).2.1.out

end Sys2Proof.Machine
end

