-- ==== Sys2Proof/Safety.lean ====
section
/-! DEFINITION. What holds of every state the block can be in: the STATUS fields agree with each other (R22 to R24), the
buffers are canonical and OUT is within its capacity (R60, R62), and the running command's registers are those its phase can
have (R30 to R40, R197, R198, R226). A run is safe when its states meet this invariant and no step ends in a fault of the
engine. -/

namespace Sys2Proof.Machine

/-- The causes of a MALFORMED result (R24). -/
def malformedCauses : List Cause := [.badFirstCode, .badIndex, .exhausted, .badSymbol]

/-- The causes of a CAPACITY result (R24). -/
def capacityCauses : List Cause := [.capIn, .capOut, .capDict]

/-- The STATUS fields and OUT_LEN agree (R22 to R24, R27, R261). -/
structure StatusCoherent (s : State) : Prop where
  /-- While a command runs, DONE is 0, RESULT is NONE, there is no output, and OUT_LEN is 0 (R22, R27). -/
  busy      : s.busy = true →
    s.status.done = false ∧ s.status.result = .none ∧ s.status.outPresent = false ∧ s.outLen = 0
  /-- DONE is 1 exactly where a result is recorded (R22, R23). -/
  done      : s.status.done = true ↔ s.status.result ≠ .none
  /-- An output is present exactly after OK (R261). -/
  present   : s.status.outPresent = true ↔ s.status.result = .ok
  /-- Causes 1 to 4 occur only with MALFORMED, and MALFORMED only with one of them (R24). -/
  malformed : s.status.result = .malformed ↔ s.status.cause ∈ malformedCauses
  /-- Causes 5 to 7 occur only with CAPACITY, and CAPACITY only with one of them (R24). -/
  capacity  : s.status.result = .capacity ↔ s.status.cause ∈ capacityCauses
  /-- OUT_LEN is 0 after every result other than OK (R27). -/
  length    : s.status.result ≠ .ok → s.outLen = 0

/-- The buffers are in canonical form, and OUT holds no unit at an index from OUT_CAP on (R60, R62). -/
structure BuffersCoherent (s : State) : Prop where
  inWf    : s.inMem.wf
  outWf   : s.outMem.wf
  outRoom : ∀ e ∈ s.outMem, exceeds s.cfg.outCap (e.1 + 1) = false

/-- The engine runs only on a present, non-empty input that fits IN (R240). -/
structure OperandsLatched (s : State) : Prop where
  present  : s.latPresent = true
  nonempty : inputLength s ≠ 0
  fits     : exceeds s.cfg.inCap (inputLength s) = false

/-- The packer holds fewer bits than a symbol, and counts symbols of the alphabet (R38, R40). -/
structure PackerCoherent (v : Variant) (p : Packer) : Prop where
  pos  : p.pos < bpc v
  acc  : p.acc < 2 ^ p.pos
  nsym : p.nsym = p.sym.length
  sym  : ∀ u ∈ p.sym, carriesBits v u = true

/-- The sequences in the encoder's dictionary, in the order of registration (R31). -/
def encoderKeys (s : State) : List (List CodeUnit) := s.eDict.map Prod.fst

/-- The encoder's registers between two steps (R31 to R34, R38, R197, R198). -/
structure EncoderCoherent (s : State) : Prop where
  /-- The k-th sequence registered has code 3 + k (R198). -/
  codes    : s.eDict = (encoderKeys s).zipIdx 3
  /-- `dictSize` is the next code to assign (R34). -/
  size     : s.ctr.dictSize = (encoderKeys s).length + 3
  /-- One code per sequence (R31). -/
  unique   : (encoderKeys s).Nodup
  /-- Sequences are not empty, and each unit of one is itself registered (R31, R183). -/
  units    : ∀ x ∈ encoderKeys s, x ≠ [] ∧ ∀ u ∈ x, [u] ∈ encoderKeys s
  /-- `w` is empty before the first unit, and a sequence of the dictionary after it (R33). -/
  window   : if s.inIdx = 0 then encoderKeys s = [] ∧ s.w = [] else s.w ∈ encoderKeys s
  /-- A pending unit is a registered single unit (R32): between two steps there is none but `w`. -/
  pending  : ∀ x ∈ s.ePend, x = s.w ∧ x.length = 1 ∧ x ∈ encoderKeys s
  /-- The first unit of a longer sequence has been emitted (R186). -/
  emitted  : ∀ a b t, a :: b :: t ∈ encoderKeys s → [a] ∉ s.ePend
  /-- The counters are those of the decoder, which lacks the pending unit and the entry now under way (R197). -/
  growth   : s.ctr.dictSize + s.ctr.enlargeIn = 2 ^ s.ctr.numBits + 1 + (if s.w ∈ s.ePend then 1 else 0)
  /-- The bounds of R197. -/
  bounds   : 2 ≤ s.ctr.numBits ∧ 1 ≤ s.ctr.enlargeIn ∧ s.ctr.enlargeIn ≤ 2 ^ (s.ctr.numBits - 1)
  /-- `dictSize` is at most DICT_CAP (R200). -/
  room     : exceeds s.cfg.dictCap s.ctr.dictSize = false
  packer   : PackerCoherent s.curVar s.packer
  index    : s.inIdx ≤ inputLength s

/-- The decoder's registers between two codes (R35 to R37, R39, R226). -/
structure DecoderCoherent (s : State) : Prop where
  /-- `dictSize` equals the number of entries (R37). -/
  size         : s.ctr.dictSize = s.dDict.length
  /-- The placeholders are there, and never changed (R35). -/
  placeholders : s.dDict.take 3 = [[Config.placeholder 0], [Config.placeholder 1], [Config.placeholder 2]]
  nonempty     : ∀ x ∈ s.dDict, x ≠ []
  /-- `w` is an entry from code 3 on (R36). -/
  window       : s.w ∈ s.dDict.drop 3
  /-- The counter invariant (R226). -/
  growth       : s.ctr.dictSize + s.ctr.enlargeIn = 2 ^ s.ctr.numBits
  bounds       : 1 ≤ s.ctr.enlargeIn ∧ s.ctr.enlargeIn ≤ 2 ^ (s.ctr.numBits - 1)
  /-- `dictSize` is at most DICT_CAP (R229). -/
  room         : exceeds s.cfg.dictCap s.ctr.dictSize = false
  /-- The unpacker's ranges (R39). -/
  unread       : s.unpacker.rem < bpc s.curVar
  register     : s.unpacker.reg < 2 ^ bpc s.curVar
  index        : s.unpacker.idx ≤ inputLength s
  /-- OUT_IDX counts units OUT has room for (R36, R221). -/
  output       : exceeds s.cfg.outCap s.outIdx = false

/-- The registers of the running command are those its phase can have (R30). -/
def EngineCoherent (s : State) : Prop :=
  match s.phase with
  | .idle => s.tainted = false
  | .encScan => OperandsLatched s ∧ s.curDir = .compress ∧ EncoderCoherent s
  | .encFinal => OperandsLatched s ∧ s.curDir = .compress ∧ EncoderCoherent s ∧ s.inIdx = inputLength s
  | .encPost => OperandsLatched s ∧ s.curDir = .compress ∧ PackerCoherent s.curVar s.packer ∧ s.packer.nsym ≠ 0
  | .decFirst => OperandsLatched s ∧ s.curDir = .decompress ∧
      s.dDict = [[Config.placeholder 0], [Config.placeholder 1], [Config.placeholder 2]] ∧
      s.ctr = { dictSize := 4, numBits := 3, enlargeIn := 4 } ∧ s.unpacker = Unpacker.start ∧ s.outIdx = 0
  | .decLoop => OperandsLatched s ∧ s.curDir = .decompress ∧ DecoderCoherent s
  | .decDrain => OperandsLatched s ∧ s.curDir = .decompress ∧ DecoderCoherent s

/-- The invariant of the block. -/
structure Inv (s : State) : Prop where
  params  : s.cfg.wf = true
  status  : StatusCoherent s
  buffers : BuffersCoherent s
  engine  : EngineCoherent s

/-- An outcome that is no fault. Every fault is one of the engine: no host access raises one. -/
def NoEngineFault (o : Host.Outcome State Fault Refusal) : Prop := ∀ f, o ≠ .fault f

/-- The input sequence a command would take now (R61): units 0 to IN_LEN-1 of IN. -/
def inputSequence (s : State) : List CodeUnit := inputUnits s s.inLen.toNat

/-- The block can take a command, and its host waits for the result: the invariant holds, BUSY is 0, and the engine is
let run to its end before the host's next access (R293). -/
structure Ready (s : State) : Prop where
  inv  : Inv s
  idle : s.busy = false
  pace : s.pace = .toEnd

/-- What the host finds once a command has completed with ending `e` and output `out` (R242, R261). An output of 2^32 or
more units has no stated OUT_LEN (log 4). -/
structure CompletedWith (t : State) (e : Ending) (out : List CodeUnit) : Prop where
  idle     : t.busy = false
  done     : t.status.done = true
  result   : t.status.result = endingResult e
  cause    : t.status.cause = endingCause e
  present  : t.status.outPresent = decide (e = .ok)
  rejected : t.status.rejected = false
  length   : e = .ok → out.length < 2 ^ 32 → t.outLen.toNat = out.length
  noLength : e ≠ .ok → t.outLen = 0
  output   : e = .ok → outputUnits t out.length = out

/-- What no command changes: the parameters, IN_LEN, IN_CTRL, IN, the host's program and pace, what its reads have
returned, and the count of resets (R25, R29, R45, R68). -/
structure HostPartKept (s t : State) : Prop where
  cfg       : t.cfg = s.cfg
  inLen     : t.inLen = s.inLen
  inPresent : t.inPresent = s.inPresent
  inMem     : t.inMem = s.inMem
  host      : t.host = s.host
  pace      : t.pace = s.pace
  reads     : t.reads = s.reads
  epoch     : t.epoch = s.epoch

/-- The engine's working registers are unchanged (R31 to R40). -/
structure EngineRegistersKept (s t : State) : Prop where
  eDict    : t.eDict = s.eDict
  ePend    : t.ePend = s.ePend
  w        : t.w = s.w
  c        : t.c = s.c
  inIdx    : t.inIdx = s.inIdx
  ctr      : t.ctr = s.ctr
  packer   : t.packer = s.packer
  dDict    : t.dDict = s.dDict
  cd       : t.cd = s.cd
  entry    : t.entry = s.entry
  outIdx   : t.outIdx = s.outIdx
  unpacker : t.unpacker = s.unpacker

/-- The listing of the BASE64 alphabet (R151). -/
def base64Listing : List CodeUnit := codeUnits "ABCDEFGHIJKLMNOPQRSTUVWXYZabcdefghijklmnopqrstuvwxyz0123456789+/"

/-- The listing of the URI alphabet (R151). -/
def uriListing : List CodeUnit := codeUnits "ABCDEFGHIJKLMNOPQRSTUVWXYZabcdefghijklmnopqrstuvwxyz0123456789+-"

/-- A unit a compress output of the variant may hold (R165). -/
def outputUnit (v : Variant) (u : CodeUnit) : Prop :=
  match v with
  | .raw => True
  | .utf => 0x0020 ≤ u.toNat ∧ u.toNat ≤ 0x801F
  | .base64 => u ∈ base64Listing ∨ u = 0x003D
  | .uri => u ∈ uriListing ∨ u = 0x0024

end Sys2Proof.Machine
end

