-- ==== Sys2Proof/Certificates/Slice0/Obligations.lean ====
section
/-! DEFINITION. The statements about the block, for the provers. Each docstring names the rule it formalises, or says
what it rests on where it is the model's own. -/

open Sys2Proof Sys2Proof.Machine

/-! ### The command word, and the step -/

/-- R21, R73, R94. Where the host's next event is a CMD write of a word that decodes to `i`, the step is `exec i` on the
state past that event, at the event's pace; and a word placed by `withFetchWord` (log 9) is run as `exec i`. -/
def Obligations.StepRunsDecodedCommand : Prop :=
  ∀ (s : State) (v : Word) (i : Instr), decode v = .ok i →
    (∀ p rest, s.host = { act := .access (wrReg s.cfg 0 v), pace := p } :: rest →
      step s = exec i { s with host := rest, pace := p }) ∧
    step (s.withFetchWord 32 v.toNat) = exec i s

/-- R80, R81, R82. A command word with a reserved bit set is rejected; every other one is the word of exactly the
instruction it decodes to, and each instruction decodes from its word. -/
def Obligations.CommandWordDecodesExactly : Prop :=
  ∀ v : Word,
    (v &&& 0xFFFFFFF8#32 ≠ 0#32 → decode v = .error .reservedBits) ∧
    (v &&& 0xFFFFFFF8#32 = 0#32 → ∃ i, decode v = .ok i) ∧
    ∀ i : Instr, decode v = .ok i ↔ v = encode i

/-- R81: the table, row by row, and two words with a reserved bit. -/
def Obligations.CommandWordValues : Prop :=
  decode 0#32 = .ok .compressRaw ∧ decode 1#32 = .ok .decompressRaw ∧
  decode 2#32 = .ok .compressUtf ∧ decode 3#32 = .ok .decompressUtf ∧
  decode 4#32 = .ok .compressBase64 ∧ decode 5#32 = .ok .decompressBase64 ∧
  decode 6#32 = .ok .compressUri ∧ decode 7#32 = .ok .decompressUri ∧
  decode 8#32 = .error .reservedBits ∧ decode 0x80000000#32 = .error .reservedBits

/-! ### The code stream -/

/-- R83, R123, R131. The bits of a well-formed item, in either bit order, read back as its code and its literal, and
nothing after them is touched. -/
def Obligations.StreamItemsReadBack : Prop :=
  ∀ (o : BitOrder) (it : StreamItem) (rest : List Bool), it.wf = true →
    match it with
    | .lit8 n u => ∃ mid, takeBits o n (it.bits o ++ rest) = some (0, mid) ∧
        takeLiteral o 0 mid = some (u.setWidth 16, rest)
    | .lit16 n u => ∃ mid, takeBits o n (it.bits o ++ rest) = some (1, mid) ∧ takeLiteral o 1 mid = some (u, rest)
    | .ref k n => takeBits o n (it.bits o ++ rest) = some (k, rest)
    | .stop n => takeBits o n (it.bits o ++ rest) = some (2, rest)

/-- R85. The encoder writes `LIT8` exactly for a unit below 256: no code stream it makes holds a `LIT16` of such a unit.
A literal of 8 bits decodes to its zero extension, and the decoder accepts a `LIT16` of any unit. -/
def Obligations.LiteralsTakeTheShorterForm : Prop :=
  (∀ (us : List CodeUnit) (it : StreamItem), it ∈ codeStream us →
    match it with
    | .lit16 _ u => 256 ≤ u.toNat
    | _ => True) ∧
  (∀ (o : BitOrder) (u : BitVec 8) (rest : List Bool),
    takeLiteral o 0 (valueBits o u.toNat 8 ++ rest) = some (u.setWidth 16, rest)) ∧
  (∀ (o : BitOrder) (u : CodeUnit) (rest : List Bool),
    takeLiteral o 1 (valueBits o u.toNat 16 ++ rest) = some (u, rest))

/-- R122. Bit n-1 goes first and bit 0 last under the normative order, and the other way round under `LSB_FIRST`;
`emitBits` sends the bits in that order, each filling its symbol the same way, and `readBits` mirrors it, so that reading
the bits of a value that fits gives it back. -/
def Obligations.ValueBitsGoMsbFirst : Prop :=
  ∀ (v n : Nat),
    (∀ k, k < n → (valueBits .msbFirst v n)[k]? = some (v.testBit (n - 1 - k)) ∧
      (valueBits .lsbFirst v n)[k]? = some (v.testBit k)) ∧
    (∀ o, (valueBits o v n).length = n ∧ (v < 2 ^ n → bitsValue o (valueBits o v n) = v)) ∧
    (∀ (var : Variant) (o : BitOrder) (p : Packer), v < 2 ^ n →
      p.emitBits var o v n = .ok ((valueBits o v n).foldl (Packer.emitBit var) p)) ∧
    ∀ (var : Variant) (o : BitOrder) (N : Nat) (inp : Nat → CodeUnit) (u u' : Unpacker) (bs : List Bool),
      u.readBitList var N inp n = .ok (bs, u') → u.readBits var o N inp n = .ok (bitsValue o bs, u')

/-! ### Reset -/

/-- R46, R290: every value the spec gives for reset. That each unit of both buffers reads as the free value of its index and
of reset count 0 is the model's choice (log 2): the spec leaves the contents open (U3). -/
def Obligations.ResetRegisterValues : Prop :=
  State.reset.busy = false ∧ State.reset.phase = .idle ∧ State.reset.status.done = false ∧
  State.reset.status.result = .none ∧ State.reset.status.cause = .none ∧
  State.reset.status.outPresent = false ∧ State.reset.status.rejected = false ∧
  State.reset.inLen = 0 ∧ State.reset.inPresent = false ∧ State.reset.outLen = 0 ∧
  (∀ off, readReg State.reset off = 0) ∧
  ∀ i, inUnit State.reset i = Config.powerOnIn 0 i ∧ outUnit State.reset i = Config.powerOnOut 0 i

/-- The state after reset meets the invariant. -/
def Obligations.ResetMeetsInvariant : Prop := Inv State.reset

/-- R292, R46, R243. Every command completes as the first after reset: IN_CTRL.PRESENT is 0 then, so with ABSENT. -/
def Obligations.CommandRightAfterReset : Prop :=
  ∀ i : Instr, ∃ t, exec i State.reset = .next t ∧ CompletedWith t .absent []

/-- R291. A hardware reset at any time abandons a running command: every register reads 0 after it and the block is idle.
The model's choices: both buffers hold free values of the new reset (log 2), the host's program and its reads stay (log 20),
and so do the parameters (log 18). -/
def Obligations.HardResetAbandonsCommand : Prop :=
  ∀ (s : State) (p : Pace) (rest : List HostEvent), s.host = { act := .hardReset, pace := p } :: rest →
    ∃ t, step s = .next t ∧ t.busy = false ∧ t.status.done = false ∧ t.status.result = .none ∧
      (∀ off, readReg t off = 0) ∧
      (∀ i, inUnit t i = Config.powerOnIn (s.epoch + 1) i ∧ outUnit t i = Config.powerOnOut (s.epoch + 1) i) ∧
      t.host = rest ∧ t.reads = s.reads ∧ t.cfg = s.cfg

/-! ### The invariant -/

/-- Every step keeps the invariant: STATUS and OUT_LEN agree (R22, R24, R27), the buffers stay canonical and OUT
within its capacity (R60, R62), and the engine's registers are those its phase can have (R33, R37, R197, R198, R226). -/
def Obligations.StepKeepsInvariant : Prop :=
  ∀ s t : State, Inv s → step s = .next t → Inv t

/-- R123, R196: no step from a state of the invariant ends in a fault, whatever the host does; in particular `emitBits` is
never called with a value that does not fit. -/
def Obligations.StepHasNoEngineFault : Prop :=
  ∀ s : State, Inv s → NoEngineFault (step s) ∧ ∃ t, advance s = .next t

/-! ### What the commands compute -/

/-- R9, R240, R241, R242, R244 to R251, R261: each of the eight commands, run from any state ready for it, completes with
the ending and the output of the pure function `commandValue` of its operation, presence and input. -/
def Obligations.EveryCommandComputesItsFunction : Prop :=
  ∀ (s : State) (i : Instr), Ready s →
    ∃ t, exec i s = .next t ∧
      CompletedWith t (commandValue s.cfg i s.inPresent (inputSequence s)).1
        (commandValue s.cfg i s.inPresent (inputSequence s)).2

/-- R271, R195. A compress command never ends with MALFORMED, whatever its input and the capacities: it ends with OK,
ABSENT or CAPACITY; and with the reference capacities a present input always ends with OK. -/
def Obligations.CompressIsTotal : Prop :=
  ∀ (s : State) (i : Instr), Ready s → i.dir = .compress →
    ∃ t, exec i s = .next t ∧ t.status.done = true ∧
      (t.status.result = .ok ∨ t.status.result = .absent ∨ t.status.result = .capacity) ∧
      (s.inPresent = true → s.cfg.isReference = true → t.status.result = .ok)

/-- R254. With the reference capacities, a compress command on a present input ends with OK; a decompress command of the
same variant on what it put in OUT ends with OK and gives the input back; an empty input gives an empty output; on an
absent input both end with ABSENT. The output must be one whose length OUT_LEN and IN_LEN can count. -/
def Obligations.DecompressUndoesCompress : Prop :=
  ∀ (v : Variant) (s : State), Ready s → s.cfg.isReference = true →
    (s.inPresent = true → (compressed .msbFirst v (inputSequence s)).length < 2 ^ 32 →
      ∃ t, exec (Instr.of .compress v) s = .next t ∧ t.status.result = .ok ∧ (s.inLen = 0 → t.outLen = 0) ∧
        ∀ r : State, Ready r → r.cfg.isReference = true → r.inPresent = true → r.inLen = t.outLen →
          (∀ k, k < t.outLen.toNat → inUnit r k = outUnit t k) →
          ∃ u, exec (Instr.of .decompress v) r = .next u ∧ u.status.result = .ok ∧ u.outLen = s.inLen ∧
            outputUnits u s.inLen.toNat = inputSequence s) ∧
    (s.inPresent = false →
      ∃ t u, exec (Instr.of .compress v) s = .next t ∧ t.status.result = .absent ∧
        exec (Instr.of .decompress v) s = .next u ∧ u.status.result = .absent)

/-- R243, R181, R211. On an absent input each command completes with ABSENT, and on an empty one with OK and no output; the
operation and the operands are latched, the engine does not start, and neither buffer is read or written. What CUR_OP, the
latched operands and the engine's registers hold once it has completed is the model's choice (log 24, U2): the rules say
that the first are latched and that none of the last is built. -/
def Obligations.AbsentAndEmptyInputs : Prop :=
  ∀ (s : State) (i : Instr), s.busy = false →
    (s.inPresent = false →
      ∃ t, exec i s = .next t ∧ CompletedWith t .absent [] ∧ HostPartKept s t ∧ t.outMem = s.outMem ∧
        EngineRegistersKept s t ∧ t.curDir = i.dir ∧ t.curVar = i.variant ∧ t.latPresent = s.inPresent ∧
        t.latLen = s.inLen ∧
        ∀ m n, exec i { s with inMem := m, outMem := n } = .next { t with inMem := m, outMem := n }) ∧
    (s.inPresent = true → s.inLen = 0 →
      ∃ t, exec i s = .next t ∧ CompletedWith t .ok [] ∧ HostPartKept s t ∧ t.outMem = s.outMem ∧
        EngineRegistersKept s t ∧ t.curDir = i.dir ∧ t.curVar = i.variant ∧ t.latPresent = s.inPresent ∧
        t.latLen = s.inLen ∧
        ∀ m n, exec i { s with inMem := m, outMem := n } = .next { t with inMem := m, outMem := n })

/-- R25, R240, R268 (CAP_IN). A present input longer than IN_CAP ends with CAPACITY and CAP_IN at acceptance. -/
def Obligations.OverlongInputIsCapacity : Prop :=
  ∀ (s : State) (i : Instr), s.busy = false → s.inPresent = true → exceeds s.cfg.inCap s.inLen.toNat = true →
    ∃ t, exec i s = .next t ∧ CompletedWith t (.capacity .capIn) [] ∧ HostPartKept s t ∧ t.outMem = s.outMem

/-- R252, R269. A word with a reserved bit, written while BUSY is 0, completes at once with ILLEGAL_CMD, reads no buffer,
runs no engine and does not touch OUT. That the engine's registers, CUR_OP and the latched operands then hold what they
held is the model's choice (log 24, U2). -/
def Obligations.IllegalCommandWordCompletes : Prop :=
  ∀ (s : State) (v : Word), s.busy = false → v &&& 0xFFFFFFF8#32 ≠ 0#32 →
    ∃ t, writeCmd v s = .next t ∧ CompletedWith t .illegalCmd [] ∧ HostPartKept s t ∧ t.outMem = s.outMem ∧
      EngineRegistersKept s t ∧ t.curDir = s.curDir ∧ t.curVar = s.curVar ∧ t.latPresent = s.latPresent ∧
      t.latLen = s.latLen ∧
      ∀ m n, writeCmd v { s with inMem := m, outMem := n } = .next { t with inMem := m, outMem := n }

/-- R253, R270. A CMD write of any word while BUSY is 1 sets REJECTED, and the running command goes on unchanged:
wherever the engine would have come to by the host's next access, it comes to with REJECTED set. The next accepted
command clears REJECTED. -/
def Obligations.CommandWhileBusyIsRejected : Prop :=
  (∀ (s t : State) (v : Word), s.busy = true → advance s = .next t →
    writeCmd v s = .next { t with status := { t.status with rejected := true } }) ∧
  ∀ (s : State) (d : Dir) (v : Variant), s.busy = false → (accept d v s).status.rejected = false

/-- R295, R25, R29. Writes of IN_LEN and IN_CTRL while a command runs have no effect on it: the engine comes to the same
state, but for the register written. -/
def Obligations.OperandWritesWhileBusyHaveNoEffect : Prop :=
  ∀ (s t : State) (v : Word), s.busy = true → advance s = .next t →
    writeReg 0x08 v s = .next { t with inLen := v } ∧
    writeReg 0x0C v s = .next { t with inPresent := v.getLsbD 0 }

/-- R295, R300, U6. A write of IN while a command runs leaves its result open, but the command still completes. The model's
choice (log 6): the result and cause are those of a free ending, and where that is OK the output is a free one, as far as
OUT has room; and a write at any index of IN counts (log 6, log 15). This holds whatever the free values are. -/
def Obligations.InWriteWhileBusyStillCompletes : Prop :=
  ∀ (s : State) (k : Nat) (u : CodeUnit), Inv s → s.busy = true → s.pace = .toEnd →
    let e := Config.freeEnding s.free
    let out := cutTo s.cfg.outCap (Config.freeOutput s.free)
    ∃ t, writeIn k u s = .next t ∧ t.busy = false ∧ t.status.done = true ∧ inUnit t k = u ∧
      t.status.result = endingResult e ∧ t.status.cause = endingCause e ∧ t.status.outPresent = decide (e = .ok) ∧
      (e ≠ .ok → t.outLen = 0) ∧ (e = .ok → out.length < 2 ^ 32 → t.outLen.toNat = out.length) ∧
      (e = .ok → outputUnits t out.length = out)

/-- R300: every command completes after finitely many engine steps. What one engine step is, and so the bound of 16 N + 4 of
them, is the model's choice (log 17). -/
def Obligations.EveryCommandTerminates : Prop :=
  ∀ s : State, Inv s → ∃ k t, k ≤ 16 * inputLength s + 4 ∧ engineRun k s = .next t ∧ t.busy = false

/-- R9, R299. How many engine steps are made before the host's next access does not change where a command ends: stopped
after any number of steps and then run on, it comes to the state it comes to in one go. -/
def Obligations.PaceDoesNotChangeTheEndState : Prop :=
  ∀ (s : State) (i : Instr) (n : Nat), Ready s →
    ∃ t u k v, exec i s = .next t ∧ exec i { s with pace := .steps n } = .next u ∧
      engineRun k u = .next v ∧ { v with pace := .toEnd } = t

/-- R45, R298. A command's result depends on the parameters, the presence and the input alone: whatever two blocks have
run before, they end alike. -/
def Obligations.CommandsDoNotInteract : Prop :=
  ∀ (r s : State) (i : Instr), Ready r → Ready s → r.cfg = s.cfg → r.inPresent = s.inPresent →
    inputSequence r = inputSequence s →
    ∃ t u e out, exec i r = .next t ∧ exec i s = .next u ∧ CompletedWith t e out ∧ CompletedWith u e out

/-- The frame of the eight commands (R25, R29, R44, R62, R72). No command, accepted or rejected, changes the host's part
of the state. One that completes writes OUT only from index 0 on, as many units as `writtenUnits` computes, and each of
them holds its unit; every other unit of OUT is as before. The model's choices: what
a decompress command that does not end with OK has written (log 10), and that CUR_OP and the latched operands stay after
completion (log 24). -/
def Obligations.CommandFrame : Prop :=
  ∀ (s : State) (i : Instr),
    (∀ t, exec i s = .next t → HostPartKept s t) ∧
    (Ready s → ∃ t, exec i s = .next t ∧
      t.curDir = i.dir ∧ t.curVar = i.variant ∧ t.latPresent = s.inPresent ∧ t.latLen = s.inLen ∧
      (∀ j, (writtenUnits s.cfg i s.inPresent (inputSequence s)).length ≤ j → outUnit t j = outUnit s j) ∧
      ∀ j u, (writtenUnits s.cfg i s.inPresent (inputSequence s))[j]? = some u → outUnit t j = u)

/-- The frame of the engine's registers. The packer is used by compress commands alone and the unpacker by decompress commands
alone (R120, R130), and each start initialises its own direction's registers (R180, R210). A compress command, run to its
end, leaves the registers that only the decoder uses as they were, and a decompress command those that only the encoder
uses. The model's choices: that they keep their values, which the spec leaves open between commands (U2; log 24), and that
`w` and the counters are shared and so not named here (log 12). -/
def Obligations.EngineRegisterFrame : Prop :=
  ∀ (s : State) (i : Instr), Ready s → ∃ t, exec i s = .next t ∧
    (i.dir = .compress → t.dDict = s.dDict ∧ t.cd = s.cd ∧ t.entry = s.entry ∧ t.outIdx = s.outIdx ∧
      t.unpacker = s.unpacker) ∧
    (i.dir = .decompress → t.eDict = s.eDict ∧ t.ePend = s.ePend ∧ t.c = s.c ∧ t.inIdx = s.inIdx ∧
      t.packer = s.packer)

/-! ### The registers and the buffers as the host sees them -/

/-- R294. While no command runs and none is written, STATUS, OUT_LEN and OUT[0..OUT_LEN-1] do not change, whatever else the
host does but reset the block. The model's choice (log 14): the units of OUT from OUT_LEN on, of which R294 does not speak,
stay too, also under a host write of OUT, which changes nothing. -/
def Obligations.ResultsStayReadable : Prop :=
  ∀ (s t : State), s.busy = false → step s = .next t →
    (s.host = [] ∨ ∃ a p rest, s.host = { act := .access a, pace := p } :: rest ∧
      ¬ (a.space = .regs ∧ a.isWrite = true ∧ a.place s.cfg = some 0)) →
    t.busy = false ∧ statusWord t = statusWord s ∧ t.outLen = s.outLen ∧ ∀ k, outUnit t k = outUnit s k

/-- R20, R61, R68, R72, R73. A read returns the register, the unit of IN, or, below OUT_LEN while BUSY is 0, the unit of OUT;
and the engine then goes on from a state in which nothing but the host's own record has changed. That this is so at every
index of a buffer, also from its capacity on, is the model's choice (log 15). -/
def Obligations.ReadsReturnTheStateAndChangeNothing : Prop :=
  ∀ (s : State) (a : Access) (p : Pace) (rest : List HostEvent) (k : Nat),
    s.host = { act := .access a, pace := p } :: rest → a.isWrite = false → a.place s.cfg = some k →
    match a.space with
    | .regs =>
      step s = advance { s with host := rest, pace := p, reads := s.reads ++ [.word (readReg s k)] }
    | .inBuf =>
      step s = advance { s with host := rest, pace := p, reads := s.reads ++ [.unit (inUnit s k)] }
    | .outBuf =>
      ∃ u, (s.busy = false → k < s.outLen.toNat → u = outUnit s k) ∧
        ∃ f, step s = advance { s with host := rest, pace := p, reads := s.reads ++ [.unit u], free := f }

/-- R20, R26. The five registers and the reserved offsets, at their offsets from REG_BASE: CMD reads 0 and a write of it runs
a command; STATUS, OUT_LEN and the reserved offsets ignore writes; IN_LEN holds what was written; IN_CTRL holds bit 0 of it,
and its other bits read 0. After a write the engine goes on, where it runs. That every offset above 0x10 is in the register
window is the model's choice (log 16): R20 gives the window no size. -/
def Obligations.RegisterWindow : Prop :=
  (∀ (s : State) (off : Nat) (v : Word), off % 4 = 0 →
    hostAccess (wrReg s.cfg off v) s = writeReg off v s ∧
    hostAccess (rdReg s.cfg off) s = advance { s with reads := s.reads ++ [.word (readReg s off)] }) ∧
  (∀ (s : State) (i : Instr) (v : Word), decode v = .ok i → writeReg 0x00 v s = exec i s) ∧
  (∀ (s : State), readReg s 0x00 = 0 ∧ readReg s 0x04 = statusWord s ∧ readReg s 0x08 = s.inLen ∧
    readReg s 0x0C = (if s.inPresent then 1 else 0) ∧ readReg s 0x10 = s.outLen ∧ ∀ off, 0x10 < off → readReg s off = 0) ∧
  (∀ (s : State) (v : Word),
    writeReg 0x04 v s = advance s ∧ writeReg 0x10 v s = advance s ∧ (∀ off, 0x10 < off → writeReg off v s = advance s) ∧
    writeReg 0x08 v s = advance { s with inLen := v } ∧
    writeReg 0x0C v s = advance { s with inPresent := v.getLsbD 0 }) ∧
  (∀ s : State, s.busy = false → advance s = .next s) ∧ State.reset.inPresent = false

/-- R22, R23, R24. Every field of the STATUS word stands where the table puts it, with the code the rules give each RESULT and
CAUSE, and bits 31 to 10 are 0; in a state of the invariant BUSY and DONE are never 1 together, RESULT is NONE while BUSY,
and a cause is one of its result's. -/
def Obligations.StatusWordLayout : Prop :=
  ∀ s : State,
    (statusWord s).getLsbD 0 = s.busy ∧ (statusWord s).getLsbD 1 = s.status.done ∧
    ((statusWord s).extractLsb' 2 3).toNat = (match s.status.result with
      | .none => 0
      | .ok => 1
      | .absent => 2
      | .malformed => 3
      | .capacity => 4
      | .illegalCmd => 5) ∧
    ((statusWord s).extractLsb' 5 3).toNat = (match s.status.cause with
      | .none => 0
      | .badFirstCode => 1
      | .badIndex => 2
      | .exhausted => 3
      | .badSymbol => 4
      | .capIn => 5
      | .capOut => 6
      | .capDict => 7) ∧
    (statusWord s).getLsbD 8 = s.status.outPresent ∧ (statusWord s).getLsbD 9 = s.status.rejected ∧
    (∀ k, 10 ≤ k → (statusWord s).getLsbD k = false) ∧
    (Inv s → ¬ (s.busy = true ∧ s.status.done = true) ∧ (s.busy = true → s.status.result = .none) ∧
      (s.status.cause ∈ [.badFirstCode, .badIndex, .exhausted, .badSymbol] ↔ s.status.result = .malformed) ∧
      (s.status.cause ∈ [.capIn, .capOut, .capDict] ↔ s.status.result = .capacity))

/-- R296. While a command runs, STATUS reads BUSY and REJECTED alone, OUT_LEN reads 0, a read of IN returns what the host
last wrote; the command goes on from an otherwise unchanged state. That a read of OUT, of which R296 allows any value, returns
the next free value and counts it is the model's choice (log 3), and so is that both reads go to every index (log 15). -/
def Obligations.ReadsWhileBusy : Prop :=
  ∀ s : State, Inv s → s.busy = true →
    readReg s 0x04 = (if s.status.rejected then 0x201 else 0x001) ∧ readReg s 0x10 = 0 ∧
    (∀ off, off % 4 = 0 → hostAccess (rdReg s.cfg off) s =
      advance { s with reads := s.reads ++ [.word (readReg s off)] }) ∧
    (∀ k, readIn k s = advance { s with reads := s.reads ++ [.unit (inUnit s k)] }) ∧
    ∀ k, readOut k s = advance { s with reads := s.reads ++ [.unit (Config.freeUnit s.free)], free := s.free + 1 }

/-- R66, U7. An access that is not one aligned word of the register space or one aligned unit of a buffer is refused. The
model's choices: an access below its window's base is none of the window's, and alignment counts from the base (log 16), with
two byte addresses for a unit (log 8). -/
def Obligations.IrregularAccessesAreRefused : Prop :=
  ∀ (s : State) (a : Access) (p : Pace) (rest : List HostEvent),
    s.host = { act := .access a, pace := p } :: rest →
    (match a.space with
      | .regs => a.bytes ≠ 4 ∨ a.addr < s.cfg.regBase ∨ (a.addr - s.cfg.regBase) % 4 ≠ 0
      | .inBuf => a.bytes ≠ 2 ∨ a.addr < s.cfg.inWindow ∨ (a.addr - s.cfg.inWindow) % 2 ≠ 0
      | .outBuf => a.bytes ≠ 2 ∨ a.addr < s.cfg.outWindow ∨ (a.addr - s.cfg.outWindow) % 2 ≠ 0) →
      step s = .refused .irregularAccess

/-- R277. Every access to a register or to a unit of a buffer is allowed: from a state of the invariant the step answers a
next state, which keeps it, whether or not a command runs. The model's choices: this holds at every index of a buffer, also
from its capacity on (log 15), and of a host write of OUT (log 14). -/
def Obligations.EveryAlignedAccessIsAllowed : Prop :=
  ∀ (s : State) (a : Access) (p : Pace) (rest : List HostEvent) (k : Nat),
    Inv s → s.host = { act := .access a, pace := p } :: rest → a.place s.cfg = some k →
    ∃ t, step s = .next t ∧ Inv t

/-- R60, R72, R294. A host write of a unit of OUT changes nothing: the engine goes on from the state with the event taken.
That R294 and R72 leave the write, which R277 allows, no effect is deduced (log 14). -/
def Obligations.HostWriteOfOutChangesNothing : Prop :=
  ∀ (s : State) (a : Access) (p : Pace) (rest : List HostEvent) (k : Nat),
    s.host = { act := .access a, pace := p } :: rest → a.space = .outBuf → a.isWrite = true → a.place s.cfg = some k →
    step s = advance { s with host := rest, pace := p }

/-- R25, R60, R268. A unit of IN at an index from IN_CAP on is no command's input: whatever the host writes there (log 15), a
command ends alike. -/
def Obligations.UnitsPastTheCapacityAreNoInput : Prop :=
  ∀ (s : State) (i : Instr) (k : Nat) (u : CodeUnit), Ready s → exceeds s.cfg.inCap (k + 1) = true →
    ∃ t v e out, exec i s = .next t ∧ exec i { s with inMem := Memory.write s.inMem k u } = .next v ∧
      CompletedWith t e out ∧ CompletedWith v e out

/-- R61, R63, R67. A write of a unit of IN while no command runs: that unit reads as written, every other unit as before,
and nothing else changes. That this is so at every index, also from IN_CAP on, is the model's choice (log 15). -/
def Obligations.InHoldsWhatTheHostWrote : Prop :=
  ∀ (s : State) (k : Nat) (u : CodeUnit) (p : Pace) (rest : List HostEvent),
    s.inMem.wf → s.busy = false →
    s.host = { act := .access (wrIn s.cfg k u), pace := p } :: rest →
    ∃ t, step s = .next t ∧ inUnit t k = u ∧ (∀ j, j ≠ k → inUnit t j = inUnit s j) ∧
      t = { s with host := rest, pace := p, inMem := t.inMem, tainted := s.tainted }

/-! ### The alphabets -/

/-- R150, R153, R155, R157, R159. In each variant the decode table undoes the encode table on the symbol's whole domain,
is defined nowhere else, and never on the pad symbol. -/
def Obligations.AlphabetTablesAreInverse : Prop :=
  ∀ v : Variant,
    (∀ x, x < 2 ^ bpc v → dec v (enc v x) = some x ∧ isPad v (enc v x) = false) ∧
    (∀ u x, dec v u = some x → x < 2 ^ bpc v ∧ enc v x = u) ∧
    ∀ u, isPad v u = true → dec v u = none

/-- R151, R156, R158. The integer a symbol of a 6-bit alphabet stands for is its position in the listing. -/
def Obligations.SixBitTablesFollowTheListing : Prop :=
  base64Listing.length = 64 ∧ uriListing.length = 64 ∧
  ∀ x : Fin 64, base64Listing[x.val]? = some (enc .base64 x.val) ∧ uriListing[x.val]? = some (enc .uri x.val)

/-- R152 to R155. The RAW table is the identity; the UTF table adds 32, its symbols lie in 0x0020 to 0x801F, none is a
surrogate, and every unit outside that range is INVALID. RAW has no pad symbol. -/
def Obligations.RawAndUtfTables : Prop :=
  (∀ x, x ≤ 65535 → (enc .raw x).toNat = x) ∧ (∀ u, dec .raw u = some u.toNat ∧ isPad .raw u = false) ∧
  (∀ x, x ≤ 32767 → (enc .utf x).toNat = x + 32 ∧ (enc .utf x).toNat ≤ 0x801F ∧
    ¬ (0xD800 ≤ (enc .utf x).toNat ∧ (enc .utf x).toNat ≤ 0xDFFF)) ∧
  ∀ u : CodeUnit, dec .utf u = if 0x0020 ≤ u.toNat ∧ u.toNat ≤ 0x801F then some (u.toNat - 32) else none

/-- R165. Every unit of a compress output is one its variant may hold. -/
def Obligations.OutputStaysInTheAlphabet : Prop :=
  ∀ (s : State) (v : Variant), Ready s →
    ∃ t e out, exec (Instr.of .compress v) s = .next t ∧ CompletedWith t e out ∧ ∀ u ∈ out, outputUnit v u

/-- R166. The BASE64 and URI compress outputs have a length that is a multiple of four, the empty output included: the
output is that of the command's function, and so is OUT_LEN, where 32 bits can count it (log 4). -/
def Obligations.PaddedLengthIsAMultipleOfFour : Prop :=
  ∀ (s : State) (v : Variant), Ready s → v = .base64 ∨ v = .uri →
    let r := commandValue s.cfg (Instr.of .compress v) s.inPresent (inputSequence s)
    ∃ t, exec (Instr.of .compress v) s = .next t ∧ CompletedWith t r.1 r.2 ∧ r.2.length % 4 = 0 ∧
      (r.2.length < 2 ^ 32 → t.outLen.toNat % 4 = 0)

/-- R90. Where the code stream has B bits before padding and S = floor(B / BPC) + 1, the output has S units in RAW, S + 1
in UTF, and S rounded up to a multiple of four in BASE64 and URI. -/
def Obligations.OutputLengthFromStreamBits : Prop :=
  ∀ (s : State) (v : Variant), Ready s → s.cfg.isReference = true → s.inPresent = true → s.inLen ≠ 0 →
    ∃ t out, exec (Instr.of .compress v) s = .next t ∧ CompletedWith t .ok out ∧
      let S := (streamBits .msbFirst (codeStream (inputSequence s))).length / bpc v + 1
      out.length = match v with
        | .raw => S
        | .utf => S + 1
        | .base64 | .uri => S + (4 - S % 4) % 4

/-- R250 (its corner case), R91. The URI output is the BASE64 output with every `/` replaced by `-` and every `=` by `$`. -/
def Obligations.UriOutputIsBase64WithOtherSymbols : Prop :=
  ∀ s : State, Ready s → s.cfg.isReference = true → s.inPresent = true →
    ∃ t u out, exec .compressBase64 s = .next t ∧ exec .compressUri s = .next u ∧ CompletedWith t .ok out ∧
      CompletedWith u .ok (out.map fun x => if x = 0x002F then 0x002D else if x = 0x003D then 0x0024 else x)

/-! ### The packer and the unpacker -/

/-- R127, R121, R123, R124. After any values that fit their widths, `flush` has made floor(B / BPC) + 1 symbols of the B
bits given to the packer, and no call faults. -/
def Obligations.PackerEmitsOneSymbolMore : Prop :=
  ∀ (v : Variant) (o : BitOrder) (fields : List (Nat × Nat)), (∀ f ∈ fields, f.1 < 2 ^ f.2) →
    ∃ p, fields.foldlM (fun p f => Packer.emitBits v o f.1 f.2 p) Packer.start = .ok p ∧
      (p.flush v).nsym = (fields.map Prod.snd).sum / bpc v + 1 ∧ (p.flush v).sym.length = (p.flush v).nsym ∧
      (p.flush v).pos = 0

/-- R135. What the packer emits, the unpacker with the same width and alphabet reads back bit for bit, and then only zero
bits up to the end of the last symbol. -/
def Obligations.UnpackerReturnsThePackedBits : Prop :=
  ∀ (v : Variant) (o : BitOrder) (fields : List (Nat × Nat)) (p : Packer),
    fields.foldlM (fun p f => Packer.emitBits v o f.1 f.2 p) Packer.start = .ok p →
    let us := (p.flush v).sym
    let bs := fields.flatMap fun f => valueBits o f.1 f.2
    ∃ z u, 1 ≤ z ∧ z ≤ bpc v ∧
      Unpacker.readBitList v us.length (fun k => us.getD k 0) (bs.length + z) Unpacker.start =
        .ok (bs ++ List.replicate z false, u) ∧ u.idx = us.length ∧ u.rem = 0

/-- R123 (U4). A value that does not fit its width is a fault, and one that fits is not. -/
def Obligations.EmitBitsFaultsOnOverflow : Prop :=
  ∀ (v : Variant) (o : BitOrder) (x n : Nat) (p : Packer),
    (2 ^ n ≤ x → p.emitBits v o x n = .error (.defect .emitOverflow)) ∧
    (x < 2 ^ n → ∃ q, p.emitBits v o x n = .ok q)

/-- R128, R133, R273. `refill`: the end of the input and the pad symbol come first, then an invalid symbol; a symbol of
the alphabet is loaded with BPC bits left. It runs only where a bit is needed. -/
def Obligations.RefillChecksInOrder : Prop :=
  ∀ (v : Variant) (n : Nat) (inp : Nat → CodeUnit) (u : Unpacker),
    (n ≤ u.idx → u.refill v n inp = malformed .exhausted) ∧
    (u.idx < n → isPad v (inp u.idx) = true → u.refill v n inp = malformed .exhausted) ∧
    (u.idx < n → isPad v (inp u.idx) = false → dec v (inp u.idx) = none → u.refill v n inp = malformed .badSymbol) ∧
    (0 < u.rem → u.readBit v n inp = .ok (u.reg.testBit (u.rem - 1), { u with rem := u.rem - 1 })) ∧
    ∀ x, u.idx < n → isPad v (inp u.idx) = false → dec v (inp u.idx) = some x →
      u.refill v n inp = .ok { reg := x, rem := bpc v, idx := u.idx + 1 } ∧
      (u.rem = 0 → u.readBit v n inp = .ok (x.testBit (bpc v - 1), { reg := x, rem := bpc v - 1, idx := u.idx + 1 }))

/-- R134. `drainCheck` passes exactly where every unit not consumed is the pad or a symbol of the alphabet, and raises
BAD_SYMBOL elsewhere; in RAW it always passes. -/
def Obligations.DrainAcceptsAlphabetAndPad : Prop :=
  ∀ (v : Variant) (inp : Nat → CodeUnit) (i k : Nat),
    (drainCheck v inp i k = .ok () ↔ ∀ j, i ≤ j → j < i + k → isPad v (inp j) = true ∨ dec v (inp j) ≠ none) ∧
    (drainCheck v inp i k = .ok () ∨ drainCheck v inp i k = malformed .badSymbol) ∧
    (v = .raw → drainCheck v inp i k = .ok ())

/-! ### The counters -/

/-- R187. `grow()` counts down, and at the end of the countdown widens the code by one and sets the countdown to 2 to the
width before; the example of the rule. -/
def Obligations.GrowWidensTheCode : Prop :=
  (∀ c : Counters, c.enlargeIn = 1 →
    c.grow = { dictSize := c.dictSize, numBits := c.numBits + 1, enlargeIn := 2 ^ c.numBits }) ∧
  (∀ c : Counters, 2 ≤ c.enlargeIn → c.grow = { c with enlargeIn := c.enlargeIn - 1 }) ∧
  ∀ d, Counters.grow { dictSize := d, numBits := 3, enlargeIn := 1 } = { dictSize := d, numBits := 4, enlargeIn := 8 }

/-- R226. The decoder's counters start with dictSize + enlargeIn = 2^numBits and 1 ≤ enlargeIn ≤ 2^(numBits-1), each new
entry with its growth step keeps both, they hold between the codes of a running command, and then every legal code fits the
field the decoder reads. -/
def Obligations.GrowKeepsTheDecoderInvariant : Prop :=
  let Law : Counters → Prop := fun c =>
    c.dictSize + c.enlargeIn = 2 ^ c.numBits ∧ 1 ≤ c.enlargeIn ∧ c.enlargeIn ≤ 2 ^ (c.numBits - 1)
  Law { dictSize := 4, numBits := 3, enlargeIn := 4 } ∧
  (∀ c : Counters, 1 ≤ c.dictSize → Law c → Law (Counters.grow { c with dictSize := c.dictSize + 1 })) ∧
  (∀ s : State, Inv s → s.phase = .decLoop → Law s.ctr ∧ s.ctr.dictSize = s.dDict.length) ∧
  ∀ (c : Counters) (k : Nat), Law c → k ≤ c.dictSize → k < 2 ^ c.numBits

/-- R197, its bound: while the encoder scans, `numBits` is at most floor(log2(dictSize)) + 1, and at most NB_MAX =
floor(log2(DICT_CAP)) + 1 under a finite DICT_CAP. -/
def Obligations.CodeWidthIsBoundedByDictSize : Prop :=
  ∀ s : State, Inv s → s.phase = .encScan ∨ s.phase = .encFinal →
    s.ctr.numBits ≤ Nat.log2 s.ctr.dictSize + 1 ∧
    ∀ k, s.cfg.dictCap = some k → s.ctr.numBits ≤ Nat.log2 k + 1

/-- R199, its bound: an input of N units makes at most 2 N - 1 entries, so that a compress command with DICT_CAP at least
2 N + 2 never ends with CAP_DICT. -/
def Obligations.DictionaryNeverOutgrowsTwiceTheInput : Prop :=
  ∀ (s : State) (i : Instr) (k : Nat), Ready s → i.dir = .compress → s.cfg.dictCap = some k →
    2 * s.inLen.toNat + 2 ≤ k →
    ∃ t, exec i s = .next t ∧ t.status.done = true ∧ t.status.cause ≠ .capDict

/-! ### The engines, step by step -/

/-- R182 to R190, R198, R200. One unit of the scan, where the dictionary has room for two entries: a new unit is registered
first and marked pending. Where `w + c` is known, `w` grows, no bit is written and no other counter changes. Else `w` is
emitted: a pending `w` as the literal of its unit, with two growth steps, and it is pending no more; any other `w` as a
reference to its code, the place of its registration, with one. Then `w + c` gets the next code, and `w` becomes the unit. -/
def Obligations.EncoderScanStep : Prop :=
  ∀ s : State, Inv s → s.phase = .encScan → s.inIdx < inputLength s →
    exceeds s.cfg.dictCap (s.ctr.dictSize + 2) = false →
    let c := inUnit s s.inIdx
    let keys := if [c] ∈ encoderKeys s then encoderKeys s else encoderKeys s ++ [[c]]
    ∃ t, engineStep s = .next t ∧ t.phase = .encScan ∧ t.inIdx = s.inIdx + 1 ∧ t.c = c ∧ t.outMem = s.outMem ∧
      HostPartKept s t ∧ t.eDict = (encoderKeys t).zipIdx 3 ∧
      (s.w ++ [c] ∈ keys → t.w = s.w ++ [c] ∧ encoderKeys t = keys ∧ t.packer = s.packer ∧
        t.ctr = { s.ctr with dictSize := keys.length + 3 } ∧
        ∀ x, x ∈ t.ePend ↔ x ∈ s.ePend ∨ (x = [c] ∧ [c] ∉ encoderKeys s)) ∧
      (s.w ++ [c] ∉ keys → t.w = [c] ∧ encoderKeys t = keys ++ [s.w ++ [c]] ∧
        (∀ x, x ∈ t.ePend ↔ (x ∈ s.ePend ∨ (x = [c] ∧ [c] ∉ encoderKeys s)) ∧ x ≠ s.w) ∧
        (s.w ∈ s.ePend → ∃ u, s.w = [u] ∧
          t.packer = ((literalItem s.ctr.numBits u).bits s.cfg.bitOrder).foldl (Packer.emitBit s.curVar) s.packer ∧
          t.ctr = { s.ctr.grow.grow with dictSize := keys.length + 4 }) ∧
        (s.w ∉ s.ePend →
          t.packer = (StreamItem.bits s.cfg.bitOrder (.ref (codeOf (encoderKeys s) s.w) s.ctr.numBits)).foldl
            (Packer.emitBit s.curVar) s.packer ∧
          t.ctr = { s.ctr.grow with dictSize := keys.length + 4 }))

/-- R214 to R223, R229. One code of the loop, once it has been read, and where OUT and the dictionary have room. Code 2 ends
the codes, and nothing changes but PHASE, `cd` and the unpacker. Code 0 or 1 takes its literal as a new entry and goes on as
the code of that entry. A code from 3 to `dictSize` is an entry, or the one about to be made. Either outputs its entry,
appends `w` and the entry's first unit to the dictionary, grows the counters once for each new entry, makes the entry the
window, and changes nothing else. A code above `dictSize` ends the command with BAD_INDEX. -/
def Obligations.DecoderLoopStep : Prop :=
  ∀ (s r : State) (cd : Nat), Inv s → s.phase = .decLoop → s.tainted = false →
    readBits s.ctr.numBits s = .ok (cd, r) →
    (cd = 2 → engineStep s = .next { s with phase := .decDrain, cd := 2, unpacker := r.unpacker }) ∧
    (cd < 2 → ∀ (x : Nat) (q : State), readBits (if cd = 0 then 8 else 16) r = .ok (x, q) →
      exceeds s.cfg.outCap (s.outIdx + 1) = false → exceeds s.cfg.dictCap (s.ctr.dictSize + 2) = false →
      let u : CodeUnit := BitVec.ofNat 16 x
      let once := Counters.grow { s.ctr with dictSize := s.ctr.dictSize + 1 }
      engineStep s = .next { s with
        cd := s.ctr.dictSize, entry := [u], w := [u], dDict := s.dDict ++ [[u], s.w ++ [u]],
        ctr := Counters.grow { once with dictSize := once.dictSize + 1 },
        outMem := Memory.write s.outMem s.outIdx u, outIdx := s.outIdx + 1, unpacker := q.unpacker }) ∧
    (s.ctr.dictSize < cd → ∃ t, engineStep s = .next t ∧ t.busy = false ∧ t.status.result = .malformed ∧
      t.status.cause = .badIndex ∧ t.outLen = 0 ∧ t.outMem = s.outMem ∧ HostPartKept s t) ∧
    (3 ≤ cd → cd ≤ s.ctr.dictSize →
      let x := if cd < s.ctr.dictSize then s.dDict.getD cd [] else s.w ++ s.w.take 1
      exceeds s.cfg.outCap (s.outIdx + x.length) = false → exceeds s.cfg.dictCap (s.ctr.dictSize + 1) = false →
      engineStep s = .next { s with
        cd := cd, entry := x, w := x, dDict := s.dDict ++ [s.w ++ x.take 1],
        ctr := Counters.grow { s.ctr with dictSize := s.ctr.dictSize + 1 },
        outMem := Memory.writeSeq s.outMem s.outIdx x, outIdx := s.outIdx + x.length, unpacker := r.unpacker })

/-- R264, R212. Where the first symbol's two leading bits are 2 or 3, a decompress command ends with MALFORMED and
BAD_FIRST_CODE. -/
def Obligations.FirstCodeMustBeLiteral : Prop :=
  ∀ (s : State) (v : Variant) (x : Nat), Ready s → s.cfg.bitOrder = .msbFirst → s.inPresent = true → s.inLen ≠ 0 →
    exceeds s.cfg.inCap s.inLen.toNat = false → dec v (inUnit s 0) = some x → 2 ^ (bpc v - 1) ≤ x →
    ∃ t, exec (Instr.of .decompress v) s = .next t ∧ CompletedWith t (.malformed .badFirstCode) []

/-- R266, R267, R273. A first unit that is the pad ends a decompress command with EXHAUSTED, and any other unit outside
the alphabet ends it with BAD_SYMBOL, before any code is formed. -/
def Obligations.FirstSymbolDecidesBeforeItsCode : Prop :=
  ∀ (s : State) (v : Variant), Ready s → s.inPresent = true → s.inLen ≠ 0 →
    exceeds s.cfg.inCap s.inLen.toNat = false → dec v (inUnit s 0) = none →
    ∃ t, exec (Instr.of .decompress v) s = .next t ∧
      CompletedWith t (if isPad v (inUnit s 0) then .malformed .exhausted else .malformed .badSymbol) []

/-- R245, R267. RAW has no invalid unit: `DECOMPRESS.RAW` never ends with BAD_SYMBOL. -/
def Obligations.RawInputHasNoBadSymbol : Prop :=
  ∀ s : State, Ready s →
    ∃ t, exec .decompressRaw s = .next t ∧ t.status.done = true ∧ t.status.cause ≠ .badSymbol

/-- R164, R134, R161. Symbols after the end of the stream do not matter: appending pad symbols or symbols of the alphabet
to an input that decodes with OK changes nothing in the result. -/
def Obligations.UnreadSymbolsDoNotMatter : Prop :=
  ∀ (r s : State) (v : Variant) (extra : List CodeUnit), Ready r → Ready s → r.cfg.isReference = true →
    s.cfg.isReference = true → r.inPresent = true → s.inPresent = true → r.inLen ≠ 0 →
    inputSequence s = inputSequence r ++ extra → (∀ u ∈ extra, isPad v u = true ∨ dec v u ≠ none) →
    ∃ t e out, exec (Instr.of .decompress v) r = .next t ∧ CompletedWith t e out ∧
      (e = .ok → ∃ u, exec (Instr.of .decompress v) s = .next u ∧ CompletedWith u .ok out)

/-- R11, R268. Finite capacities only cut a command off: it ends with CAPACITY, or exactly as it does with unbounded ones. -/
def Obligations.FiniteCapacitiesOnlyCutOff : Prop :=
  ∀ (s : State) (i : Instr), Ready s →
    ∃ t u e out, exec i s = .next t ∧
      exec i { s with cfg := { s.cfg with inCap := none, outCap := none, dictCap := none } } = .next u ∧
      CompletedWith u e out ∧ (t.status.result = .capacity ∨ CompletedWith t e out)
end

