-- ==== Sys2Proof/Laws/Frame.lean ====
section
/-! SUPPORT. What the engine's work leaves unchanged. The engine reads the host's registers, buffer and program and
writes none of them (R25, R45, R68); until it completes it writes no STATUS field and no OUT_LEN (R44). -/

namespace Sys2Proof.Machine

/-- A computation followed by another answers only through both. -/
theorem bind_eq_ok {ε α β : Type} {x : Except ε α} {f : α → Except ε β} {b : β} :
    (x >>= f) = .ok b ↔ ∃ a, x = .ok a ∧ f a = .ok b := by
  cases x <;> simp [bind, Except.bind]

theorem bind_eq_error {ε α β : Type} {x : Except ε α} {f : α → Except ε β} {e : ε} :
    (x >>= f) = .error e ↔ x = .error e ∨ ∃ a, x = .ok a ∧ f a = .error e := by
  cases x <;> simp [bind, Except.bind]

@[simp] theorem bind_ok {ε α β : Type} (a : α) (f : α → Except ε β) : ((Except.ok a : Except ε α) >>= f) = f a := rfl

@[simp] theorem bind_error {ε α β : Type} (e : ε) (f : α → Except ε β) :
    ((Except.error e : Except ε α) >>= f) = .error e := rfl

/-- The state with the engine's working registers and OUT blanked: what no engine step changes before completion. -/
def State.outside (s : State) : State :=
  { s with
    outMem := [], phase := .idle, eDict := [], ePend := [], w := [], c := 0, inIdx := 0,
    ctr := { dictSize := 0, numBits := 0, enlargeIn := 0 }, packer := Packer.start, dDict := [], cd := 0,
    entry := [], outIdx := 0, unpacker := Unpacker.start }

/-- The host's part of the state: what no engine step changes at all. STATUS, OUT_LEN, CUR_OP, the latched operands and
the model's counters are blanked too. -/
def State.hostPart (s : State) : State :=
  { s.outside with
    status := Status.reset, outLen := 0, curDir := .compress, curVar := .raw, latPresent := false, latLen := 0,
    tainted := false, free := 0 }

theorem hostPart_of_outside {s t : State} (h : t.outside = s.outside) : t.hostPart = s.hostPart := by
  simp only [State.hostPart, h]

section
variable {s t : State} (h : t.outside = s.outside)
include h
theorem outside_cfg : t.cfg = s.cfg :=
  show t.outside.cfg = s.outside.cfg from congrArg State.cfg h
theorem outside_status : t.status = s.status :=
  show t.outside.status = s.outside.status from congrArg State.status h
theorem outside_outLen : t.outLen = s.outLen :=
  show t.outside.outLen = s.outside.outLen from congrArg State.outLen h
theorem outside_inMem : t.inMem = s.inMem :=
  show t.outside.inMem = s.outside.inMem from congrArg State.inMem h
theorem outside_curDir : t.curDir = s.curDir :=
  show t.outside.curDir = s.outside.curDir from congrArg State.curDir h
theorem outside_latPresent : t.latPresent = s.latPresent :=
  show t.outside.latPresent = s.outside.latPresent from congrArg State.latPresent h
theorem outside_curVar : t.curVar = s.curVar :=
  show t.outside.curVar = s.outside.curVar from congrArg State.curVar h
theorem outside_latLen : t.latLen = s.latLen :=
  show t.outside.latLen = s.outside.latLen from congrArg State.latLen h
theorem outside_tainted : t.tainted = s.tainted :=
  show t.outside.tainted = s.outside.tainted from congrArg State.tainted h
theorem outside_epoch : t.epoch = s.epoch :=
  show t.outside.epoch = s.outside.epoch from congrArg State.epoch h
theorem outside_free : t.free = s.free :=
  show t.outside.free = s.outside.free from congrArg State.free h
theorem outside_inUnit : inUnit t = inUnit s := by
  funext i; simp only [inUnit, outside_inMem h, outside_epoch h]
theorem outside_inputLength : inputLength t = inputLength s := by
  simp only [inputLength, outside_latLen h]
end

theorem register_outside {x : List CodeUnit} {s t : State} (h : register x s = .ok t) :
    t.outside = s.outside ∧ t.outMem = s.outMem ∧ t.phase = s.phase := by
  unfold register at h; split at h
  · cases h
  · cases h; exact ⟨rfl, rfl, rfl⟩

theorem emitBits_outside {x n : Nat} {s t : State} (h : emitBits x n s = .ok t) :
    t.outside = s.outside ∧ t.outMem = s.outMem ∧ t.phase = s.phase := by
  obtain ⟨p, _, h⟩ := bind_eq_ok.mp h
  cases h; exact ⟨rfl, rfl, rfl⟩

theorem emitLiteral_outside {u : CodeUnit} {s t : State} (h : emitLiteral u s = .ok t) :
    t.outside = s.outside ∧ t.outMem = s.outMem ∧ t.phase = s.phase := by
  unfold emitLiteral at h
  obtain ⟨a, h1, h2⟩ := bind_eq_ok.mp h
  have ha : a.outside = s.outside ∧ a.outMem = s.outMem ∧ a.phase = s.phase := by
    unfold emitLiteralItem at h1
    split at h1 <;>
    · obtain ⟨b, h3, h4⟩ := bind_eq_ok.mp h1
      obtain ⟨r1, o1, p1⟩ := emitBits_outside h3
      obtain ⟨r2, o2, p2⟩ := emitBits_outside h4
      exact ⟨r2.trans r1, o2.trans o1, p2.trans p1⟩
  cases h2
  exact ha

theorem emitW_outside {s t : State} (h : emitW s = .ok t) :
    t.outside = s.outside ∧ t.outMem = s.outMem ∧ t.phase = s.phase := by
  unfold emitW at h
  split at h
  · cases h
  · split at h
    · exact emitLiteral_outside h
    · unfold emitReference at h
      split at h
      · cases h
      · obtain ⟨b, h3, h4⟩ := bind_eq_ok.mp h
        cases h4
        have := emitBits_outside h3
        exact this

theorem registerUnit_outside {u : CodeUnit} {s t : State} (h : registerUnit u s = .ok t) :
    t.outside = s.outside ∧ t.outMem = s.outMem ∧ t.phase = s.phase := by
  unfold registerUnit at h
  split at h
  · cases h; exact ⟨rfl, rfl, rfl⟩
  · obtain ⟨a, h1, h2⟩ := bind_eq_ok.mp h
    cases h2
    have := register_outside h1
    exact this

theorem encStep_outside {s t : State} (h : encStep s = .ok t) :
    t.outside = s.outside ∧ t.outMem = s.outMem ∧ t.phase = s.phase := by
  obtain ⟨a, h1, h2⟩ := bind_eq_ok.mp h
  obtain ⟨r1, o1, p1⟩ := registerUnit_outside h1
  simp only at h2
  split at h2
  · cases h2
    exact ⟨r1, o1, p1⟩
  · obtain ⟨b, h3, h4⟩ := bind_eq_ok.mp h2
    obtain ⟨c, h5, h6⟩ := bind_eq_ok.mp h4
    cases h6
    obtain ⟨r2, o2, p2⟩ := emitW_outside h3
    obtain ⟨r3, o3, p3⟩ := register_outside h5
    exact ⟨r3.trans (r2.trans r1), o3.trans (o2.trans o1), p3.trans (p2.trans p1)⟩

/-- One scan step writes neither the host's part nor OUT (R182). -/
theorem encScan_outside {s t : State} (h : encScan s = .ok t) : t.outside = s.outside ∧ t.outMem = s.outMem := by
  unfold encScan at h
  split at h
  · exact ⟨(encStep_outside h).1, (encStep_outside h).2.1⟩
  · cases h; exact ⟨rfl, rfl⟩

/-- The end of the encoding writes neither the host's part nor OUT (R191 to R193). -/
theorem encFinal_outside {s t : State} (h : encFinal s = .ok t) : t.outside = s.outside ∧ t.outMem = s.outMem := by
  obtain ⟨a, h1, h2⟩ := bind_eq_ok.mp h
  obtain ⟨b, h3, h4⟩ := bind_eq_ok.mp h2
  obtain ⟨r1, o1, _⟩ := emitW_outside h1
  obtain ⟨r2, o2, _⟩ := emitBits_outside h3
  cases h4
  exact ⟨r2.trans r1, o2.trans o1⟩

/-- A read of bits answers exactly as the unpacker does, and changes the unpacker alone (R131). -/
theorem readBits_eq_ok {k x : Nat} {s r : State} : readBits k s = .ok (x, r) ↔
    ∃ u, s.unpacker.readBits s.curVar s.cfg.bitOrder (inputLength s) (inUnit s) k = .ok (x, u) ∧
      r = { s with unpacker := u } := by
  unfold readBits
  rw [bind_eq_ok]
  constructor
  · rintro ⟨⟨y, u⟩, h1, h2⟩; cases h2; exact ⟨u, h1, rfl⟩
  · rintro ⟨u, h1, rfl⟩; exact ⟨_, h1, rfl⟩

/-- A read of bits changes the unpacker alone (R131). -/
theorem readBits_eq {k x : Nat} {s t : State} (h : readBits k s = .ok (x, t)) :
    t = { s with unpacker := t.unpacker } := by
  obtain ⟨u, -, rfl⟩ := readBits_eq_ok.mp h
  rfl

theorem readLiteral_eq {k : Nat} {x : CodeUnit} {s t : State} (h : readLiteral k s = .ok (x, t)) :
    t = { s with unpacker := t.unpacker } := by
  obtain ⟨⟨y, u⟩, h1, h2⟩ := bind_eq_ok.mp h
  cases h2; exact readBits_eq h1

/-- `output` writes its units to OUT from OUT_IDX on, and moves OUT_IDX (R221). -/
theorem output_eq {us : List CodeUnit} {s t : State} (h : output us s = .ok t) :
    t = { s with outMem := Memory.writeSeq s.outMem s.outIdx us, outIdx := s.outIdx + us.length } := by
  induction us generalizing s with
  | nil => cases h; rfl
  | cons u us ih =>
    unfold output at h
    split at h
    · cases h
    · rw [ih h]; simp [Memory.writeSeq, Nat.add_assoc, Nat.add_comm 1]

/-- `output` answers exactly where OUT has room for all its units (R221). -/
theorem output_ok {us : List CodeUnit} {s : State} (h : exceeds s.cfg.outCap (s.outIdx + us.length) = false) :
    output us s = .ok { s with outMem := Memory.writeSeq s.outMem s.outIdx us, outIdx := s.outIdx + us.length } := by
  induction us generalizing s with
  | nil => rfl
  | cons u us ih =>
    have h1 : exceeds s.cfg.outCap (s.outIdx + 1) = false := by
      unfold exceeds at h ⊢
      split at h
      · rfl
      · simp only [List.length_cons, decide_eq_false_iff_not] at h ⊢; omega
    rw [output, h1]
    simp only [Bool.false_eq_true, if_false]
    rw [ih (by simpa [Nat.add_assoc, Nat.add_comm 1] using h)]
    simp [Memory.writeSeq, Nat.add_assoc, Nat.add_comm 1]

/-- `output` raises CAP_OUT where OUT has no room for all its units (R221, R268). -/
theorem output_full {us : List CodeUnit} {s : State} (h : exceeds s.cfg.outCap (s.outIdx + us.length) = true)
    (h0 : exceeds s.cfg.outCap s.outIdx = false) : output us s = capacity .capOut := by
  induction us generalizing s with
  | nil => simp [h0] at h
  | cons u us ih =>
    rw [output]
    split
    · rfl
    · rename_i h1
      exact ih (by simpa [Nat.add_assoc, Nat.add_comm 1] using h) (by simpa using h1)

/-- A literal code, where the dictionary has room for its entry (R216). -/
theorem decLiteral_eq {s : State} {cd x : Nat} {u : Unpacker}
    (hr : readBits (if cd = 0 then 8 else 16) s = .ok (x, { s with unpacker := u }))
    (hd : exceeds s.cfg.dictCap (s.ctr.dictSize + 1) = false) :
    decLiteral cd s = .ok { s with
      unpacker := u, cd := s.ctr.dictSize, dDict := s.dDict ++ [[BitVec.ofNat 16 x]],
      ctr := Counters.grow { s.ctr with dictSize := s.ctr.dictSize + 1 } } := by
  unfold decLiteral readLiteral addEntry
  rw [hr]
  simp only [bind_ok, pure, Except.pure, hd]
  rfl

/-- What follows a code, where OUT and the dictionary have room (R219 to R223). -/
theorem decEntry_eq {s : State} {a : CodeUnit} {x : List CodeUnit} (hres : resolve s = .ok (a :: x))
    (ho : exceeds s.cfg.outCap (s.outIdx + (a :: x).length) = false)
    (hd : exceeds s.cfg.dictCap (s.ctr.dictSize + 1) = false) :
    decEntry s = .ok { s with
      entry := a :: x, w := a :: x, dDict := s.dDict ++ [s.w ++ [a]],
      ctr := Counters.grow { s.ctr with dictSize := s.ctr.dictSize + 1 },
      outMem := Memory.writeSeq s.outMem s.outIdx (a :: x), outIdx := s.outIdx + (a :: x).length } := by
  unfold decEntry
  rw [hres, bind_ok, output_ok (s := { s with entry := a :: x }) ho, bind_ok]
  simp only [addEntry, hd]
  rfl

theorem addEntry_outside {x : List CodeUnit} {s t : State} (h : addEntry x s = .ok t) :
    t.outside = s.outside ∧ t.outMem = s.outMem ∧ t.phase = s.phase := by
  unfold addEntry at h; split at h
  · cases h
  · cases h; exact ⟨rfl, rfl, rfl⟩

theorem decFirst_outside {s t : State} (h : decFirst s = .ok t) :
    t.outside = s.outside ∧ ∃ i us, t.outMem = Memory.writeSeq s.outMem i us := by
  obtain ⟨⟨cd, a⟩, h1, h2⟩ := bind_eq_ok.mp h
  have e1 := readBits_eq h1
  simp only at h2
  split at h2
  · obtain ⟨⟨u, b⟩, h3, h4⟩ := bind_eq_ok.mp h2
    have e2 := readLiteral_eq h3
    have e3 := output_eq h4
    refine ⟨?_, s.outIdx, [u], ?_⟩
    · rw [e3, e2, e1]; rfl
    · rw [e3, e2, e1]
  · cases h2

theorem decLiteral_outside {cd : Nat} {s t : State} (h : decLiteral cd s = .ok t) :
    t.outside = s.outside ∧ t.outMem = s.outMem ∧ t.phase = s.phase := by
  obtain ⟨⟨u, a⟩, h1, h2⟩ := bind_eq_ok.mp h
  obtain ⟨b, h3, h4⟩ := bind_eq_ok.mp h2
  have e1 := readLiteral_eq h1
  obtain ⟨o, m, p⟩ := addEntry_outside h3
  cases h4
  refine ⟨?_, ?_, ?_⟩
  · exact (show _ = b.outside from rfl).trans (o.trans (by rw [e1]; rfl))
  · exact m.trans (by rw [e1])
  · exact p.trans (by rw [e1])

theorem decEntry_outside {s t : State} (h : decEntry s = .ok t) :
    t.outside = s.outside ∧ (∃ i us, t.outMem = Memory.writeSeq s.outMem i us) ∧ t.phase = s.phase := by
  obtain ⟨x, _, h2⟩ := bind_eq_ok.mp h
  obtain ⟨a, h3, h4⟩ := bind_eq_ok.mp h2
  have e1 := output_eq h3
  split at h4
  · cases h4
  · obtain ⟨b, h5, h6⟩ := bind_eq_ok.mp h4
    obtain ⟨o, m, p⟩ := addEntry_outside h5
    cases h6
    refine ⟨?_, ⟨s.outIdx, x, ?_⟩, ?_⟩
    · exact (show _ = b.outside from rfl).trans (o.trans (by rw [e1]; rfl))
    · exact m.trans (by rw [e1])
    · exact p.trans (by rw [e1])

theorem decLoop_outside {s t : State} (h : decLoop s = .ok t) :
    t.outside = s.outside ∧ ∃ i us, t.outMem = Memory.writeSeq s.outMem i us := by
  obtain ⟨⟨cd, a⟩, h1, h2⟩ := bind_eq_ok.mp h
  have e1 := readBits_eq h1
  simp only at h2
  split at h2
  · cases h2; refine ⟨by rw [e1]; rfl, 0, [], by rw [e1]; rfl⟩
  · split at h2
    · obtain ⟨b, h3, h4⟩ := bind_eq_ok.mp h2
      obtain ⟨o1, m1, _⟩ := decLiteral_outside h3
      obtain ⟨o2, ⟨i, us, m2⟩, _⟩ := decEntry_outside h4
      exact ⟨o2.trans (o1.trans (by rw [e1]; rfl)), i, us, by rw [m2, m1, e1]⟩
    · obtain ⟨o2, ⟨i, us, m2⟩, _⟩ := decEntry_outside h2
      exact ⟨o2.trans (by rw [e1]; rfl), i, us, by rw [m2, e1]⟩

end Sys2Proof.Machine
end

