-- ==== Sys2Proof/Laws/Memory.lean ====
section
/-! SUPPORT. The buffers: reading after writing, and the canonical form. -/

namespace Sys2Proof.Machine

theorem Memory.read_write (m : Memory) (i j : Nat) (u : CodeUnit) (h : m.wf) :
    (m.write i u).read j = if j = i then some u else m.read j := by
  induction m with
  | nil => simp [Memory.write, Memory.read]
  | cons e m ih =>
    obtain ⟨k, v⟩ := e
    have h' : Memory.wf m := (List.pairwise_cons.mp h).2
    rw [Memory.write]
    split
    · simp [Memory.read]
    · split
      · subst_vars; simp only [Memory.read]; split <;> rfl
      · simp only [Memory.read]
        rw [ih h']
        split
        · subst_vars; rw [if_neg (by omega)]
        · rfl

theorem Memory.write_keys (m : Memory) (i : Nat) (u : CodeUnit) (k : Nat) :
    k ∈ (m.write i u).map Prod.fst ↔ k = i ∨ k ∈ m.map Prod.fst := by
  induction m with
  | nil => simp [Memory.write]
  | cons e m ih =>
    obtain ⟨j, v⟩ := e
    rw [Memory.write]
    split
    · simp
    · split
      · subst_vars; simp
      · simp only [List.map_cons, List.mem_cons, ih]; tauto

/-- Writing a unit keeps the canonical form. -/
theorem Memory.write_wf (m : Memory) (i : Nat) (u : CodeUnit) (h : m.wf) : (m.write i u).wf := by
  induction m with
  | nil => simp [Memory.wf, Memory.write]
  | cons e m ih =>
    obtain ⟨j, v⟩ := e
    simp only [Memory.wf, List.map_cons, List.pairwise_cons] at h
    rw [Memory.write]
    split
    · rename_i hij
      simp only [Memory.wf, List.map_cons, List.pairwise_cons, List.mem_cons]
      refine ⟨?_, h⟩
      rintro k (rfl | hk)
      · exact hij
      · exact hij.trans (h.1 k hk)
    · split
      · subst_vars; simpa [Memory.wf] using h
      · simp only [Memory.wf, List.map_cons, List.pairwise_cons]
        refine ⟨fun k hk => ?_, ih h.2⟩
        rcases (Memory.write_keys m i u k).mp hk with rfl | hk
        · omega
        · exact h.1 k hk

/-- Writing a sequence of units keeps the canonical form. -/
theorem Memory.writeSeq_wf (us : List CodeUnit) (m : Memory) (i : Nat) (h : m.wf) : (m.writeSeq i us).wf := by
  induction us generalizing m i with
  | nil => exact h
  | cons u us ih => exact ih _ _ (m.write_wf i u h)

theorem Memory.writeSeq_append (us vs : List CodeUnit) (m : Memory) (i : Nat) :
    m.writeSeq i (us ++ vs) = (m.writeSeq i us).writeSeq (i + us.length) vs := by
  induction us generalizing m i with
  | nil => simp [Memory.writeSeq]
  | cons u us ih => simp [Memory.writeSeq, ih, Nat.add_assoc, Nat.add_comm 1]

/-- After writing a sequence at `i`, an index within it reads its unit, and any other index reads as before. -/
theorem Memory.read_writeSeq (us : List CodeUnit) (m : Memory) (i j : Nat) (h : m.wf) :
    (m.writeSeq i us).read j = if i ≤ j ∧ j < i + us.length then us[j - i]? else m.read j := by
  induction us generalizing m i with
  | nil => rw [Memory.writeSeq, if_neg (by simp)]
  | cons u us ih =>
    rw [Memory.writeSeq, ih _ _ (m.write_wf i u h), m.read_write i j u h, List.length_cons]
    by_cases h1 : i + 1 ≤ j ∧ j < i + 1 + us.length
    · rw [if_pos h1, if_pos (by omega), show j - i = (j - (i + 1)) + 1 by omega, List.getElem?_cons_succ]
    · rw [if_neg h1]
      by_cases h2 : j = i
      · subst h2; simp
      · rw [if_neg h2, if_neg (by omega)]

/-- The host reads from OUT what was written there (R72). -/
theorem outputUnits_writeSeq (s : State) (us : List CodeUnit) (h : s.outMem.wf) :
    outputUnits { s with outMem := s.outMem.writeSeq 0 us } us.length = us := by
  apply List.ext_getElem
  · simp [outputUnits]
  · intro i h1 h2
    simp [outputUnits, outUnit, Memory.read_writeSeq _ _ _ _ h, h2]

@[simp] theorem inputUnits_length (s : State) (n : Nat) : (inputUnits s n).length = n := by simp [inputUnits]

@[simp] theorem outputUnits_length (s : State) (n : Nat) : (outputUnits s n).length = n := by simp [outputUnits]

end Sys2Proof.Machine
end

