-- ==== Sys2Proof/Laws/State.lean ====
section
/-! SUPPORT. One lemma per field for each update of the state that later proofs meet: completion, rejection, a host read,
the two engine starts, hardware reset, and the placing of a command. -/

namespace Sys2Proof.Machine

section Finish
variable (e : Ending) (m : Nat) (s : State)
@[simp] theorem finish_cfg : (finish e m s).cfg = s.cfg := rfl
@[simp] theorem finish_status : (finish e m s).status = completedStatus e s.status := rfl
@[simp] theorem finish_inLen : (finish e m s).inLen = s.inLen := rfl
@[simp] theorem finish_inPresent : (finish e m s).inPresent = s.inPresent := rfl
@[simp] theorem finish_outLen : (finish e m s).outLen = if e = .ok then outLenWord s.free m else 0 := rfl
@[simp] theorem finish_inMem : (finish e m s).inMem = s.inMem := rfl
@[simp] theorem finish_outMem : (finish e m s).outMem = s.outMem := rfl
@[simp] theorem finish_curDir : (finish e m s).curDir = s.curDir := rfl
@[simp] theorem finish_curVar : (finish e m s).curVar = s.curVar := rfl
@[simp] theorem finish_latPresent : (finish e m s).latPresent = s.latPresent := rfl
@[simp] theorem finish_latLen : (finish e m s).latLen = s.latLen := rfl
@[simp] theorem finish_phase : (finish e m s).phase = .idle := rfl
@[simp] theorem finish_eDict : (finish e m s).eDict = s.eDict := rfl
@[simp] theorem finish_ePend : (finish e m s).ePend = s.ePend := rfl
@[simp] theorem finish_w : (finish e m s).w = s.w := rfl
@[simp] theorem finish_c : (finish e m s).c = s.c := rfl
@[simp] theorem finish_inIdx : (finish e m s).inIdx = s.inIdx := rfl
@[simp] theorem finish_ctr : (finish e m s).ctr = s.ctr := rfl
@[simp] theorem finish_packer : (finish e m s).packer = s.packer := rfl
@[simp] theorem finish_dDict : (finish e m s).dDict = s.dDict := rfl
@[simp] theorem finish_cd : (finish e m s).cd = s.cd := rfl
@[simp] theorem finish_entry : (finish e m s).entry = s.entry := rfl
@[simp] theorem finish_outIdx : (finish e m s).outIdx = s.outIdx := rfl
@[simp] theorem finish_unpacker : (finish e m s).unpacker = s.unpacker := rfl
@[simp] theorem finish_host : (finish e m s).host = s.host := rfl
@[simp] theorem finish_pace : (finish e m s).pace = s.pace := rfl
@[simp] theorem finish_reads : (finish e m s).reads = s.reads := rfl
@[simp] theorem finish_tainted : (finish e m s).tainted = false := rfl
@[simp] theorem finish_epoch : (finish e m s).epoch = s.epoch := rfl
@[simp] theorem finish_free : (finish e m s).free = s.free + 1 := rfl
end Finish

section Reject
variable (s : State)
@[simp] theorem reject_cfg : (reject s).cfg = s.cfg := rfl
@[simp] theorem reject_status : (reject s).status = rejectedStatus s.status := rfl
@[simp] theorem reject_inLen : (reject s).inLen = s.inLen := rfl
@[simp] theorem reject_inPresent : (reject s).inPresent = s.inPresent := rfl
@[simp] theorem reject_outLen : (reject s).outLen = s.outLen := rfl
@[simp] theorem reject_inMem : (reject s).inMem = s.inMem := rfl
@[simp] theorem reject_outMem : (reject s).outMem = s.outMem := rfl
@[simp] theorem reject_curDir : (reject s).curDir = s.curDir := rfl
@[simp] theorem reject_curVar : (reject s).curVar = s.curVar := rfl
@[simp] theorem reject_latPresent : (reject s).latPresent = s.latPresent := rfl
@[simp] theorem reject_latLen : (reject s).latLen = s.latLen := rfl
@[simp] theorem reject_phase : (reject s).phase = s.phase := rfl
@[simp] theorem reject_eDict : (reject s).eDict = s.eDict := rfl
@[simp] theorem reject_ePend : (reject s).ePend = s.ePend := rfl
@[simp] theorem reject_w : (reject s).w = s.w := rfl
@[simp] theorem reject_c : (reject s).c = s.c := rfl
@[simp] theorem reject_inIdx : (reject s).inIdx = s.inIdx := rfl
@[simp] theorem reject_ctr : (reject s).ctr = s.ctr := rfl
@[simp] theorem reject_packer : (reject s).packer = s.packer := rfl
@[simp] theorem reject_dDict : (reject s).dDict = s.dDict := rfl
@[simp] theorem reject_cd : (reject s).cd = s.cd := rfl
@[simp] theorem reject_entry : (reject s).entry = s.entry := rfl
@[simp] theorem reject_outIdx : (reject s).outIdx = s.outIdx := rfl
@[simp] theorem reject_unpacker : (reject s).unpacker = s.unpacker := rfl
@[simp] theorem reject_host : (reject s).host = s.host := rfl
@[simp] theorem reject_pace : (reject s).pace = s.pace := rfl
@[simp] theorem reject_reads : (reject s).reads = s.reads := rfl
@[simp] theorem reject_tainted : (reject s).tainted = s.tainted := rfl
@[simp] theorem reject_epoch : (reject s).epoch = s.epoch := rfl
@[simp] theorem reject_free : (reject s).free = s.free := rfl
end Reject

section PushRead
variable (r : ReadValue) (s : State)
@[simp] theorem pushRead_cfg : (pushRead r s).cfg = s.cfg := rfl
@[simp] theorem pushRead_status : (pushRead r s).status = s.status := rfl
@[simp] theorem pushRead_inLen : (pushRead r s).inLen = s.inLen := rfl
@[simp] theorem pushRead_inPresent : (pushRead r s).inPresent = s.inPresent := rfl
@[simp] theorem pushRead_outLen : (pushRead r s).outLen = s.outLen := rfl
@[simp] theorem pushRead_inMem : (pushRead r s).inMem = s.inMem := rfl
@[simp] theorem pushRead_outMem : (pushRead r s).outMem = s.outMem := rfl
@[simp] theorem pushRead_curDir : (pushRead r s).curDir = s.curDir := rfl
@[simp] theorem pushRead_curVar : (pushRead r s).curVar = s.curVar := rfl
@[simp] theorem pushRead_latPresent : (pushRead r s).latPresent = s.latPresent := rfl
@[simp] theorem pushRead_latLen : (pushRead r s).latLen = s.latLen := rfl
@[simp] theorem pushRead_phase : (pushRead r s).phase = s.phase := rfl
@[simp] theorem pushRead_eDict : (pushRead r s).eDict = s.eDict := rfl
@[simp] theorem pushRead_ePend : (pushRead r s).ePend = s.ePend := rfl
@[simp] theorem pushRead_w : (pushRead r s).w = s.w := rfl
@[simp] theorem pushRead_c : (pushRead r s).c = s.c := rfl
@[simp] theorem pushRead_inIdx : (pushRead r s).inIdx = s.inIdx := rfl
@[simp] theorem pushRead_ctr : (pushRead r s).ctr = s.ctr := rfl
@[simp] theorem pushRead_packer : (pushRead r s).packer = s.packer := rfl
@[simp] theorem pushRead_dDict : (pushRead r s).dDict = s.dDict := rfl
@[simp] theorem pushRead_cd : (pushRead r s).cd = s.cd := rfl
@[simp] theorem pushRead_entry : (pushRead r s).entry = s.entry := rfl
@[simp] theorem pushRead_outIdx : (pushRead r s).outIdx = s.outIdx := rfl
@[simp] theorem pushRead_unpacker : (pushRead r s).unpacker = s.unpacker := rfl
@[simp] theorem pushRead_host : (pushRead r s).host = s.host := rfl
@[simp] theorem pushRead_pace : (pushRead r s).pace = s.pace := rfl
@[simp] theorem pushRead_reads : (pushRead r s).reads = s.reads ++ [r] := rfl
@[simp] theorem pushRead_tainted : (pushRead r s).tainted = s.tainted := rfl
@[simp] theorem pushRead_epoch : (pushRead r s).epoch = s.epoch := rfl
@[simp] theorem pushRead_free : (pushRead r s).free = s.free := rfl
end PushRead

section EncStart
variable (s : State)
@[simp] theorem encStart_cfg : (encStart s).cfg = s.cfg := rfl
@[simp] theorem encStart_status : (encStart s).status = s.status := rfl
@[simp] theorem encStart_inLen : (encStart s).inLen = s.inLen := rfl
@[simp] theorem encStart_inPresent : (encStart s).inPresent = s.inPresent := rfl
@[simp] theorem encStart_outLen : (encStart s).outLen = s.outLen := rfl
@[simp] theorem encStart_inMem : (encStart s).inMem = s.inMem := rfl
@[simp] theorem encStart_outMem : (encStart s).outMem = s.outMem := rfl
@[simp] theorem encStart_curDir : (encStart s).curDir = s.curDir := rfl
@[simp] theorem encStart_curVar : (encStart s).curVar = s.curVar := rfl
@[simp] theorem encStart_latPresent : (encStart s).latPresent = s.latPresent := rfl
@[simp] theorem encStart_latLen : (encStart s).latLen = s.latLen := rfl
@[simp] theorem encStart_phase : (encStart s).phase = .encScan := rfl
@[simp] theorem encStart_eDict : (encStart s).eDict = [] := rfl
@[simp] theorem encStart_ePend : (encStart s).ePend = [] := rfl
@[simp] theorem encStart_w : (encStart s).w = [] := rfl
@[simp] theorem encStart_c : (encStart s).c = s.c := rfl
@[simp] theorem encStart_inIdx : (encStart s).inIdx = 0 := rfl
@[simp] theorem encStart_ctr : (encStart s).ctr = { dictSize := 3, numBits := 2, enlargeIn := 2 } := rfl
@[simp] theorem encStart_packer : (encStart s).packer = Packer.start := rfl
@[simp] theorem encStart_dDict : (encStart s).dDict = s.dDict := rfl
@[simp] theorem encStart_cd : (encStart s).cd = s.cd := rfl
@[simp] theorem encStart_entry : (encStart s).entry = s.entry := rfl
@[simp] theorem encStart_outIdx : (encStart s).outIdx = s.outIdx := rfl
@[simp] theorem encStart_unpacker : (encStart s).unpacker = s.unpacker := rfl
@[simp] theorem encStart_host : (encStart s).host = s.host := rfl
@[simp] theorem encStart_pace : (encStart s).pace = s.pace := rfl
@[simp] theorem encStart_reads : (encStart s).reads = s.reads := rfl
@[simp] theorem encStart_tainted : (encStart s).tainted = s.tainted := rfl
@[simp] theorem encStart_epoch : (encStart s).epoch = s.epoch := rfl
@[simp] theorem encStart_free : (encStart s).free = s.free := rfl
end EncStart

section DecStart
variable (s : State)
@[simp] theorem decStart_cfg : (decStart s).cfg = s.cfg := rfl
@[simp] theorem decStart_status : (decStart s).status = s.status := rfl
@[simp] theorem decStart_inLen : (decStart s).inLen = s.inLen := rfl
@[simp] theorem decStart_inPresent : (decStart s).inPresent = s.inPresent := rfl
@[simp] theorem decStart_outLen : (decStart s).outLen = s.outLen := rfl
@[simp] theorem decStart_inMem : (decStart s).inMem = s.inMem := rfl
@[simp] theorem decStart_outMem : (decStart s).outMem = s.outMem := rfl
@[simp] theorem decStart_curDir : (decStart s).curDir = s.curDir := rfl
@[simp] theorem decStart_curVar : (decStart s).curVar = s.curVar := rfl
@[simp] theorem decStart_latPresent : (decStart s).latPresent = s.latPresent := rfl
@[simp] theorem decStart_latLen : (decStart s).latLen = s.latLen := rfl
@[simp] theorem decStart_phase : (decStart s).phase = .decFirst := rfl
@[simp] theorem decStart_eDict : (decStart s).eDict = s.eDict := rfl
@[simp] theorem decStart_ePend : (decStart s).ePend = s.ePend := rfl
@[simp] theorem decStart_w : (decStart s).w = s.w := rfl
@[simp] theorem decStart_c : (decStart s).c = s.c := rfl
@[simp] theorem decStart_inIdx : (decStart s).inIdx = s.inIdx := rfl
@[simp] theorem decStart_ctr : (decStart s).ctr = { dictSize := 4, numBits := 3, enlargeIn := 4 } := rfl
@[simp] theorem decStart_packer : (decStart s).packer = s.packer := rfl
@[simp] theorem decStart_dDict : (decStart s).dDict = [[Config.placeholder 0], [Config.placeholder 1], [Config.placeholder 2]] := rfl
@[simp] theorem decStart_cd : (decStart s).cd = s.cd := rfl
@[simp] theorem decStart_entry : (decStart s).entry = s.entry := rfl
@[simp] theorem decStart_outIdx : (decStart s).outIdx = 0 := rfl
@[simp] theorem decStart_unpacker : (decStart s).unpacker = Unpacker.start := rfl
@[simp] theorem decStart_host : (decStart s).host = s.host := rfl
@[simp] theorem decStart_pace : (decStart s).pace = s.pace := rfl
@[simp] theorem decStart_reads : (decStart s).reads = s.reads := rfl
@[simp] theorem decStart_tainted : (decStart s).tainted = s.tainted := rfl
@[simp] theorem decStart_epoch : (decStart s).epoch = s.epoch := rfl
@[simp] theorem decStart_free : (decStart s).free = s.free := rfl
end DecStart

section HardReset
variable (s : State)
@[simp] theorem hardReset_cfg : (hardReset s).cfg = s.cfg := rfl
@[simp] theorem hardReset_status : (hardReset s).status = State.reset.status := rfl
@[simp] theorem hardReset_inLen : (hardReset s).inLen = State.reset.inLen := rfl
@[simp] theorem hardReset_inPresent : (hardReset s).inPresent = State.reset.inPresent := rfl
@[simp] theorem hardReset_outLen : (hardReset s).outLen = State.reset.outLen := rfl
@[simp] theorem hardReset_inMem : (hardReset s).inMem = State.reset.inMem := rfl
@[simp] theorem hardReset_outMem : (hardReset s).outMem = State.reset.outMem := rfl
@[simp] theorem hardReset_curDir : (hardReset s).curDir = State.reset.curDir := rfl
@[simp] theorem hardReset_curVar : (hardReset s).curVar = State.reset.curVar := rfl
@[simp] theorem hardReset_latPresent : (hardReset s).latPresent = State.reset.latPresent := rfl
@[simp] theorem hardReset_latLen : (hardReset s).latLen = State.reset.latLen := rfl
@[simp] theorem hardReset_phase : (hardReset s).phase = State.reset.phase := rfl
@[simp] theorem hardReset_eDict : (hardReset s).eDict = State.reset.eDict := rfl
@[simp] theorem hardReset_ePend : (hardReset s).ePend = State.reset.ePend := rfl
@[simp] theorem hardReset_w : (hardReset s).w = State.reset.w := rfl
@[simp] theorem hardReset_c : (hardReset s).c = State.reset.c := rfl
@[simp] theorem hardReset_inIdx : (hardReset s).inIdx = State.reset.inIdx := rfl
@[simp] theorem hardReset_ctr : (hardReset s).ctr = State.reset.ctr := rfl
@[simp] theorem hardReset_packer : (hardReset s).packer = State.reset.packer := rfl
@[simp] theorem hardReset_dDict : (hardReset s).dDict = State.reset.dDict := rfl
@[simp] theorem hardReset_cd : (hardReset s).cd = State.reset.cd := rfl
@[simp] theorem hardReset_entry : (hardReset s).entry = State.reset.entry := rfl
@[simp] theorem hardReset_outIdx : (hardReset s).outIdx = State.reset.outIdx := rfl
@[simp] theorem hardReset_unpacker : (hardReset s).unpacker = State.reset.unpacker := rfl
@[simp] theorem hardReset_host : (hardReset s).host = s.host := rfl
@[simp] theorem hardReset_pace : (hardReset s).pace = s.pace := rfl
@[simp] theorem hardReset_reads : (hardReset s).reads = s.reads := rfl
@[simp] theorem hardReset_tainted : (hardReset s).tainted = State.reset.tainted := rfl
@[simp] theorem hardReset_epoch : (hardReset s).epoch = s.epoch + 1 := rfl
@[simp] theorem hardReset_free : (hardReset s).free = s.free := rfl
end HardReset

section PlaceCommand
variable (s : State) (v : Word)
@[simp] theorem placeCommand_cfg : (placeCommand s v).cfg = s.cfg := rfl
@[simp] theorem placeCommand_status : (placeCommand s v).status = s.status := rfl
@[simp] theorem placeCommand_inLen : (placeCommand s v).inLen = s.inLen := rfl
@[simp] theorem placeCommand_inPresent : (placeCommand s v).inPresent = s.inPresent := rfl
@[simp] theorem placeCommand_outLen : (placeCommand s v).outLen = s.outLen := rfl
@[simp] theorem placeCommand_inMem : (placeCommand s v).inMem = s.inMem := rfl
@[simp] theorem placeCommand_outMem : (placeCommand s v).outMem = s.outMem := rfl
@[simp] theorem placeCommand_curDir : (placeCommand s v).curDir = s.curDir := rfl
@[simp] theorem placeCommand_curVar : (placeCommand s v).curVar = s.curVar := rfl
@[simp] theorem placeCommand_latPresent : (placeCommand s v).latPresent = s.latPresent := rfl
@[simp] theorem placeCommand_latLen : (placeCommand s v).latLen = s.latLen := rfl
@[simp] theorem placeCommand_phase : (placeCommand s v).phase = s.phase := rfl
@[simp] theorem placeCommand_eDict : (placeCommand s v).eDict = s.eDict := rfl
@[simp] theorem placeCommand_ePend : (placeCommand s v).ePend = s.ePend := rfl
@[simp] theorem placeCommand_w : (placeCommand s v).w = s.w := rfl
@[simp] theorem placeCommand_c : (placeCommand s v).c = s.c := rfl
@[simp] theorem placeCommand_inIdx : (placeCommand s v).inIdx = s.inIdx := rfl
@[simp] theorem placeCommand_ctr : (placeCommand s v).ctr = s.ctr := rfl
@[simp] theorem placeCommand_packer : (placeCommand s v).packer = s.packer := rfl
@[simp] theorem placeCommand_dDict : (placeCommand s v).dDict = s.dDict := rfl
@[simp] theorem placeCommand_cd : (placeCommand s v).cd = s.cd := rfl
@[simp] theorem placeCommand_entry : (placeCommand s v).entry = s.entry := rfl
@[simp] theorem placeCommand_outIdx : (placeCommand s v).outIdx = s.outIdx := rfl
@[simp] theorem placeCommand_unpacker : (placeCommand s v).unpacker = s.unpacker := rfl
@[simp] theorem placeCommand_host : (placeCommand s v).host = { act := .access (wrReg s.cfg 0 v), pace := s.pace } :: s.host := rfl
@[simp] theorem placeCommand_pace : (placeCommand s v).pace = s.pace := rfl
@[simp] theorem placeCommand_reads : (placeCommand s v).reads = s.reads := rfl
@[simp] theorem placeCommand_tainted : (placeCommand s v).tainted = s.tainted := rfl
@[simp] theorem placeCommand_epoch : (placeCommand s v).epoch = s.epoch := rfl
@[simp] theorem placeCommand_free : (placeCommand s v).free = s.free := rfl
end PlaceCommand

end Sys2Proof.Machine
end

