-- ==== Sys2Proof/Laws/Engine.lean ====
section
/-! SUPPORT. Runs of the engine: where they stop, how they compose, and what completion leaves (R242, R262, R300). -/

namespace Sys2Proof.Machine

@[simp] theorem finish_hostPart (e : Ending) (m : Nat) (s : State) : (finish e m s).hostPart = s.hostPart := rfl

theorem complete_untainted {e : Ending} {m : Nat} {s : State} (h : s.tainted = false) :
    complete e m s = finish e m s := by simp [complete, h]

@[simp] theorem complete_phase (e : Ending) (m : Nat) (s : State) : (complete e m s).phase = .idle := by
  unfold complete finishOpen; split <;> rfl

@[simp] theorem complete_hostPart (e : Ending) (m : Nat) (s : State) : (complete e m s).hostPart = s.hostPart := by
  unfold complete finishOpen; split <;> rfl

theorem busy_eq_false {s : State} : s.busy = false ↔ s.phase = .idle := by simp [State.busy]

theorem busy_eq_true {s : State} : s.busy = true ↔ s.phase ≠ .idle := by simp [State.busy]

/-- An idle engine makes no step (R282). -/
theorem engineRun_idle {s : State} (h : s.phase = .idle) (k : Nat) : engineRun k s = .next s := by
  cases k <;> simp [engineRun, State.busy, h]

theorem engineRun_step {s t : State} (hb : s.phase ≠ .idle) (h : engineStep s = .next t) (k : Nat) :
    engineRun (k + 1) s = engineRun k t := by
  simp [engineRun, State.busy, hb, h]

/-- A run of `m + n` steps is a run of `m` and then one of `n`. -/
theorem engineRun_add {m : Nat} (n : Nat) {s t : State} (h : engineRun m s = .next t) :
    engineRun (m + n) s = engineRun n t := by
  induction m generalizing s with
  | zero => cases h; simp
  | succ m ih =>
    by_cases hb : s.phase = .idle
    · rw [engineRun_idle hb] at h
      cases h
      rw [engineRun_idle hb, engineRun_idle hb]
    · rw [Nat.add_right_comm]
      simp only [engineRun, busy_eq_true.mpr hb, if_true] at h ⊢
      cases hs : engineStep s with
      | next u => rw [hs] at h; exact ih h
      | fault f => rw [hs] at h; cases h
      | refused r => rw [hs] at h; cases h

/-- Once the engine is idle, more steps change nothing. -/
theorem engineRun_more {m : Nat} (n : Nat) {s t : State} (h : engineRun m s = .next t) (ht : t.phase = .idle) :
    engineRun (m + n) s = .next t := by rw [engineRun_add n h, engineRun_idle ht]

/-- The engine changes no part of the host's state (R25, R68). -/
theorem engineStep_hostPart {s t : State} (h : engineStep s = .next t) : t.hostPart = s.hostPart := by
  unfold engineStep at h
  split at h
  · rename_i u hw
    cases h
    unfold engineWork at hw
    split at hw
    · cases hw; rfl
    · exact hostPart_of_outside (encScan_outside hw).1
    · exact hostPart_of_outside (encFinal_outside hw).1
    · simp only [encPost] at hw
      split at hw
      · cases hw
      · cases hw; rw [complete_hostPart]; rfl
    · exact hostPart_of_outside (decFirst_outside hw).1
    · exact hostPart_of_outside (decLoop_outside hw).1
    · obtain ⟨_, _, h2⟩ := bind_eq_ok.mp hw
      cases h2; rw [complete_hostPart]
  · cases h; rw [complete_hostPart]
  · cases h

theorem engineRun_hostPart {k : Nat} {s t : State} (h : engineRun k s = .next t) : t.hostPart = s.hostPart := by
  induction k generalizing s with
  | zero => cases h; rfl
  | succ k ih =>
    simp only [engineRun] at h
    split at h
    · cases hs : engineStep s with
      | next u => rw [hs] at h; exact (ih h).trans (engineStep_hostPart hs)
      | fault f => rw [hs] at h; cases h
      | refused r => rw [hs] at h; cases h
    · cases h; rfl

/-- An engine step runs on, or completes from a state that differs from its own in OUT and the working registers
alone. -/
theorem engineStep_cases {s t : State} (h : engineStep s = .next t) :
    (t.outside = s.outside) ∨ s.phase ≠ .idle ∧
      ∃ e m u, t = complete e m u ∧ u.outside = s.outside ∧ (s.outMem.wf → u.outMem.wf) := by
  unfold engineStep at h
  cases hw : engineWork s with
  | error e =>
    rw [hw] at h
    cases e with
    | defect f => cases h
    | raise e =>
      cases h
      refine .inr ⟨?_, e, 0, s, rfl, rfl, id⟩
      intro hi
      unfold engineWork at hw; rw [hi] at hw; cases hw
  | ok u =>
    rw [hw] at h; cases h
    unfold engineWork at hw
    split at hw
    · cases hw; exact .inl rfl
    · exact .inl (encScan_outside hw).1
    · exact .inl (encFinal_outside hw).1
    · rename_i hp
      simp only [encPost] at hw
      split at hw
      · cases hw
      · cases hw
        exact .inr ⟨by simp [hp], _, _, _, rfl, rfl, fun hm => Memory.writeSeq_wf _ _ _ hm⟩
    · exact .inl (decFirst_outside hw).1
    · exact .inl (decLoop_outside hw).1
    · rename_i hp
      obtain ⟨_, _, h2⟩ := bind_eq_ok.mp hw
      cases h2
      exact .inr ⟨by simp [hp], _, _, s, rfl, rfl, id⟩

/-- The engine never refuses. -/
theorem engineStep_ne_refused (s : State) (r : Refusal) : engineStep s ≠ .refused r := by
  unfold engineStep; split <;> simp

theorem engineRun_ne_refused (k : Nat) (s : State) (r : Refusal) : engineRun k s ≠ .refused r := by
  induction k generalizing s with
  | zero => simp [engineRun]
  | succ k ih =>
    simp only [engineRun]
    split
    · cases hs : engineStep s with
      | next u => exact ih u
      | fault f => simp
      | refused q => exact absurd hs (engineStep_ne_refused s q)
    · simp

/-- What a state looks like when a command that ran from `s` has completed with ending `e` and output `out`, having
written `written` to OUT. -/
structure CompletedFrom (s t : State) (e : Ending) (out written : List CodeUnit) : Prop where
  phase    : t.phase = .idle
  status   : t.status = completedStatus e s.status
  outLen   : t.outLen = if e = .ok then outLenWord s.free out.length else 0
  outMem   : t.outMem = Memory.writeSeq s.outMem 0 written
  value    : e = .ok → written = out
  hostPart : t.hostPart = s.hostPart
  latched  : t.curDir = s.curDir ∧ t.curVar = s.curVar ∧ t.latPresent = s.latPresent ∧ t.latLen = s.latLen
  free     : t.free = s.free + 1
  tainted  : t.tainted = false

theorem CompletedFrom.finish {s u : State} (e : Ending) (out : List CodeUnit) {written : List CodeUnit}
    (ho : u.outside = s.outside) (hm : u.outMem = Memory.writeSeq s.outMem 0 written) (hv : e = .ok → written = out) :
    CompletedFrom s (Machine.finish e out.length u) e out written where
  phase := rfl
  status := by rw [finish_status, outside_status ho]
  outLen := by rw [finish_outLen, outside_free ho]
  outMem := hm
  value := hv
  hostPart := (finish_hostPart _ _ _).trans (hostPart_of_outside ho)
  latched := by
    refine ⟨?_, ?_, ?_, ?_⟩
    · rw [← outside_curDir ho]; rfl
    · rw [← outside_curVar ho]; rfl
    · rw [← outside_latPresent ho]; rfl
    · rw [← outside_latLen ho]; rfl
  free := by rw [← outside_free ho]; rfl
  tainted := rfl

end Sys2Proof.Machine
end

