-- ==== Sys2Proof/Laws/HostSide.lean ====
section
/-! SUPPORT. The engine does not look at the host's side of the state: running it and then changing IN_LEN, IN_CTRL,
the host's program, its pace, its reads or REJECTED gives what changing them first and then running it gives (R25, R45,
R253, R295, R299). -/

namespace Sys2Proof.Machine

/-- The host's side of the state: what the engine neither reads nor writes once a command has been accepted. -/
structure HostSide where
  inLen     : Word
  inPresent : Bool
  host      : List HostEvent
  pace      : Pace
  reads     : List ReadValue
  rejected  : Bool

/-- The state with another host's side. -/
def HostSide.on (h : HostSide) (s : State) : State :=
  { s with
    inLen := h.inLen, inPresent := h.inPresent, host := h.host, pace := h.pace, reads := h.reads,
    status := { s.status with rejected := h.rejected } }

variable (h : HostSide)

theorem HostSide.inUnit_on (s : State) : inUnit (h.on s) = inUnit s := rfl

theorem map_bind_comm {α β γ δ : Type} {f : α → Except Stop β} {g : α → β → Except Stop γ} (x : α) (k : γ → δ) :
    (f x >>= g x).map k = f x >>= fun b => (g x b).map k := by
  cases f x <;> rfl

theorem bind_map {α β γ : Type} (x : Except Stop α) (k : α → β) (f : β → Except Stop γ) :
    (x.map k >>= f) = x >>= fun a => f (k a) := by cases x <;> rfl

theorem register_on (x : List CodeUnit) (s : State) : register x (h.on s) = (register x s).map h.on := by
  unfold register
  rw [show (h.on s).cfg = s.cfg from rfl, show (h.on s).ctr = s.ctr from rfl]
  split <;> rfl

theorem emitBits_on (x n : Nat) (s : State) : emitBits x n (h.on s) = (emitBits x n s).map h.on := by
  unfold emitBits
  rw [show (h.on s).packer = s.packer from rfl, show (h.on s).curVar = s.curVar from rfl,
    show (h.on s).cfg = s.cfg from rfl]
  cases Packer.emitBits s.curVar s.cfg.bitOrder x n s.packer <;> rfl

theorem emitLiteralItem_on (u : CodeUnit) (n : Nat) (s : State) :
    emitLiteralItem u n (h.on s) = (emitLiteralItem u n s).map h.on := by
  unfold emitLiteralItem
  split
  · rw [emitBits_on]
    cases emitBits 0 n s with
    | error e => rfl
    | ok t => exact emitBits_on h _ _ t
  · rw [emitBits_on]
    cases emitBits 1 n s with
    | error e => rfl
    | ok t => exact emitBits_on h _ _ t

theorem emitLiteral_on (u : CodeUnit) (s : State) : emitLiteral u (h.on s) = (emitLiteral u s).map h.on := by
  unfold emitLiteral
  rw [show (h.on s).ctr = s.ctr from rfl, emitLiteralItem_on]
  cases emitLiteralItem u s.ctr.numBits s <;> rfl

theorem emitReference_on (s : State) : emitReference (h.on s) = (emitReference s).map h.on := by
  unfold emitReference
  rw [show (h.on s).eDict = s.eDict from rfl, show (h.on s).w = s.w from rfl, show (h.on s).ctr = s.ctr from rfl]
  cases eLookup s.eDict s.w with
  | none => rfl
  | some k =>
    simp only
    rw [emitBits_on]
    cases emitBits k s.ctr.numBits s <;> rfl

theorem emitW_on (s : State) : emitW (h.on s) = (emitW s).map h.on := by
  unfold emitW
  rw [show (h.on s).w = s.w from rfl, show (h.on s).ePend = s.ePend from rfl]
  split
  · rfl
  · split
    · exact emitLiteral_on h _ s
    · exact emitReference_on h s

theorem registerUnit_on (u : CodeUnit) (s : State) : registerUnit u (h.on s) = (registerUnit u s).map h.on := by
  unfold registerUnit
  rw [show (h.on s).eDict = s.eDict from rfl]
  cases eLookup s.eDict [u] with
  | some k => rfl
  | none =>
    simp only
    rw [register_on]
    cases register [u] s <;> rfl

theorem encStep_on (s : State) : encStep (h.on s) = (encStep s).map h.on := by
  unfold encStep
  rw [show (h.on s).c = s.c from rfl, registerUnit_on]
  cases registerUnit s.c s with
  | error e => rfl
  | ok t =>
    show (match eLookup t.eDict (t.w ++ [t.c]) with
      | some _ => Except.ok { h.on t with w := t.w ++ [t.c] }
      | none => emitW (h.on t) >>= fun s => register (t.w ++ [t.c]) s >>= fun s => .ok { s with w := [s.c] }) =
      Except.map h.on (match eLookup t.eDict (t.w ++ [t.c]) with
      | some _ => Except.ok { t with w := t.w ++ [t.c] }
      | none => emitW t >>= fun s => register (t.w ++ [t.c]) s >>= fun s => .ok { s with w := [s.c] })
    cases eLookup t.eDict (t.w ++ [t.c]) with
    | some k => rfl
    | none =>
      simp only
      rw [emitW_on]
      cases emitW t with
      | error e => rfl
      | ok r =>
        show (register (t.w ++ [t.c]) (h.on r) >>= fun s => Except.ok { s with w := [s.c] }) =
          Except.map h.on (register (t.w ++ [t.c]) r >>= fun s => Except.ok { s with w := [s.c] })
        rw [register_on]
        cases register (t.w ++ [t.c]) r <;> rfl

theorem encScan_on (s : State) : encScan (h.on s) = (encScan s).map h.on := by
  unfold encScan
  rw [show (h.on s).inIdx = s.inIdx from rfl, show inputLength (h.on s) = inputLength s from rfl]
  split
  · exact encStep_on h { s with c := inUnit s s.inIdx, inIdx := s.inIdx + 1 }
  · rfl

theorem encFinal_on (s : State) : encFinal (h.on s) = (encFinal s).map h.on := by
  unfold encFinal
  rw [emitW_on]
  cases emitW s with
  | error e => rfl
  | ok t =>
    show (emitBits 2 t.ctr.numBits (h.on t) >>= fun s => Except.ok _) = Except.map h.on (emitBits 2 t.ctr.numBits t >>= fun s => Except.ok _)
    rw [emitBits_on]
    cases emitBits 2 t.ctr.numBits t <;> rfl

theorem complete_on (e : Ending) (m : Nat) (s : State) : complete e m (h.on s) = h.on (complete e m s) := by
  unfold complete
  rw [show (h.on s).tainted = s.tainted from rfl]
  split <;> rfl

theorem encPost_on (s : State) : encPost (h.on s) = (encPost s).map h.on := by
  unfold encPost
  rw [show (h.on s).curVar = s.curVar from rfl, show (h.on s).packer = s.packer from rfl,
    show (h.on s).cfg = s.cfg from rfl]
  simp only
  split
  · rfl
  · exact congrArg Except.ok (complete_on h _ _
      { s with outMem := Memory.writeSeq s.outMem 0 (post s.curVar s.packer.sym) })

theorem readBits_on (k : Nat) (s : State) :
    readBits k (h.on s) = (readBits k s).map fun p => (p.1, h.on p.2) := by
  unfold readBits
  rw [show (h.on s).unpacker = s.unpacker from rfl, show (h.on s).curVar = s.curVar from rfl,
    show (h.on s).cfg = s.cfg from rfl, show inputLength (h.on s) = inputLength s from rfl, h.inUnit_on]
  cases Unpacker.readBits s.curVar s.cfg.bitOrder (inputLength s) (inUnit s) k s.unpacker <;> rfl

theorem readLiteral_on (cd : Nat) (s : State) :
    readLiteral cd (h.on s) = (readLiteral cd s).map fun p => (p.1, h.on p.2) := by
  unfold readLiteral
  rw [readBits_on]
  cases readBits (if cd = 0 then 8 else 16) s <;> rfl

theorem output_on (us : List CodeUnit) (s : State) : output us (h.on s) = (output us s).map h.on := by
  induction us generalizing s with
  | nil => rfl
  | cons u us ih =>
    rw [output, output, show (h.on s).cfg = s.cfg from rfl, show (h.on s).outIdx = s.outIdx from rfl]
    split
    · rfl
    · exact ih { s with outMem := Memory.write s.outMem s.outIdx u, outIdx := s.outIdx + 1 }

theorem addEntry_on (x : List CodeUnit) (s : State) : addEntry x (h.on s) = (addEntry x s).map h.on := by
  unfold addEntry
  rw [show (h.on s).cfg = s.cfg from rfl, show (h.on s).ctr = s.ctr from rfl]
  split <;> rfl

theorem decFirst_on (s : State) : decFirst (h.on s) = (decFirst s).map h.on := by
  unfold decFirst
  rw [readBits_on]
  cases readBits 2 s with
  | error e => rfl
  | ok p =>
    obtain ⟨cd, t⟩ := p
    simp only [Except.map, bind_ok]
    split
    · rw [readLiteral_on]
      cases readLiteral cd t with
      | error e => rfl
      | ok q => exact output_on h [q.1] { q.2 with cd := cd, dDict := q.2.dDict ++ [[q.1]], w := [q.1], phase := .decLoop }
    · rfl

theorem decLiteral_on (cd : Nat) (s : State) : decLiteral cd (h.on s) = (decLiteral cd s).map h.on := by
  unfold decLiteral
  rw [readLiteral_on]
  cases readLiteral cd s with
  | error e => rfl
  | ok p =>
    show (addEntry [p.1] (h.on p.2) >>= fun s => Except.ok _) = Except.map h.on (addEntry [p.1] p.2 >>= fun s => Except.ok _)
    rw [addEntry_on]
    cases addEntry [p.1] p.2 <;> rfl

theorem resolve_on (s : State) : resolve (h.on s) = resolve s := rfl

theorem decEntry_on (s : State) : decEntry (h.on s) = (decEntry s).map h.on := by
  unfold decEntry
  rw [resolve_on]
  cases resolve s with
  | error e => rfl
  | ok x =>
    simp only [bind_ok]
    rw [show ({ h.on s with entry := x } : State) = h.on { s with entry := x } from rfl, output_on]
    cases output x { s with entry := x } with
    | error e => rfl
    | ok t =>
      simp only [Except.map, bind_ok, show (h.on t).entry = t.entry from rfl, show (h.on t).w = t.w from rfl]
      split
      · rfl
      · rw [addEntry_on]
        cases addEntry _ t <;> rfl

theorem decLoop_on (s : State) : decLoop (h.on s) = (decLoop s).map h.on := by
  unfold decLoop
  rw [show (h.on s).ctr = s.ctr from rfl, readBits_on]
  cases readBits s.ctr.numBits s with
  | error e => rfl
  | ok p =>
    obtain ⟨cd, t⟩ := p
    simp only [Except.map, bind_ok]
    split
    · rfl
    · split
      · rw [show ({ h.on t with cd := cd } : State) = h.on { t with cd := cd } from rfl, decLiteral_on]
        cases decLiteral cd { t with cd := cd } with
        | error e => rfl
        | ok r => exact decEntry_on h r
      · exact decEntry_on h { t with cd := cd }

theorem decDrain_on (s : State) : decDrain (h.on s) = (decDrain s).map h.on := by
  unfold decDrain
  rw [show (h.on s).curVar = s.curVar from rfl, h.inUnit_on, show (h.on s).unpacker = s.unpacker from rfl,
    show inputLength (h.on s) = inputLength s from rfl]
  cases drainCheck s.curVar (inUnit s) s.unpacker.idx (inputLength s - s.unpacker.idx) with
  | error e => rfl
  | ok _ => exact congrArg Except.ok (complete_on h _ _ s)

theorem engineWork_on (s : State) : engineWork (h.on s) = (engineWork s).map h.on := by
  unfold engineWork
  rw [show (h.on s).phase = s.phase from rfl]
  cases s.phase with
  | idle => rfl
  | encScan => exact encScan_on h s
  | encFinal => exact encFinal_on h s
  | encPost => exact encPost_on h s
  | decFirst => exact decFirst_on h s
  | decLoop => exact decLoop_on h s
  | decDrain => exact decDrain_on h s

/-- The outcome with another host's side. -/
def HostSide.onOutcome : Host.Outcome State Fault Refusal → Host.Outcome State Fault Refusal
  | .next t => .next (h.on t)
  | .fault f => .fault f
  | .refused r => .refused r

theorem engineStep_on (s : State) : engineStep (h.on s) = h.onOutcome (engineStep s) := by
  unfold engineStep
  rw [engineWork_on]
  rcases engineWork s with (e | f) | t
  · exact congrArg Host.Outcome.next (complete_on h e 0 s)
  · rfl
  · rfl

/-- Running the engine commutes with changing the host's side. -/
theorem engineRun_on (k : Nat) (s : State) : engineRun k (h.on s) = h.onOutcome (engineRun k s) := by
  induction k generalizing s with
  | zero => rfl
  | succ k ih =>
    rw [engineRun, engineRun, show (h.on s).busy = s.busy from rfl]
    split
    · rw [engineStep_on]
      cases engineStep s with
      | next t => exact ih t
      | fault f => rfl
      | refused r => rfl
    · rfl

end Sys2Proof.Machine
end

