-- ==== Sys2Proof/Laws/Growth.lean ====
section
/-! SUPPORT. The growth of the code width (R187): the counters are those of a decoder that holds `d` entries (R197,
R226), and each `grow()` moves on to `d + 1`. -/

namespace Sys2Proof.Machine

/-- The counters of a decoder that holds `d` entries: `numBits` is the width of `d`, and `d + enlargeIn = 2^numBits`. -/
def CountersFor (c : Counters) (d : Nat) : Prop := c.numBits = codeWidth d ∧ c.enlargeIn + d = 2 ^ c.numBits

theorem codeWidth_pos (d : Nat) : 1 ≤ codeWidth d := by simp [codeWidth]

theorem lt_two_pow_codeWidth (d : Nat) : d < 2 ^ codeWidth d := Nat.lt_log2_self

theorem two_pow_codeWidth_le {d : Nat} (h : d ≠ 0) : 2 ^ codeWidth d ≤ 2 * d := by
  have := Nat.log2_self_le h
  rw [codeWidth, pow_succ]; omega

theorem codeWidth_unique {d n : Nat} (h1 : d < 2 ^ n) (h2 : 2 ^ n ≤ 2 * d) : codeWidth d = n := by
  have hd : d ≠ 0 := by rintro rfl; have := Nat.two_pow_pos n; omega
  cases n with
  | zero => simp at h1; omega
  | succ n =>
    rw [pow_succ] at h1 h2
    rw [codeWidth, Nat.add_right_cancel_iff, Nat.log2_eq_iff hd, pow_succ]
    omega

/-- `grow()` does not look at `dictSize`, and keeps it (R187). -/
theorem Counters.grow_setSize (c : Counters) (k : Nat) :
    Counters.grow { c with dictSize := k } = { c.grow with dictSize := k } := by
  unfold Counters.grow; simp only; split <;> rfl

/-- `grow()` counts one entry (R187). -/
theorem CountersFor.grow {c : Counters} {d : Nat} (h : CountersFor c d) (hd : d ≠ 0) : CountersFor c.grow (d + 1) := by
  obtain ⟨h1, h2⟩ := h
  have hlt := lt_two_pow_codeWidth d
  have hle := two_pow_codeWidth_le hd
  rw [← h1] at hlt hle
  unfold Counters.grow
  split
  · have he : 2 ^ c.numBits = d + 1 := by omega
    refine ⟨(codeWidth_unique ?_ ?_).symm, ?_⟩ <;> simp only [pow_succ] <;> omega
  · refine ⟨(codeWidth_unique ?_ ?_).symm, ?_⟩ <;> simp only <;> omega

/-- `grow()` does not touch `dictSize` (R200, R229). -/
@[simp] theorem Counters.grow_dictSize (c : Counters) : c.grow.dictSize = c.dictSize := by
  unfold Counters.grow; split <;> rfl

/-- The bounds of R197 and R226: `1 ≤ enlargeIn ≤ 2^(numBits-1)`. -/
theorem CountersFor.bounds {c : Counters} {d : Nat} (h : CountersFor c d) (hd : d ≠ 0) :
    1 ≤ c.enlargeIn ∧ c.enlargeIn ≤ 2 ^ (c.numBits - 1) := by
  obtain ⟨h1, h2⟩ := h
  have hlt := lt_two_pow_codeWidth d
  have hle := two_pow_codeWidth_le hd
  rw [← h1] at hlt hle
  have : 2 ^ c.numBits = 2 * 2 ^ (c.numBits - 1) := by
    rw [h1, codeWidth, pow_succ, Nat.add_sub_cancel]; ring
  omega

end Sys2Proof.Machine
end

