-- ==== Sys2Proof/Laws/CodeStream.lean ====
section
/-! SUPPORT. The encoder's bookkeeping as data: what holds of the dictionary, the units sent, the decoder's size and
the running substring between two input units (R33, R197, R198), and that each step keeps it. -/

namespace Sys2Proof.Machine

/-- The bookkeeping of the encoder once it has read a unit. -/
structure Sound (dict : List (List CodeUnit)) (sent : List CodeUnit) (d : Nat) (w : List CodeUnit) : Prop where
  nodup    : dict.Nodup
  nonempty : [] ∉ dict
  known    : ∀ x ∈ dict, ∀ u ∈ x, [u] ∈ dict
  sentIn   : ∀ u ∈ sent, [u] ∈ dict
  long     : ∀ a b t, a :: b :: t ∈ dict → a ∈ sent
  unsent   : ∀ u, [u] ∈ dict → u ∉ sent → w = [u]
  wIn      : w ∈ dict
  size     : dict.length + 3 = d + 1 + (if w.length = 1 ∧ ∀ u ∈ w, u ∉ sent then 1 else 0)
  two      : 2 ≤ d

/-- The dictionary once the unit is registered (R183). -/
def withUnit (dict : List (List CodeUnit)) (c : CodeUnit) : List (List CodeUnit) :=
  if [c] ∈ dict then dict else dict ++ [[c]]

theorem mem_withUnit (dict : List (List CodeUnit)) (c : CodeUnit) (x : List CodeUnit) :
    x ∈ withUnit dict c ↔ x ∈ dict ∨ x = [c] := by
  unfold withUnit
  split
  · constructor
    · exact .inl
    · rintro (h | rfl) <;> assumption
  · simp

/-- The state after the first unit of the input (R184). -/
theorem sound_first (c : CodeUnit) : Sound [[c]] [] 2 [c] where
  nodup := by simp
  nonempty := by simp
  known := by simp
  sentIn := by simp
  long := by simp
  unsent := by simp
  wIn := by simp
  size := by simp
  two := le_rfl

theorem Sound.w_ne_nil {dict : List (List CodeUnit)} {sent : List CodeUnit} {d : Nat} {w : List CodeUnit}
    (h : Sound dict sent d w) : w ≠ [] := by rintro rfl; exact h.nonempty h.wIn

/-- The extend case changes only the running substring (R184). -/
theorem Sound.extend {dict : List (List CodeUnit)} {sent : List CodeUnit} {d : Nat} {w : List CodeUnit} {c : CodeUnit}
    (h : Sound dict sent d w) (hx : w ++ [c] ∈ withUnit dict c) :
    withUnit dict c = dict ∧ Sound dict sent d (w ++ [c]) := by
  have hne := h.w_ne_nil
  have hx' : w ++ [c] ∈ dict := by
    rcases (mem_withUnit _ _ _).mp hx with h1 | h1
    · exact h1
    · rcases w with _ | ⟨a, t⟩
      · exact absurd rfl hne
      · simp at h1
  have hc : [c] ∈ dict := h.known _ hx' c (by simp)
  refine ⟨by simp [withUnit, hc], { h with wIn := hx', unsent := ?_, size := ?_ }⟩
  · intro u hu hs
    obtain rfl := h.unsent u hu hs
    exact absurd (h.long u c [] hx') hs
  · have hz := h.size
    rw [if_neg] at hz
    · rw [hz, if_neg]
      rcases w with _ | ⟨a, t⟩
      · exact absurd rfl hne
      · simp
    · rintro ⟨h1, h2⟩
      rcases w with _ | ⟨a, _ | ⟨b, t⟩⟩
      · simp at h1
      · exact h2 a (by simp) (h.long a c [] hx')
      · simp at h1

/-- The code of the running substring is one the decoder holds or is about to make (R196). -/
theorem Sound.code_lt {dict : List (List CodeUnit)} {sent : List CodeUnit} {d : Nat} {w : List CodeUnit}
    (h : Sound dict sent d w) (hp : ¬ (w.length = 1 ∧ ∀ u ∈ w, u ∉ sent)) :
    3 ≤ codeOf dict w ∧ codeOf dict w < 2 ^ codeWidth d := by
  have h1 := List.idxOf_lt_length_of_mem h.wIn
  have h2 := h.size
  rw [if_neg hp] at h2
  have h3 := lt_two_pow_codeWidth d
  unfold codeOf
  omega

theorem codeOf_withUnit {dict : List (List CodeUnit)} {w : List CodeUnit} (h : w ∈ dict) (c : CodeUnit) :
    codeOf (withUnit dict c) w = codeOf dict w := by
  unfold withUnit codeOf
  split
  · rfl
  · rw [List.idxOf_append_of_mem h]

theorem emission_withUnit {dict : List (List CodeUnit)} {w : List CodeUnit} (h : w ∈ dict) (c : CodeUnit)
    (sent : List CodeUnit) (d : Nat) : emission (withUnit dict c) sent d w = emission dict sent d w := by
  unfold emission
  split <;> simp [codeOf_withUnit h]

/-- The emission of a pending unit is its literal (R186). -/
theorem emission_literal {dict : List (List CodeUnit)} {sent : List CodeUnit} {d : Nat} {u : CodeUnit} (h : u ∉ sent) :
    emission dict sent d [u] = (literalItem (codeWidth d) u, u :: sent, d + 2) := by
  simp [emission, h]

/-- The emission of any other substring is its reference (R188). -/
theorem emission_reference {dict : List (List CodeUnit)} {sent : List CodeUnit} {d : Nat} {w : List CodeUnit}
    (h : ¬ (w.length = 1 ∧ ∀ u ∈ w, u ∉ sent)) :
    emission dict sent d w = (.ref (codeOf dict w) (codeWidth d), sent, d + 1) := by
  unfold emission
  split
  · rename_i u
    rw [if_pos]
    by_contra hu
    exact h (by simp [hu])
  · rfl

/-- The literal case or the reference case: the form in which proofs split an emission. -/
theorem pending_cases (sent w : List CodeUnit) :
    (∃ u, w = [u] ∧ u ∉ sent) ∨ ¬ (w.length = 1 ∧ ∀ u ∈ w, u ∉ sent) := by
  by_cases h : w.length = 1 ∧ ∀ u ∈ w, u ∉ sent
  · obtain ⟨h1, h2⟩ := h
    obtain ⟨u, rfl⟩ := List.length_eq_one_iff.mp h1
    exact .inl ⟨u, rfl, h2 u (by simp)⟩
  · exact .inr h

/-- The emit case keeps the bookkeeping (R185 to R190). -/
theorem Sound.emit {dict : List (List CodeUnit)} {sent : List CodeUnit} {d : Nat} {w : List CodeUnit} {c : CodeUnit}
    (h : Sound dict sent d w) (hx : w ++ [c] ∉ withUnit dict c) :
    Sound (withUnit dict c ++ [w ++ [c]]) (emission dict sent d w).2.1 (emission dict sent d w).2.2 [c] := by
  have hne := h.w_ne_nil
  have hsz := h.size
  have hlen : (withUnit dict c).length = dict.length + (if [c] ∈ dict then 0 else 1) := by
    unfold withUnit; split <;> simp
  have hwc : ∀ u, w ++ [c] ≠ [u] := by
    intro u hu
    rcases w with _ | ⟨a, t⟩
    · exact hne rfl
    · simp at hu
  have mem1 : ∀ u, [u] ∈ withUnit dict c ++ [w ++ [c]] ↔ [u] ∈ dict ∨ u = c := by
    intro u
    have := hwc u
    simp only [List.mem_append, mem_withUnit, List.cons.injEq, and_true, List.mem_singleton]
    constructor
    · rintro (h1 | h1)
      · exact h1
      · exact absurd h1.symm this
    · exact .inl
  have nodup : (withUnit dict c ++ [w ++ [c]]).Nodup := by
    rw [List.nodup_append]
    refine ⟨?_, by simp, ?_⟩
    · unfold withUnit
      split
      · exact h.nodup
      · rename_i hc
        rw [List.nodup_append]
        refine ⟨h.nodup, by simp, ?_⟩
        rintro a ha b hb rfl
        rw [List.mem_singleton.mp hb] at ha
        exact hc ha
    · rintro a ha b hb rfl
      rw [List.mem_singleton.mp hb] at ha
      exact hx ha
  have nonempty : [] ∉ withUnit dict c ++ [w ++ [c]] := by
    simp [mem_withUnit, h.nonempty]
  have known : ∀ x ∈ withUnit dict c ++ [w ++ [c]], ∀ u ∈ x, [u] ∈ withUnit dict c ++ [w ++ [c]] := by
    intro x hx' u hu
    rw [mem1]
    rcases List.mem_append.mp hx' with hx' | hx'
    · rcases (mem_withUnit _ _ _).mp hx' with hx' | rfl
      · exact .inl (h.known x hx' u hu)
      · exact .inr (by simpa using hu)
    · rw [List.mem_singleton.mp hx'] at hu
      rcases List.mem_append.mp hu with hu | hu
      · exact .inl (h.known w h.wIn u hu)
      · exact .inr (by simpa using hu)
  have long : ∀ sent' : List CodeUnit, (∀ u ∈ sent, u ∈ sent') → (∀ a t, w = a :: t → a ∈ sent') →
      ∀ a b t, a :: b :: t ∈ withUnit dict c ++ [w ++ [c]] → a ∈ sent' := by
    intro sent' hsub hhead a b t hm
    rcases List.mem_append.mp hm with hm | hm
    · rcases (mem_withUnit _ _ _).mp hm with hm | hm
      · exact hsub a (h.long a b t hm)
      · simp at hm
    · have hm := List.mem_singleton.mp hm
      rcases w with _ | ⟨x, w'⟩
      · exact absurd rfl hne
      · rw [List.cons_append, List.cons.injEq] at hm
        exact hhead a w' (by rw [hm.1])
  rcases pending_cases sent w with ⟨u, rfl, hu⟩ | hp
  · rw [emission_literal hu]
    have huD := h.wIn
    rw [if_pos (by simp [hu])] at hsz
    refine ⟨nodup, nonempty, known, ?_, long _ (by simp +contextual) (by rintro a t ⟨⟩; simp), ?_, by simp [mem_withUnit], ?_,
      by have := h.two; simp only; omega⟩
    · intro x hx'
      rw [mem1]
      rcases List.mem_cons.mp hx' with rfl | hx'
      · exact .inl huD
      · exact .inl (h.sentIn x hx')
    · intro x hx' hs
      simp only [List.mem_cons, not_or] at hs
      rcases (mem1 x).mp hx' with hx' | rfl
      · have := h.unsent x hx' hs.2
        simp only [List.cons.injEq, and_true] at this
        exact absurd this.symm hs.1
      · rfl
    · simp only [List.length_append, hlen, List.length_singleton, List.mem_cons, List.not_mem_nil, or_false, forall_eq,
        true_and]
      by_cases hc : [c] ∈ dict
      · have : c = u ∨ c ∈ sent := by
          by_contra hcon
          simp only [not_or] at hcon
          have := h.unsent c hc hcon.2
          simp only [List.cons.injEq, and_true] at this
          exact hcon.1 this.symm
        rw [if_pos hc, if_neg (not_not_intro this)]; omega
      · have h1 : c ∉ sent := fun h1 => hc (h.sentIn c h1)
        have h2 : c ≠ u := by rintro rfl; exact hc huD
        rw [if_neg hc, if_pos (by simp [h1, h2])]; omega
  · rw [emission_reference hp]
    rw [if_neg hp] at hsz
    have hhead : ∀ a t, w = a :: t → a ∈ sent := by
      rintro a t rfl
      rcases t with _ | ⟨b, t⟩
      · by_contra ha; exact hp (by simp [ha])
      · exact h.long a b t h.wIn
    have hdone : ∀ x, [x] ∈ dict → x ∈ sent := by
      intro x hx'
      by_contra hs
      have := h.unsent x hx' hs
      exact hp (by simp [this, hs])
    refine ⟨nodup, nonempty, known, ?_, long _ (fun _ h => h) hhead, ?_, by simp [mem_withUnit], ?_,
      by have := h.two; simp only; omega⟩
    · intro x hx'
      rw [mem1]; exact .inl (h.sentIn x hx')
    · intro x hx' hs
      rcases (mem1 x).mp hx' with hx' | rfl
      · exact absurd (hdone x hx') hs
      · rfl
    · simp only [List.length_append, hlen, List.length_singleton, List.mem_singleton, forall_eq, true_and]
      by_cases hc : [c] ∈ dict
      · rw [if_pos hc, if_neg (not_not_intro (hdone c hc))]; omega
      · have h1 : c ∉ sent := fun h1 => hc (h.sentIn c h1)
        rw [if_neg hc, if_pos h1]; omega

/-- The rest of the code stream, one unit further (R184, R185). -/
theorem encodeFrom_cons (dict : List (List CodeUnit)) (sent : List CodeUnit) (d : Nat) (w : List CodeUnit)
    (c : CodeUnit) (cs : List CodeUnit) :
    encodeFrom dict sent d w (c :: cs) =
      if w ++ [c] ∈ withUnit dict c then encodeFrom (withUnit dict c) sent d (w ++ [c]) cs
      else
        let e := emission (withUnit dict c) sent d w
        let r := encodeFrom (withUnit dict c ++ [w ++ [c]]) e.2.1 e.2.2 [c] cs
        (e.1 :: r.1, r.2) := rfl

/-- The first unit is always an extend step (R184). -/
theorem encodeFrom_first (c : CodeUnit) (cs : List CodeUnit) :
    encodeFrom [] [] 2 [] (c :: cs) = encodeFrom [[c]] [] 2 [c] cs := by
  rw [encodeFrom_cons]; simp [withUnit]

/-- The dictionary only grows (R198). -/
theorem le_encodeFrom_count (cs : List CodeUnit) (dict : List (List CodeUnit)) (sent : List CodeUnit) (d : Nat)
    (w : List CodeUnit) : dict.length ≤ (encodeFrom dict sent d w cs).2 := by
  induction cs generalizing dict sent d w with
  | nil => simp [encodeFrom]
  | cons c cs ih =>
    have hlen : dict.length ≤ (withUnit dict c).length := by unfold withUnit; split <;> simp
    rw [encodeFrom_cons]
    split
    · exact hlen.trans (ih _ _ _ _)
    · have := ih (withUnit dict c ++ [w ++ [c]]) (emission (withUnit dict c) sent d w).2.1
        (emission (withUnit dict c) sent d w).2.2 [c]
      simp only [List.length_append, List.length_singleton] at this ⊢
      omega

end Sys2Proof.Machine
end

