-- ==== Sys2Proof/Laws/Alphabet.lean ====
section
/-! SUPPORT. The alphabet tables: each decode table undoes its encode table, and no symbol is a pad (R150). -/

namespace Sys2Proof.Machine

theorem bpc_pos (v : Variant) : 0 < bpc v := by cases v <;> decide

theorem bpc_le (v : Variant) : bpc v ≤ 16 := by cases v <;> decide

theorem sixBitSymbol_lt (last x : Nat) (h : last < 0x80) : sixBitSymbol last x < 0x80 := by
  unfold sixBitSymbol; split_ifs <;> omega

theorem sixBitValue_sixBitSymbol (last x : Nat) (hl : last = 0x2D ∨ last = 0x2F) (h : x < 64) :
    sixBitValue last (sixBitSymbol last x) = some x := by
  unfold sixBitSymbol
  split_ifs with h1 h2 h3 h4
  · rw [sixBitValue, if_pos (by omega)]; congr 1; omega
  · rw [sixBitValue, if_neg (by omega), if_pos (by omega)]; congr 1; omega
  · rw [sixBitValue, if_neg (by omega), if_neg (by omega), if_pos (by omega)]; congr 1; omega
  · subst h4; rcases hl with rfl | rfl <;> decide
  · obtain rfl : x = 63 := by omega
    rcases hl with rfl | rfl <;> decide

theorem enc_toNat_sixBit (last x : Nat) (h : last < 0x80) :
    (BitVec.ofNat 16 (sixBitSymbol last x)).toNat = sixBitSymbol last x := by
  have := sixBitSymbol_lt last x h
  simp [BitVec.toNat_ofNat]; omega

theorem sixBitValue_spec (last u : Nat) {x : Nat} (h : sixBitValue last u = some x) :
    x < 64 ∧ sixBitSymbol last x = u := by
  unfold sixBitValue at h
  unfold sixBitSymbol
  split_ifs at h <;> injection h <;> subst_vars <;> (refine ⟨by omega, ?_⟩) <;> (try split_ifs) <;> omega

/-- Decoding an encoded value gives it back, in every variant (R150). -/
theorem dec_enc (v : Variant) {x : Nat} (h : x < 2 ^ bpc v) : dec v (enc v x) = some x := by
  cases v
  · simp only [dec, enc, bpc] at *; rw [BitVec.toNat_ofNat, Nat.mod_eq_of_lt h]
  · have hx : (enc .utf x).toNat = x + 32 := by
      simp only [enc, bpc] at *; rw [BitVec.toNat_ofNat, Nat.mod_eq_of_lt (by omega)]
    simp only [dec, bpc, hx] at *
    rw [if_pos (by omega)]; congr 1
  · simp only [dec, enc, bpc, lastSymbol] at *
    rw [enc_toNat_sixBit _ _ (by omega)]; exact sixBitValue_sixBitSymbol _ _ (.inr rfl) h
  · simp only [dec, enc, bpc, lastSymbol] at *
    rw [enc_toNat_sixBit _ _ (by omega)]; exact sixBitValue_sixBitSymbol _ _ (.inl rfl) h

/-- A decoded value fits the symbol's width (R150). -/
theorem dec_lt (v : Variant) (u : CodeUnit) {x : Nat} (h : dec v u = some x) : x < 2 ^ bpc v := by
  cases v
  · simp only [dec, Option.some.injEq] at h; subst h; exact u.isLt
  · simp only [dec] at h; split at h
    · simp only [Option.some.injEq] at h; simp only [bpc]; omega
    · cases h
  all_goals exact (sixBitValue_spec _ _ h).1

/-- A pad symbol is no symbol of its alphabet (R157, R159). -/
theorem dec_of_isPad (v : Variant) (u : CodeUnit) (h : isPad v u = true) : dec v u = none := by
  cases v <;> simp only [isPad, padSymbol, beq_iff_eq, reduceCtorEq, Option.some.injEq] at h <;> subst h <;> decide

theorem isPad_enc (v : Variant) {x : Nat} (h : x < 2 ^ bpc v) : isPad v (enc v x) = false := by
  by_contra hp
  have := dec_of_isPad v (enc v x) (by simpa using hp)
  rw [dec_enc v h] at this
  cases this

/-- A symbol whose value is known is the encoding of that value (R150: the tables are bijections). -/
theorem enc_dec (v : Variant) (u : CodeUnit) {x : Nat} (h : dec v u = some x) : enc v x = u := by
  cases v
  · simp only [dec, Option.some.injEq] at h; subst h; simp [enc]
  · simp only [dec] at h; split at h
    · simp only [Option.some.injEq] at h; subst h
      apply BitVec.eq_of_toNat_eq; simp [enc]; omega
    · cases h
  all_goals
    apply BitVec.eq_of_toNat_eq
    rw [enc, enc_toNat_sixBit _ _ (by decide)]
    exact (sixBitValue_spec _ _ h).2

end Sys2Proof.Machine
end

