-- ==== Sys2Proof/Laws/Bits.lean ====
section
/-! SUPPORT. Values and their bits: each of `msbBits` and `msbValue` undoes the other (R122, R131). -/

namespace Sys2Proof

@[simp] theorem msbBits_length (v n : Nat) : (msbBits v n).length = n := by
  induction n with
  | zero => rfl
  | succ n ih => simp [msbBits, ih]

@[simp] theorem msbValue_nil : msbValue [] = 0 := rfl

theorem msbValue_append_one (bs : List Bool) (b : Bool) : msbValue (bs ++ [b]) = 2 * msbValue bs + b.toNat := by
  simp [msbValue]

theorem msbValue_cons (b : Bool) (bs : List Bool) : msbValue (b :: bs) = b.toNat * 2 ^ bs.length + msbValue bs := by
  induction bs using List.reverseRecOn with
  | nil => simp [msbValue]
  | append_singleton bs c ih =>
    rw [← List.cons_append, msbValue_append_one, msbValue_append_one, ih]
    simp [pow_succ]; ring

theorem msbValue_lt (bs : List Bool) : msbValue bs < 2 ^ bs.length := by
  induction bs using List.reverseRecOn with
  | nil => simp
  | append_singleton bs c ih =>
    rw [msbValue_append_one]
    have : c.toNat ≤ 1 := Bool.toNat_le c
    simp only [List.length_append, List.length_singleton, pow_succ]; omega

theorem msbBits_mod (v n : Nat) : msbBits (v % 2 ^ n) n = msbBits v n := by
  suffices h : ∀ m, m ≤ n → msbBits (v % 2 ^ n) m = msbBits v m from h n le_rfl
  intro m hm
  induction m with
  | zero => rfl
  | succ m ih =>
    simp only [msbBits, Nat.testBit_mod_two_pow, ih (by omega), decide_eq_true (show m < n by omega), Bool.true_and]

/-- The value of the low bits of a number is the number modulo their count's power of two. -/
theorem msbValue_msbBits (v n : Nat) : msbValue (msbBits v n) = v % 2 ^ n := by
  induction n with
  | zero => simp [msbBits, Nat.mod_one]
  | succ n ih =>
    rw [msbBits, msbValue_cons, msbBits_length, ih, Nat.mod_pow_succ, Nat.toNat_testBit]
    ring

theorem msbValue_msbBits_of_lt {v n : Nat} (h : v < 2 ^ n) : msbValue (msbBits v n) = v := by
  rw [msbValue_msbBits, Nat.mod_eq_of_lt h]

theorem msbBits_msbValue (bs : List Bool) : msbBits (msbValue bs) bs.length = bs := by
  induction bs with
  | nil => rfl
  | cons b bs ih =>
    have hlt := msbValue_lt bs
    rw [List.length_cons, msbBits, msbValue_cons]
    have h1 : (b.toNat * 2 ^ bs.length + msbValue bs).testBit bs.length = b := by
      rw [Nat.testBit_eq_decide_div_mod_eq, Nat.add_comm, Nat.add_mul_div_right _ _ (by positivity),
        Nat.div_eq_of_lt hlt]
      cases b <;> simp
    have h2 : msbBits (b.toNat * 2 ^ bs.length + msbValue bs) bs.length = bs := by
      rw [← msbBits_mod, Nat.add_comm, Nat.add_mul_mod_self_right, Nat.mod_eq_of_lt hlt, ih]
    rw [h1, h2]

@[simp] theorem valueBits_length (o : BitOrder) (v n : Nat) : (valueBits o v n).length = n := by
  cases o <;> simp [valueBits]

/-- What `emitBits` sends, `readBits` reads (R122, R131), in either order. -/
theorem bitsValue_valueBits (o : BitOrder) {v n : Nat} (h : v < 2 ^ n) : bitsValue o (valueBits o v n) = v := by
  cases o <;> simp [bitsValue, valueBits, msbValue_msbBits_of_lt h]

theorem bitsValue_lt (o : BitOrder) (bs : List Bool) : bitsValue o bs < 2 ^ bs.length := by
  cases o
  · exact msbValue_lt bs
  · simpa [bitsValue] using msbValue_lt bs.reverse

end Sys2Proof
end

