-- ==== Sys2Proof/Laws/Packer.lean ====
section
/-! SUPPORT. What the packer holds after any string of bits, and what `flush` makes of it (R121, R123, R124, R127). -/

namespace Sys2Proof.Machine

/-- The packer `p` has been given the bits `bs` since its start: whole symbols have been emitted, and the rest is in
the accumulator. -/
def Packed (v : Variant) (bs : List Bool) (p : Packer) : Prop :=
  ∃ (chunks : List (List Bool)) (tail : List Bool),
    bs = chunks.flatten ++ tail ∧ (∀ ch ∈ chunks, ch.length = bpc v) ∧ tail.length < bpc v ∧
    p = { acc := msbValue tail, pos := tail.length, nsym := chunks.length,
          sym := chunks.map fun ch => enc v (msbValue ch) }

theorem packed_start (v : Variant) : Packed v [] Packer.start :=
  ⟨[], [], rfl, by simp, bpc_pos v, rfl⟩

theorem msbValue_push (v : Variant) (tail : List Bool) (b : Bool) (h : tail.length < bpc v) :
    (2 * msbValue tail + b.toNat) % 2 ^ bpc v = msbValue (tail ++ [b]) := by
  rw [← msbValue_append_one]
  refine Nat.mod_eq_of_lt ((msbValue_lt _).trans_le (Nat.pow_le_pow_right (by decide) ?_))
  simpa using h

/-- `emitBit(b)` appends one bit (R121). -/
theorem Packed.emitBit {v : Variant} {bs : List Bool} {p : Packer} (h : Packed v bs p) (b : Bool) :
    Packed v (bs ++ [b]) (p.emitBit v b) := by
  obtain ⟨chunks, tail, rfl, hc, ht, rfl⟩ := h
  simp only [Packer.emitBit, msbValue_push v tail b ht]
  split
  · rename_i hpos
    refine ⟨chunks ++ [tail ++ [b]], [], by simp, ?_, bpc_pos v, ?_⟩
    · intro ch hch
      rcases List.mem_append.mp hch with hch | hch
      · exact hc ch hch
      · rw [List.mem_singleton.mp hch]; simp; omega
    · simp [Packer.outSymbol]
  · exact ⟨chunks, tail ++ [b], by simp, hc, by simp; omega, by simp⟩

theorem Packed.emitAll {v : Variant} (cs : List Bool) {bs : List Bool} {p : Packer} (h : Packed v bs p) :
    Packed v (bs ++ cs) (cs.foldl (Packer.emitBit v) p) := by
  induction cs generalizing bs p with
  | nil => simpa using h
  | cons c cs ih => simpa using ih (h.emitBit c)

/-- `emitBits(x, n)` appends the n bits of a value that fits (R123); nothing else makes it answer. -/
theorem Packed.emitBits {v : Variant} {o : BitOrder} {x n : Nat} {bs : List Bool} {p q : Packer}
    (h : Packed v bs p) (hq : p.emitBits v o x n = .ok q) : x < 2 ^ n ∧ Packed v (bs ++ valueBits o x n) q := by
  unfold Packer.emitBits at hq
  split at hq
  · rename_i hx; cases hq; exact ⟨hx, h.emitAll _⟩
  · cases hq

theorem Packer.emitBits_of_lt {v : Variant} {o : BitOrder} {x n : Nat} (p : Packer) (h : x < 2 ^ n) :
    p.emitBits v o x n = .ok ((valueBits o x n).foldl (Packer.emitBit v) p) := by
  simp [Packer.emitBits, h]

theorem symbolsOf_chunk (v : Variant) (ch rest : List Bool) (h : ch.length = bpc v) :
    symbolsOf v (ch ++ rest) = enc v (msbValue ch) :: symbolsOf v rest := by
  have hb := bpc_pos v
  unfold symbolsOf
  rw [show (ch ++ rest).length / bpc v + 1 = (rest.length / bpc v + 1) + 1 by
    rw [List.length_append, h, Nat.add_comm (bpc v), Nat.add_div_right _ hb]]
  rw [List.range_succ_eq_map, List.map_cons, List.map_map]
  congr 1
  · simp [List.append_assoc, ← h]
  · apply List.map_congr_left
    intro j _
    have hd : (ch ++ rest ++ List.replicate (bpc v) false).drop ((j + 1) * bpc v)
        = (rest ++ List.replicate (bpc v) false).drop (j * bpc v) := by
      rw [show (j + 1) * bpc v = ch.length + j * bpc v by rw [h]; ring, List.append_assoc, ← List.drop_drop]
      simp
    simp only [Function.comp_apply, Nat.succ_eq_add_one, hd]

theorem symbolsOf_tail (v : Variant) (tail : List Bool) (h : tail.length < bpc v) :
    symbolsOf v tail = [enc v (msbValue (tail ++ List.replicate (bpc v - tail.length) false))] := by
  unfold symbolsOf
  rw [Nat.div_eq_of_lt h]
  simp [List.take_append, List.take_of_length_le h.le]

theorem symbolsOf_chunks (v : Variant) (chunks : List (List Bool)) (tail : List Bool)
    (hc : ∀ ch ∈ chunks, ch.length = bpc v) (ht : tail.length < bpc v) :
    symbolsOf v (chunks.flatten ++ tail) =
      (chunks.map fun ch => enc v (msbValue ch)) ++
        [enc v (msbValue (tail ++ List.replicate (bpc v - tail.length) false))] := by
  induction chunks with
  | nil => simpa using symbolsOf_tail v tail ht
  | cons ch chunks ih =>
    rw [List.flatten_cons, List.append_assoc, symbolsOf_chunk v ch _ (hc ch (by simp)),
      ih fun c h => hc c (by simp [h])]
    rfl

theorem Packer.flushLoop_spec (v : Variant) (fuel : Nat) (p : Packer) (tail : List Bool)
    (hp : p.pos = tail.length) (ha : p.acc = msbValue tail) (ht : tail.length < bpc v)
    (hf : bpc v - tail.length ≤ fuel) :
    (p.flushLoop v fuel).sym
      = p.sym ++ [enc v (msbValue (tail ++ List.replicate (bpc v - tail.length) false))] ∧
    (p.flushLoop v fuel).nsym = p.nsym + 1 ∧ (p.flushLoop v fuel).pos = 0 ∧ (p.flushLoop v fuel).acc = 0 := by
  induction fuel generalizing p tail with
  | zero => omega
  | succ fuel ih =>
    have hm : (2 * p.acc) % 2 ^ bpc v = msbValue (tail ++ [false]) := by
      rw [ha]; simpa using msbValue_push v tail false ht
    simp only [Packer.flushLoop, hm]
    split
    · rename_i h
      rw [hp] at h
      rw [show bpc v - tail.length = 1 by omega]
      simp [Packer.outSymbol]
    · rename_i h
      rw [hp] at h
      have := ih { p with acc := msbValue (tail ++ [false]), pos := p.pos + 1 } (tail ++ [false])
        (by simp [hp]) rfl (by simp; omega) (by simp; omega)
      refine ⟨?_, this.2.1, this.2.2.1, this.2.2.2⟩
      rw [this.1]
      congr 4
      rw [show bpc v - tail.length = (bpc v - (tail ++ [false]).length) + 1 by simp; omega, List.replicate_succ]
      simp

/-- After any string of bits and `flush`, the packer has emitted exactly the symbols that carry them (R124, R127). -/
theorem Packed.flush {v : Variant} {bs : List Bool} {p : Packer} (h : Packed v bs p) :
    (p.flush v).sym = symbolsOf v bs ∧ (p.flush v).nsym = bs.length / bpc v + 1 := by
  obtain ⟨chunks, tail, rfl, hc, ht, rfl⟩ := h
  have := Packer.flushLoop_spec v (bpc v)
    { acc := msbValue tail, pos := tail.length, nsym := chunks.length, sym := chunks.map fun ch => enc v (msbValue ch) }
    tail rfl rfl ht (by omega)
  refine ⟨by rw [Packer.flush, this.1, symbolsOf_chunks v chunks tail hc ht], ?_⟩
  rw [Packer.flush, this.2.1]
  have hl : chunks.flatten.length = chunks.length * bpc v := by
    rw [List.length_flatten, List.map_congr_left (g := fun _ => bpc v) hc]; simp
  rw [List.length_append, hl, Nat.add_comm _ tail.length, Nat.add_mul_div_right _ _ (bpc_pos v), Nat.div_eq_of_lt ht]
  simp

/-- `flush` empties the accumulator (R124). -/
theorem Packed.flush_empty {v : Variant} {bs : List Bool} {p : Packer} (h : Packed v bs p) :
    (p.flush v).pos = 0 ∧ (p.flush v).acc = 0 := by
  obtain ⟨chunks, tail, rfl, hc, ht, rfl⟩ := h
  exact (Packer.flushLoop_spec v (bpc v)
    { acc := msbValue tail, pos := tail.length, nsym := chunks.length, sym := chunks.map fun ch => enc v (msbValue ch) }
    tail rfl rfl ht (by omega)).2.2

/-- An output has one symbol more than the whole symbols its bits fill (R90, R127). -/
@[simp] theorem symbolsOf_length (v : Variant) (bs : List Bool) : (symbolsOf v bs).length = bs.length / bpc v + 1 := by
  simp [symbolsOf]

/-- Every string of bits is whole chunks and a shorter tail. -/
theorem exists_chunks (n : Nat) (hn : 0 < n) (bs : List Bool) :
    ∃ (chunks : List (List Bool)) (tail : List Bool),
      bs = chunks.flatten ++ tail ∧ (∀ ch ∈ chunks, ch.length = n) ∧ tail.length < n := by
  induction h : bs.length using Nat.strong_induction_on generalizing bs with
  | _ k ih =>
    by_cases hk : k < n
    · exact ⟨[], bs, by simp, by simp, by omega⟩
    · obtain ⟨chunks, tail, he, hc, ht⟩ := ih (k - n) (by omega) (bs.drop n) (by simp [h])
      refine ⟨bs.take n :: chunks, tail, ?_, ?_, ht⟩
      · rw [List.flatten_cons, List.append_assoc, ← he, List.take_append_drop]
      · intro ch hch
        rcases List.mem_cons.mp hch with rfl | hch
        · simp; omega
        · exact hc ch hch

end Sys2Proof.Machine
end

