-- ==== Sys2Proof/Laws/Encoder.lean ====
section
/-! SUPPORT. The engine's compress phases write the code stream (R180 to R194): the registers hold the bookkeeping of
Laws/CodeStream.lean, and each phase moves it on. -/

namespace Sys2Proof.Machine

/-- The encoder's registers hold this bookkeeping, and the packer has been given these bits. -/
structure Tracks (s : State) (dict : List (List CodeUnit)) (sent : List CodeUnit) (d : Nat) (w : List CodeUnit)
    (bs : List Bool) : Prop where
  eDict  : s.eDict = dict.zipIdx 3
  size   : s.ctr.dictSize = dict.length + 3
  ctr    : CountersFor s.ctr d
  packed : Packed s.curVar bs s.packer
  pend   : ∀ x, x ∈ s.ePend ↔ ∃ u, x = [u] ∧ [u] ∈ dict ∧ u ∉ sent
  w      : s.w = w

/-- Looking a sequence up in the dictionary gives its place in the order of registration (R198). -/
theorem eLookup_zipIdx (dict : List (List CodeUnit)) (x : List CodeUnit) (k : Nat) :
    eLookup (dict.zipIdx k) x = if x ∈ dict then some (k + dict.idxOf x) else none := by
  induction dict generalizing k with
  | nil => simp [eLookup]
  | cons y dict ih =>
    rw [List.zipIdx_cons, eLookup, ih]
    by_cases h : x = y
    · subst h; simp
    · simp only [h, if_false, List.mem_cons, false_or]
      rw [List.idxOf_cons_ne _ (fun h' => h h'.symm)]
      split
      · congr 1; omega
      · rfl

/-- The start values fit an allowed DICT_CAP (R268). -/
theorem Params.room_of_wf {p : Params} (h : p.wf = true) : exceeds p.dictCap 4 = false := by
  unfold Params.wf at h
  unfold exceeds
  cases hc : p.dictCap with
  | none => rfl
  | some c =>
    rw [hc] at h
    simp at h ⊢
    exact h

theorem exceeds_mono {cap : Option Nat} {m n : Nat} (h : m ≤ n) (hm : exceeds cap m = true) : exceeds cap n = true := by
  unfold exceeds at *
  split at hm
  · cases hm
  · simp only [decide_eq_true_eq] at *; omega

/-- `emitBits(x, n)` of a value that fits gives its bits to the packer (R123). -/
theorem emitBits_eq {x n : Nat} (s : State) (h : x < 2 ^ n) :
    emitBits x n s = .ok { s with
      packer := (valueBits s.cfg.bitOrder x n).foldl (Packer.emitBit s.curVar) s.packer } := by
  simp only [emitBits, Packer.emitBits_of_lt s.packer h]; rfl

/-- The literal's item (R186). -/
theorem emitLiteralItem_eq {n : Nat} (s : State) (u : CodeUnit) (h : 1 < 2 ^ n) :
    emitLiteralItem u n s = .ok { s with
      packer := ((literalItem n u).bits s.cfg.bitOrder).foldl (Packer.emitBit s.curVar) s.packer } := by
  unfold emitLiteralItem literalItem
  split
  · rename_i hu
    rw [emitBits_eq s (by omega), bind_ok, emitBits_eq _ (by omega)]
    have hz : (u.setWidth 8).toNat = u.toNat := by rw [BitVec.toNat_setWidth]; omega
    simp only [StreamItem.bits, List.foldl_append, hz]
  · rw [emitBits_eq s h, bind_ok, emitBits_eq _ u.isLt]
    simp only [StreamItem.bits, List.foldl_append]

/-- `emitW()` of a pending `w`: the literal of its unit, two growth steps, and it is pending no more (R186). -/
theorem emitW_pending {s : State} {u : CodeUnit} (hw : s.w = [u]) (hp : s.w ∈ s.ePend) (hn : 1 < 2 ^ s.ctr.numBits) :
    emitW s = .ok { s with
      packer := ((literalItem s.ctr.numBits u).bits s.cfg.bitOrder).foldl (Packer.emitBit s.curVar) s.packer
      ctr := s.ctr.grow.grow, ePend := s.ePend.filter (· != s.w) } := by
  unfold emitW
  rw [hw]
  simp only
  rw [← hw, if_pos hp, emitLiteral, emitLiteralItem_eq s u hn]
  rfl

/-- `emitW()` of any other `w`: a reference to its code, and one growth step (R188). -/
theorem emitW_known {s : State} {k : Nat} (hw : s.w ≠ []) (hp : s.w ∉ s.ePend) (hk : eLookup s.eDict s.w = some k)
    (hn : k < 2 ^ s.ctr.numBits) :
    emitW s = .ok { s with
      packer := (StreamItem.bits s.cfg.bitOrder (.ref k s.ctr.numBits)).foldl (Packer.emitBit s.curVar) s.packer
      ctr := s.ctr.grow } := by
  obtain ⟨a, x, hx⟩ := List.exists_cons_of_ne_nil hw
  unfold emitW
  rw [hx]
  simp only
  rw [← hx, if_neg hp, emitReference, hk]
  simp only
  rw [emitBits_eq s hn]
  rfl

/-- `encStep` part 1 (R183): a new unit gets the next code and is marked pending. -/
theorem registerUnit_eq {s : State} {dict : List (List CodeUnit)} (hd : s.eDict = dict.zipIdx 3)
    (hsz : s.ctr.dictSize = dict.length + 3) (c : CodeUnit)
    (hc : exceeds s.cfg.dictCap (s.ctr.dictSize + 1) = false) :
    registerUnit c s = .ok { s with
      eDict := (withUnit dict c).zipIdx 3
      ePend := if [c] ∈ dict then s.ePend else s.ePend ++ [[c]]
      ctr := { s.ctr with dictSize := (withUnit dict c).length + 3 } } := by
  unfold registerUnit
  rw [hd, eLookup_zipIdx]
  by_cases hm : [c] ∈ dict
  · simp only [if_pos hm, withUnit, ← hd, ← hsz]
  · simp only [if_neg hm, withUnit]
    unfold register
    rw [hc]
    simp [hd, hsz, List.zipIdx_append, bind_ok, pure, Except.pure, Nat.add_comm, Nat.add_left_comm]

section
variable {s : State} {dict : List (List CodeUnit)} {sent : List CodeUnit} {d : Nat} {w : List CodeUnit} {bs : List Bool}

/-- `register(x)` appends `x` to the order of registration (R200). -/
theorem Tracks.register_ok (h : Tracks s dict sent d w bs) (x : List CodeUnit)
    (hc : exceeds s.cfg.dictCap (dict.length + 4) = false) :
    register x s = .ok { s with
      eDict := (dict ++ [x]).zipIdx 3, ctr := { s.ctr with dictSize := (dict ++ [x]).length + 3 } } := by
  unfold register
  rw [h.size, hc]
  simp [h.eDict, List.zipIdx_append, Nat.add_comm, Nat.add_left_comm]

theorem Tracks.register_full (h : Tracks s dict sent d w bs) (x : List CodeUnit)
    (hc : exceeds s.cfg.dictCap (dict.length + 4) = true) : register x s = capacity .capDict := by
  unfold register
  rw [h.size, hc]
  rfl

theorem CountersFor.setSize {c : Counters} {d : Nat} (h : CountersFor c d) (n : Nat) :
    CountersFor { c with dictSize := n } d := h

/-- Registering a unit (R183). -/
theorem Tracks.registerUnit_ok (h : Tracks s dict sent d w bs) (hs : Sound dict sent d w) (c : CodeUnit)
    (hc : exceeds s.cfg.dictCap ((withUnit dict c).length + 3) = false) :
    ∃ ed pe ct, registerUnit c s = .ok { s with eDict := ed, ePend := pe, ctr := ct } ∧
      Tracks { s with eDict := ed, ePend := pe, ctr := ct } (withUnit dict c) sent d w bs := by
  unfold registerUnit
  rw [h.eDict, eLookup_zipIdx]
  by_cases hm : [c] ∈ dict
  · rw [if_pos hm]
    refine ⟨s.eDict, s.ePend, s.ctr, rfl, ?_⟩
    rw [withUnit, if_pos hm]
    exact h
  · rw [if_neg hm]
    rw [withUnit, if_neg hm, List.length_append, List.length_singleton] at hc
    simp only
    rw [h.register_ok [c] (by rw [← hc])]
    refine ⟨_, s.ePend ++ [[c]], _, rfl, ?_⟩
    rw [withUnit, if_neg hm]
    refine ⟨rfl, rfl, h.ctr.setSize _, h.packed, ?_, h.w⟩
    intro x
    simp only [List.mem_append, List.mem_singleton, h.pend]
    constructor
    · rintro (⟨u, rfl, h1, h2⟩ | rfl)
      · exact ⟨u, rfl, .inl h1, h2⟩
      · exact ⟨c, rfl, .inr rfl, fun h' => hm (hs.sentIn c h')⟩
    · rintro ⟨u, rfl, h1 | h1, h2⟩
      · exact .inl ⟨u, rfl, h1, h2⟩
      · exact .inr h1

theorem Tracks.registerUnit_full (h : Tracks s dict sent d w bs) (c : CodeUnit)
    (h0 : exceeds s.cfg.dictCap (dict.length + 3) = false)
    (hc : exceeds s.cfg.dictCap ((withUnit dict c).length + 3) = true) : registerUnit c s = capacity .capDict := by
  unfold registerUnit
  rw [h.eDict, eLookup_zipIdx]
  by_cases hm : [c] ∈ dict
  · rw [withUnit, if_pos hm] at hc
    rw [hc] at h0; cases h0
  · rw [withUnit, if_neg hm, List.length_append, List.length_singleton] at hc
    rw [if_neg hm]
    simp only
    rw [h.register_full [c] (by rw [← hc])]
    rfl

theorem emitBits_ok {x n : Nat} (hp : Packed s.curVar bs s.packer) (h : x < 2 ^ n) :
    ∃ p, emitBits x n s = .ok { s with packer := p } ∧ Packed s.curVar (bs ++ valueBits s.cfg.bitOrder x n) p :=
  ⟨_, emitBits_eq s h, hp.emitAll _⟩

theorem two_le_codeWidth {d : Nat} (h : 2 ≤ d) : 2 ≤ codeWidth d := by
  have : Nat.log2 d ≠ 0 := by
    intro h0
    have := @Nat.lt_log2_self d
    rw [h0] at this; omega
  unfold codeWidth; omega

/-- A code 0, 1 or 2 fits every width in use (R196). -/
theorem control_lt {d x : Nat} (h : 2 ≤ d) (hx : x ≤ 2) : x < 2 ^ codeWidth d := by
  have := Nat.pow_le_pow_right (show 0 < 2 by decide) (two_le_codeWidth h)
  omega

/-- `emitW()` writes the emission of `w` and moves the counters on (R186, R188). No emission overflows (R196). `dict'`
is the dictionary with the unit just read in it. -/
theorem Tracks.emitW_ok {dict' : List (List CodeUnit)} (h : Tracks s dict' sent d w bs) (hs : Sound dict sent d w)
    (hw : w ∈ dict') (hcode : codeOf dict' w = codeOf dict w) :
    ∃ p ct pe, emitW s = .ok { s with packer := p, ctr := ct, ePend := pe } ∧
      Tracks { s with packer := p, ctr := ct, ePend := pe } dict' (emission dict' sent d w).2.1
        (emission dict' sent d w).2.2 w (bs ++ (emission dict' sent d w).1.bits s.cfg.bitOrder) := by
  have hd0 : d ≠ 0 := by have := hs.two; omega
  have hnb : s.ctr.numBits = codeWidth d := h.ctr.1
  rcases pending_cases sent w with ⟨u, rfl, hu⟩ | hp
  · rw [emission_literal hu]
    have hmem : s.w ∈ s.ePend := (h.pend _).mpr ⟨u, h.w, hw, hu⟩
    have hlt : 1 < 2 ^ s.ctr.numBits := hnb ▸ control_lt hs.two (by decide)
    refine ⟨_, _, _, emitW_pending h.w hmem hlt, h.eDict, by simp [h.size], ?_, ?_, ?_, h.w⟩
    · exact (h.ctr.grow hd0).grow (by omega)
    · rw [hnb]; exact h.packed.emitAll _
    · intro x
      simp only [List.mem_filter, h.pend, h.w, bne_iff_ne, ne_eq]
      constructor
      · rintro ⟨⟨y, rfl, h2, h3⟩, h4⟩
        exact ⟨y, rfl, h2, by simpa [h3] using h4⟩
      · rintro ⟨y, rfl, h2, h3⟩
        simp only [List.mem_cons, not_or] at h3
        exact ⟨⟨y, rfl, h2, h3.2⟩, by simpa using h3.1⟩
  · rw [emission_reference hp]
    obtain ⟨hc3, hlt⟩ := hs.code_lt hp
    rw [← hcode] at hlt
    have hmem : s.w ∉ s.ePend := by
      rw [h.pend]
      rintro ⟨u, hu, -, hus⟩
      rw [h.w] at hu
      exact hp (by simp [hu, hus])
    have hl : eLookup s.eDict s.w = some (codeOf dict' w) := by
      rw [h.eDict, h.w, eLookup_zipIdx, if_pos hw]; rfl
    refine ⟨_, _, s.ePend, emitW_known (h.w ▸ hs.w_ne_nil) hmem hl (hnb ▸ hlt), h.eDict, by simp [h.size], h.ctr.grow hd0,
      ?_, h.pend, h.w⟩
    rw [hnb]; exact h.packed.emitAll _

/-- The extend case (R184). -/
theorem Tracks.encStep_extend (h : Tracks s dict sent d w bs) (hs : Sound dict sent d w)
    (hx : w ++ [s.c] ∈ withUnit dict s.c) :
    encStep s = .ok { s with w := w ++ [s.c] } ∧
      Tracks { s with w := w ++ [s.c] } dict sent d (w ++ [s.c]) bs := by
  obtain ⟨he, hs'⟩ := hs.extend hx
  have hc : [s.c] ∈ dict := by
    have := (mem_withUnit dict s.c [s.c]).mpr (.inr rfl)
    rwa [he] at this
  refine ⟨?_, h.eDict, h.size, h.ctr, h.packed, h.pend, rfl⟩
  rw [he] at hx
  unfold encStep registerUnit
  rw [h.eDict, eLookup_zipIdx, if_pos hc]
  simp only [bind_ok]
  rw [h.w, h.eDict, eLookup_zipIdx, if_pos hx]
  rfl

/-- The emit case (R185 to R190), where the dictionary has room. -/
theorem Tracks.encStep_emit (h : Tracks s dict sent d w bs) (hs : Sound dict sent d w)
    (hx : w ++ [s.c] ∉ withUnit dict s.c)
    (hc : exceeds s.cfg.dictCap ((withUnit dict s.c).length + 4) = false) :
    ∃ ed pe ct p, encStep s = .ok { s with eDict := ed, ePend := pe, ctr := ct, packer := p, w := [s.c] } ∧
      Tracks { s with eDict := ed, ePend := pe, ctr := ct, packer := p, w := [s.c] } (withUnit dict s.c ++ [w ++ [s.c]])
        (emission (withUnit dict s.c) sent d w).2.1 (emission (withUnit dict s.c) sent d w).2.2 [s.c]
        (bs ++ (emission (withUnit dict s.c) sent d w).1.bits s.cfg.bitOrder) := by
  obtain rfl := h.w
  have hc1 : exceeds s.cfg.dictCap ((withUnit dict s.c).length + 3) = false := by
    by_contra h1
    rw [exceeds_mono (show (withUnit dict s.c).length + 3 ≤ (withUnit dict s.c).length + 4 by omega)
      (by simpa using h1)] at hc
    cases hc
  obtain ⟨ed, pe, ct, e1, t1⟩ := h.registerUnit_ok hs s.c hc1
  obtain ⟨p, ct2, pe2, e2, t2⟩ := t1.emitW_ok hs ((mem_withUnit _ _ _).mpr (.inl hs.wIn)) (codeOf_withUnit hs.wIn s.c)
  have e3 := t2.register_ok (s.w ++ [s.c]) hc
  refine ⟨(withUnit dict s.c ++ [s.w ++ [s.c]]).zipIdx 3, pe2,
    { ct2 with dictSize := (withUnit dict s.c ++ [s.w ++ [s.c]]).length + 3 }, p, ?_, rfl, rfl, t2.ctr.setSize _, t2.packed,
    ?_, rfl⟩
  rotate_left
  · intro x
    rw [t2.pend]
    constructor
    · rintro ⟨u, rfl, h1, h2⟩; exact ⟨u, rfl, by simp [h1], h2⟩
    · rintro ⟨u, rfl, h1, h2⟩
      refine ⟨u, rfl, ?_, h2⟩
      rcases List.mem_append.mp h1 with h1 | h1
      · exact h1
      · have hne := hs.w_ne_nil
        have hl := congrArg List.length (List.mem_singleton.mp h1)
        have := List.length_pos_iff.mpr hne
        rw [List.length_append, List.length_singleton, List.length_singleton] at hl
        omega
  · unfold encStep
    rw [e1, bind_ok]
    have hl : eLookup ed (s.w ++ [s.c]) = none := by
      rw [show ed = (withUnit dict s.c).zipIdx 3 from t1.eDict, eLookup_zipIdx, if_neg hx]
    simp only [hl]
    rw [e2, bind_ok, e3, bind_ok]
    rfl

/-- The emit case where the dictionary is full (R200, R268). -/
theorem Tracks.encStep_full (h : Tracks s dict sent d w bs) (hs : Sound dict sent d w)
    (hx : w ++ [s.c] ∉ withUnit dict s.c) (h0 : exceeds s.cfg.dictCap (dict.length + 3) = false)
    (hc : exceeds s.cfg.dictCap ((withUnit dict s.c).length + 4) = true) : encStep s = capacity .capDict := by
  obtain rfl := h.w
  unfold encStep
  by_cases hc1 : exceeds s.cfg.dictCap ((withUnit dict s.c).length + 3) = true
  · rw [h.registerUnit_full s.c h0 hc1]; rfl
  · obtain ⟨ed, pe, ct, e1, t1⟩ := h.registerUnit_ok hs s.c (by simpa using hc1)
    obtain ⟨p, ct2, pe2, e2, t2⟩ := t1.emitW_ok hs ((mem_withUnit _ _ _).mpr (.inl hs.wIn)) (codeOf_withUnit hs.wIn s.c)
    have e3 := t2.register_full (s.w ++ [s.c]) hc
    rw [e1, bind_ok]
    have hl : eLookup ed (s.w ++ [s.c]) = none := by
      rw [show ed = (withUnit dict s.c).zipIdx 3 from t1.eDict, eLookup_zipIdx, if_neg hx]
    simp only [hl]
    rw [e2, bind_ok, e3]
    rfl

end

/-- The end of the encoding (R191 to R193): the last emission, the end code, the flush. -/
theorem Tracks.encFinal_ok {s : State} {dict : List (List CodeUnit)} {sent : List CodeUnit} {d : Nat}
    {w : List CodeUnit} {bs : List Bool} (h : Tracks s dict sent d w bs) (hs : Sound dict sent d w) :
    ∃ t, encFinal s = .ok t ∧ t.phase = .encPost ∧ t.outside = s.outside ∧ t.outMem = s.outMem ∧
      t.packer.sym = symbolsOf s.curVar (bs ++ streamBits s.cfg.bitOrder (encodeFrom dict sent d w []).1) ∧
      ∃ bs' q, Packed s.curVar bs' q ∧ t.packer = q.flush s.curVar := by
  obtain ⟨p, ct, pe, e1, t1⟩ := h.emitW_ok hs hs.wIn rfl
  have hd' : 2 ≤ (emission dict sent d w).2.2 := by
    have := hs.two
    rcases pending_cases sent w with ⟨u, rfl, hu⟩ | hp
    · rw [emission_literal hu]; simp only; omega
    · rw [emission_reference hp]; simp only; omega
  obtain ⟨q, e2, h2⟩ := emitBits_ok t1.packed (control_lt hd' (show 2 ≤ 2 from le_rfl))
  have hf : encFinal s = .ok { s with packer := q.flush s.curVar, ctr := ct, ePend := pe, phase := .encPost } := by
    unfold encFinal
    rw [e1, bind_ok]
    have hn := t1.ctr.1
    simp only at hn e2 ⊢
    rw [hn, e2]
    rfl
  refine ⟨_, hf, rfl, rfl, rfl, ?_, _, q, h2, rfl⟩
  simp only [h2.flush.1, encodeFrom, streamBits, List.flatMap_cons, List.flatMap_nil, List.append_nil, StreamItem.bits,
    List.append_assoc]

/-- The scan and the end of the encoding (R182 to R193): from any point of the scan, the engine reaches post-processing
with the symbols of the code stream, or ends with CAP_DICT where the dictionary would outgrow DICT_CAP. -/
theorem encScan_run (cs : List CodeUnit) {s : State} {dict : List (List CodeUnit)} {sent : List CodeUnit} {d : Nat}
    {w : List CodeUnit} {bs : List Bool} (h : Tracks s dict sent d w bs) (hs : Sound dict sent d w)
    (hph : s.phase = .encScan) (hcs : (inputUnits s (inputLength s)).drop s.inIdx = cs)
    (h0 : exceeds s.cfg.dictCap (dict.length + 3) = false) (k : Nat) :
    (exceeds s.cfg.dictCap (3 + (encodeFrom dict sent d w cs).2) = true →
      ∃ u, u.outside = s.outside ∧ u.outMem = s.outMem ∧
        engineRun (cs.length + 2 + k) s = .next (complete (.capacity .capDict) 0 u)) ∧
    (exceeds s.cfg.dictCap (3 + (encodeFrom dict sent d w cs).2) = false →
      ∃ t, t.phase = .encPost ∧ t.outside = s.outside ∧ t.outMem = s.outMem ∧
        t.packer.sym = symbolsOf s.curVar (bs ++ streamBits s.cfg.bitOrder (encodeFrom dict sent d w cs).1) ∧
        engineRun (cs.length + 2 + k) s = engineRun k t) := by
  induction cs generalizing s dict sent d w bs with
  | nil =>
    have hlen : ¬ s.inIdx < inputLength s := by
      have := List.drop_eq_nil_iff.mp hcs
      simpa using this
    have e1 : engineStep s = .next { s with phase := .encFinal } := by
      simp [engineStep, engineWork, hph, encScan, hlen]
    have t' : Tracks { s with phase := .encFinal } dict sent d w bs := ⟨h.eDict, h.size, h.ctr, h.packed, h.pend, h.w⟩
    obtain ⟨t, e2, p2, o2, m2, y2, -⟩ := t'.encFinal_ok hs
    constructor
    · intro hx
      simp only [encodeFrom, Nat.add_comm 3] at hx
      rw [hx] at h0; cases h0
    · intro _
      refine ⟨t, p2, o2, m2, y2, ?_⟩
      rw [show ([] : List CodeUnit).length + 2 + k = (k + 1) + 1 by simp; omega]
      rw [engineRun_step (by simp [hph]) e1, engineRun_step (t := t) (by simp)]
      simp [engineStep, engineWork, e2]
  | cons c cs ih =>
    have hlt : s.inIdx < inputLength s := by
      by_contra hge
      rw [List.drop_eq_nil_of_le (by simpa using hge)] at hcs
      cases hcs
    rw [List.drop_eq_getElem_cons (by simpa using hlt)] at hcs
    obtain ⟨hc, hcs'⟩ := List.cons.inj hcs
    have hcu : inUnit s s.inIdx = c := by rw [← hc]; simp [inputUnits]
    have t1 : Tracks { s with c := c, inIdx := s.inIdx + 1 } dict sent d w bs :=
      ⟨h.eDict, h.size, h.ctr, h.packed, h.pend, h.w⟩
    have hw : engineWork s = encStep { s with c := c, inIdx := s.inIdx + 1 } := by
      simp [engineWork, hph, encScan, hlt, hcu]
    rw [show (c :: cs).length + 2 + k = (cs.length + 2 + k) + 1 by simp; omega, encodeFrom_cons]
    by_cases hx : w ++ [c] ∈ withUnit dict c
    · rw [if_pos hx]
      obtain ⟨he, hs'⟩ := hs.extend hx
      obtain ⟨e1, t2⟩ := t1.encStep_extend hs hx
      have e2 : engineStep s = .next { s with c := c, inIdx := s.inIdx + 1, w := w ++ [c] } := by
        simp only [engineStep, hw, e1]
      rw [engineRun_step (by simp [hph]) e2]
      rw [he]
      exact ih t2 hs' hph hcs' h0
    · rw [if_neg hx]
      simp only
      by_cases hf : exceeds s.cfg.dictCap ((withUnit dict c).length + 4) = true
      · have e1 := t1.encStep_full hs hx h0 hf
        have e2 : engineStep s = .next (complete (.capacity .capDict) 0 s) := by
          simp only [engineStep, hw, e1, capacity]
        rw [engineRun_step (by simp [hph]) e2, engineRun_idle (by simp)]
        constructor
        · intro _; exact ⟨s, rfl, rfl, rfl⟩
        · intro hn
          have hle := le_encodeFrom_count cs (withUnit dict c ++ [w ++ [c]])
            (emission (withUnit dict c) sent d w).2.1 (emission (withUnit dict c) sent d w).2.2 [c]
          rw [List.length_append, List.length_singleton] at hle
          rw [exceeds_mono (show (withUnit dict c).length + 4 ≤ 3 + (encodeFrom (withUnit dict c ++ [w ++ [c]])
            (emission (withUnit dict c) sent d w).2.1 (emission (withUnit dict c) sent d w).2.2 [c] cs).2 by omega) hf] at hn
          cases hn
      · obtain ⟨ed, pe, ct, p, e1, t2⟩ := t1.encStep_emit hs hx (by simpa using hf)
        have e2 : engineStep s = .next { s with
            c := c, inIdx := s.inIdx + 1, eDict := ed, ePend := pe, ctr := ct, packer := p, w := [c] } := by
          simp only [engineStep, hw, e1]
        rw [engineRun_step (by simp [hph]) e2]
        have := ih t2 (hs.emit hx |> fun z => by rwa [emission_withUnit hs.wIn] ) hph hcs'
          (by rw [List.length_append, List.length_singleton]; simpa using hf)
        have hb (e : StreamItem) (es : List StreamItem) : bs ++ streamBits s.cfg.bitOrder (e :: es)
            = (bs ++ e.bits s.cfg.bitOrder) ++ streamBits s.cfg.bitOrder es := by
          simp [streamBits, List.append_assoc]
        rw [hb]
        exact this

end Sys2Proof.Machine
end

