-- ==== Sys2Proof/Laws/Compress.lean ====
section
/-! SUPPORT. A compress command from its start to its completion computes its function (R180 to R195). -/

namespace Sys2Proof.Machine

theorem mem_inputUnits_ne_nil {s : State} (h : inputLength s ≠ 0) : inputUnits s (inputLength s) ≠ [] := by
  intro hn
  have := congrArg List.length hn
  simp at this; exact h this

theorem countersFor_encStart : CountersFor { dictSize := 4, numBits := 2, enlargeIn := 2 } 2 := ⟨by decide, by decide⟩

/-- The first unit of the input is registered, becomes pending, and is the running substring (R183, R184). -/
theorem encStep_first {s : State} (h1 : s.eDict = []) (h2 : s.ePend = []) (h3 : s.w = [])
    (h4 : s.ctr = { dictSize := 3, numBits := 2, enlargeIn := 2 }) (hc : exceeds s.cfg.dictCap 4 = false) :
    encStep s = .ok { s with
      eDict := [([s.c], 3)], ePend := [[s.c]], ctr := { dictSize := 4, numBits := 2, enlargeIn := 2 },
      w := [s.c] } := by
  have hr : registerUnit s.c s = .ok { s with
      eDict := [([s.c], 3)], ePend := [[s.c]], ctr := { dictSize := 4, numBits := 2, enlargeIn := 2 } } := by
    simp [registerUnit, register, h1, h2, h4, hc, eLookup, pure, Except.pure]
  unfold encStep
  rw [hr, bind_ok]
  simp [h3, eLookup, pure, Except.pure]

/-- The engine started on a non-empty input completes with the ending and the output of `compressValue`, within N + 3
steps (R180 to R195, R300). -/
theorem compress_run {s : State} (hd : s.cfg.wf = true) (hn : inputLength s ≠ 0) (ht : s.tainted = false) (k : Nat) :
    ∃ t, engineRun (inputLength s + 3 + k) (encStart s) = .next t ∧
      CompletedFrom s t (compressValue s.cfg s.curVar (inputUnits s (inputLength s))).1
        (compressValue s.cfg s.curVar (inputUnits s (inputLength s))).2
        (compressValue s.cfg s.curVar (inputUnits s (inputLength s))).2 := by
  have hcap := Params.room_of_wf hd
  obtain ⟨c, cs, hcs⟩ := List.exists_cons_of_ne_nil (mem_inputUnits_ne_nil hn)
  have hlen : inputLength s = cs.length + 1 := by
    have := congrArg List.length hcs
    simpa using this
  have hu0 : inUnit s 0 = c := by
    have h0 : (inputUnits s (inputLength s))[0]? = some c := by rw [hcs]; rfl
    simpa [inputUnits, hlen] using h0
  -- the first unit is registered and becomes the running substring
  have hfirst : ∃ t, engineStep (encStart s) = .next t ∧ Tracks t [[c]] [] 2 [c] [] ∧ t.phase = .encScan ∧
      t.outside = s.outside ∧ t.outMem = s.outMem ∧ t.inIdx = 1 := by
    have hlt : (encStart s).inIdx < inputLength (encStart s) := show 0 < inputLength s by omega
    have hw := encStep_first (s := { encStart s with c := c, inIdx := 1 }) rfl rfl rfl rfl hcap
    have hw' : engineWork (encStart s) = encStep { encStart s with c := c, inIdx := 1 } := by
      show encScan (encStart s) = _
      unfold encScan
      rw [if_pos hlt, show inUnit (encStart s) (encStart s).inIdx = c from hu0]
      rfl
    refine ⟨{ encStart s with
        c := c, inIdx := 1, eDict := [([c], 3)], ePend := [[c]],
        ctr := { dictSize := 4, numBits := 2, enlargeIn := 2 }, w := [c] }, ?_,
      ⟨rfl, rfl, countersFor_encStart, packed_start _, ?_, rfl⟩, rfl, rfl, rfl, rfl⟩
    · unfold engineStep
      rw [hw', hw]
    · intro x
      simp
  obtain ⟨t, e1, tr, p1, o1, m1, i1⟩ := hfirst
  have hin : (inputUnits t (inputLength t)).drop t.inIdx = cs := by
    have hiu : inputUnits t (inputLength t) = c :: cs := by
      rw [← hcs]; simp only [inputUnits, outside_inUnit o1, outside_inputLength o1]
    rw [hiu, i1]; rfl
  have hcfg : t.cfg = s.cfg := outside_cfg o1
  have hvar : t.curVar = s.curVar := outside_curVar o1
  have run := encScan_run cs tr (sound_first c) p1 hin (by rw [hcfg]; exact hcap) (k + 1)
  rw [show inputLength s + 3 + k = (cs.length + 2 + (k + 1)) + 1 by omega, engineRun_step (by simp [encStart]) e1]
  have hfd : finalDictSize (c :: cs) = 3 + (encodeFrom [[c]] [] 2 [c] cs).2 := by
    rw [finalDictSize, encodeFrom_first]
  rw [hcs]
  unfold compressValue
  rw [hfd, ← hcfg]
  cases hx : exceeds t.cfg.dictCap (3 + (encodeFrom [[c]] [] 2 [c] cs).2)
  · simp only [Bool.false_eq_true, if_false]
    obtain ⟨u, pu, ou, mu, yu, ru⟩ := run.2 hx
    have hsym : post u.curVar u.packer.sym = compressed t.cfg.bitOrder s.curVar (c :: cs) := by
      rw [compressed, codeStream, encodeFrom_first, yu, outside_curVar ou, hvar, List.nil_append]
    have htn : u.tainted = false := by rw [outside_tainted ou, outside_tainted o1, ht]
    rw [ru]
    cases hox : exceeds t.cfg.outCap (compressed t.cfg.bitOrder s.curVar (c :: cs)).length
    · refine ⟨_, engineRun_step (by simp [pu]) (t := finish .ok
        (compressed t.cfg.bitOrder s.curVar (c :: cs)).length { u with
          outMem := Memory.writeSeq u.outMem 0 (compressed t.cfg.bitOrder s.curVar (c :: cs)) }) ?_ k |>.trans
        (engineRun_idle rfl k), ?_⟩
      · simp only [engineStep, engineWork, pu, encPost, hsym, outside_cfg ou, hox, Bool.false_eq_true, if_false]
        exact congrArg Host.Outcome.next (complete_untainted htn)
      · refine CompletedFrom.finish .ok _ (ou.trans o1) ?_ (fun _ => rfl)
        show Memory.writeSeq u.outMem 0 (compressed t.cfg.bitOrder s.curVar (c :: cs)) = _
        rw [mu, m1]
        rfl
    · refine ⟨_, engineRun_step (by simp [pu]) (t := finish (.capacity .capOut) 0 u) ?_ k |>.trans
        (engineRun_idle rfl k), ?_⟩
      · simp only [engineStep, engineWork, pu, encPost, hsym, outside_cfg ou, hox, if_true, capacity]
        rw [complete_untainted htn]
      · exact CompletedFrom.finish (.capacity .capOut) [] (ou.trans o1) (mu.trans m1) (by simp)
  · simp only [if_true]
    obtain ⟨u, ou, mu, ru⟩ := run.1 hx
    have htn : u.tainted = false := by rw [outside_tainted ou, outside_tainted o1, ht]
    rw [ru, complete_untainted htn]
    exact ⟨_, rfl, CompletedFrom.finish (.capacity .capDict) [] (ou.trans o1) (mu.trans m1) (by simp)⟩

end Sys2Proof.Machine
end

