-- ==== Sys2Proof/Laws/Unpacker.lean ====
section
/-! SUPPORT. What the unpacker can still read, and what each read answers (R128 to R133). -/

namespace Sys2Proof.Machine

/-- The unpacker `u` over the input `us` has `bs` left to read, and has fetched only symbols that carry bits. -/
structure Unread (v : Variant) (us : List CodeUnit) (u : Unpacker) (bs : List Bool) : Prop where
  bits  : bs = msbBits u.reg u.rem ++ suppliedBits v (us.drop u.idx)
  taken : ∀ x ∈ us.take u.idx, carriesBits v x = true
  rem   : u.rem < bpc v
  idx   : u.idx ≤ us.length

theorem suppliedBits_cons (v : Variant) (x : CodeUnit) (us : List CodeUnit) :
    suppliedBits v (x :: us) =
      if carriesBits v x then msbBits ((dec v x).getD 0) (bpc v) ++ suppliedBits v us else [] := by
  unfold suppliedBits
  rw [List.takeWhile_cons]
  split <;> simp

theorem shortage_cons (v : Variant) (x : CodeUnit) (us : List CodeUnit) :
    shortage v (x :: us) =
      if carriesBits v x then shortage v us
      else if isPad v x then .malformed .exhausted else .malformed .badSymbol := by
  cases h : carriesBits v x <;> simp [shortage, h]

theorem shortage_drop {v : Variant} {us : List CodeUnit} {i : Nat} (h : ∀ x ∈ us.take i, carriesBits v x = true) :
    shortage v (us.drop i) = shortage v us := by
  induction us generalizing i with
  | nil => simp
  | cons x us ih =>
    cases i with
    | zero => simp
    | succ i =>
      simp only [List.take_succ_cons, List.mem_cons, forall_eq_or_imp] at h
      rw [List.drop_succ_cons, ih h.2, shortage_cons, if_pos h.1]

theorem unread_start (v : Variant) (us : List CodeUnit) : Unread v us Unpacker.start (suppliedBits v us) where
  bits := by simp [Unpacker.start, msbBits]
  taken := by simp [Unpacker.start]
  rem := bpc_pos v
  idx := by simp [Unpacker.start]

theorem carriesBits_iff (v : Variant) (x : CodeUnit) :
    carriesBits v x = true ↔ isPad v x = false ∧ ∃ k, dec v x = some k := by
  simp [carriesBits, Option.isSome_iff_exists]

/-- `readBit()` takes the next bit, or raises the shortage (R128, R129). -/
theorem Unread.readBit {v : Variant} {us : List CodeUnit} {u : Unpacker} {bs : List Bool} {inp : Nat → CodeUnit}
    (h : Unread v us u bs) (hi : ∀ i (hi : i < us.length), inp i = us[i]) :
    match bs with
    | [] => u.readBit v us.length inp = .error (.raise (shortage v us))
    | b :: rest => ∃ u', u.readBit v us.length inp = .ok (b, u') ∧ Unread v us u' rest := by
  obtain ⟨hb, ht, hr, hx⟩ := h
  unfold Unpacker.readBit
  by_cases h0 : u.rem = 0
  · rw [if_pos h0]
    rw [h0, msbBits, List.nil_append] at hb
    unfold Unpacker.refill
    by_cases hn : us.length ≤ u.idx
    · rw [if_pos hn]
      rw [List.drop_eq_nil_of_le hn] at hb
      subst hb
      have : shortage v us = .malformed .exhausted := by
        rw [← shortage_drop ht, List.drop_eq_nil_of_le hn]; rfl
      rw [this]; rfl
    · have hlt : u.idx < us.length := by omega
      rw [if_neg hn, hi _ hlt]
      rw [List.drop_eq_getElem_cons hlt, suppliedBits_cons] at hb
      have hs := shortage_drop ht
      rw [List.drop_eq_getElem_cons hlt, shortage_cons] at hs
      by_cases hc : carriesBits v us[u.idx] = true
      · obtain ⟨hp, k, hk⟩ := (carriesBits_iff v _).mp hc
        rw [if_pos hc, hk, Option.getD_some] at hb
        obtain ⟨n, hn'⟩ : ∃ n, bpc v = n + 1 := ⟨bpc v - 1, by have := bpc_pos v; omega⟩
        rw [hn', msbBits, List.cons_append] at hb
        subst hb
        simp only [hp, hk, Bool.false_eq_true, if_false]
        refine ⟨{ reg := k, rem := n, idx := u.idx + 1 }, by simp [bind, Except.bind, pure, Except.pure, hn'],
          by simp, ?_, ?_, ?_⟩
        · intro x hx'
          simp only [List.take_add_one, List.getElem?_eq_getElem hlt, List.mem_append, Option.toList_some,
            List.mem_singleton] at hx'
          rcases hx' with hx' | rfl
          · exact ht x hx'
          · exact hc
        · simp only [hn']; omega
        · simp only; omega
      · rw [if_neg hc] at hb hs
        subst hb
        by_cases hp : isPad v us[u.idx] = true
        · rw [if_pos hp] at hs ⊢
          rw [← hs]; rfl
        · rw [if_neg hp] at hs ⊢
          have hd : dec v us[u.idx] = none := by
            simpa [carriesBits, hp] using hc
          rw [hd, ← hs]; rfl
  · rw [if_neg h0]
    obtain ⟨n, hn⟩ : ∃ n, u.rem = n + 1 := ⟨u.rem - 1, by omega⟩
    rw [hn, msbBits, List.cons_append] at hb
    subst hb
    refine ⟨{ u with rem := n }, by simp [bind, Except.bind, pure, Except.pure, hn], by simp, ht, ?_, hx⟩
    · simp only; omega

/-- Reading `k` bits: the next `k`, or the shortage (R131, R132). -/
theorem Unread.readBitList {v : Variant} {us : List CodeUnit} {inp : Nat → CodeUnit}
    (hi : ∀ i (hi : i < us.length), inp i = us[i]) (k : Nat) {u : Unpacker} {bs : List Bool} (h : Unread v us u bs) :
    if k ≤ bs.length then
      ∃ u', u.readBitList v us.length inp k = .ok (bs.take k, u') ∧ Unread v us u' (bs.drop k)
    else u.readBitList v us.length inp k = .error (.raise (shortage v us)) := by
  induction k generalizing u bs with
  | zero => exact ⟨u, by simp [Unpacker.readBitList], by simpa using h⟩
  | succ k ih =>
    have hb := h.readBit hi
    cases bs with
    | nil =>
      rw [if_neg (by simp)]
      simp only at hb
      rw [Unpacker.readBitList, hb]; rfl
    | cons b bs =>
      obtain ⟨u', hu, h'⟩ := hb
      have := ih h'
      by_cases hk : k ≤ bs.length
      · rw [if_pos hk] at this
        rw [if_pos (by simpa using hk)]
        obtain ⟨u'', hu', h''⟩ := this
        refine ⟨u'', ?_, by simpa using h''⟩
        rw [Unpacker.readBitList, hu]
        simp only [bind, Except.bind, hu', pure, Except.pure, List.take_succ_cons]
      · rw [if_neg hk] at this
        rw [if_neg (by simpa using hk), Unpacker.readBitList, hu]
        simp only [bind, Except.bind, this]

/-- `readBits(k)` (R131): the value of the next `k` bits, or the shortage. -/
theorem Unread.readBits {v : Variant} {us : List CodeUnit} {inp : Nat → CodeUnit}
    (hi : ∀ i (hi : i < us.length), inp i = us[i]) (o : BitOrder) (k : Nat) {u : Unpacker} {bs : List Bool}
    (h : Unread v us u bs) :
    match takeBits o k bs with
    | none => u.readBits v o us.length inp k = .error (.raise (shortage v us))
    | some (x, rest) => ∃ u', u.readBits v o us.length inp k = .ok (x, u') ∧ Unread v us u' rest := by
  have := h.readBitList hi k
  unfold takeBits Unpacker.readBits
  by_cases hk : k ≤ bs.length
  · rw [if_pos hk] at this ⊢
    obtain ⟨u', hu, h'⟩ := this
    exact ⟨u', by rw [hu]; rfl, h'⟩
  · rw [if_neg hk] at this ⊢
    rw [this]; rfl

/-- How many symbols have been fetched, from the bits that are left. -/
theorem Unread.idx_eq {v : Variant} {us : List CodeUnit} {u : Unpacker} {bs : List Bool} (h : Unread v us u bs) :
    u.idx = ((suppliedBits v us).length - bs.length + (bpc v - 1)) / bpc v := by
  have hb := bpc_pos v
  have hs : ∀ (i : Nat) (us : List CodeUnit), i ≤ us.length → (∀ x ∈ us.take i, carriesBits v x = true) →
      (suppliedBits v us).length = i * bpc v + (suppliedBits v (us.drop i)).length := by
    intro i
    induction i with
    | zero => simp
    | succ i ih =>
      intro us hl ht
      cases us with
      | nil => simp at hl
      | cons x us =>
        simp only [List.take_succ_cons, List.mem_cons, forall_eq_or_imp] at ht
        rw [suppliedBits_cons, if_pos ht.1, List.drop_succ_cons, List.length_append, msbBits_length,
          ih us (by simpa using hl) ht.2]
        ring
  have h1 := hs u.idx us h.idx h.taken
  have h2 : bs.length = u.rem + (suppliedBits v (us.drop u.idx)).length := by rw [h.bits]; simp
  have hr := h.rem
  symm
  rw [h1, h2]
  by_cases hz : u.idx = 0
  · rw [hz]
    rw [Nat.div_eq_of_lt]; omega
  · have : bpc v ≤ u.idx * bpc v := Nat.le_mul_of_pos_left _ (by omega)
    rw [show u.idx * bpc v + (suppliedBits v (us.drop u.idx)).length
        - (u.rem + (suppliedBits v (us.drop u.idx)).length) + (bpc v - 1) = (bpc v - 1 - u.rem) + u.idx * bpc v by omega]
    rw [Nat.add_mul_div_right _ _ hb, Nat.div_eq_of_lt (by omega), Nat.zero_add]

end Sys2Proof.Machine
end

