-- ==== Sys2Proof/Laws/Decoder.lean ====
section
/-! SUPPORT. The engine's decompress phases rebuild the output (R210 to R224): the registers hold what `decodeFrom`
has rebuilt, and each iteration moves it on by one code. -/

namespace Sys2Proof.Machine

/-- The placeholder entries 0 to 2 (R35, R210). -/
def placeholders : List (List CodeUnit) := [[Config.placeholder 0], [Config.placeholder 1], [Config.placeholder 2]]

/-- The decoder's registers hold what has been rebuilt from `us`, OUT its output after `m0`, and these bits are left. -/
structure Rebuilds (m0 : Memory) (us : List CodeUnit) (s : State) (r : Rebuilt) (bs : List Bool) : Prop where
  dDict    : s.dDict = placeholders ++ r.dict
  w        : s.w = r.w
  outIdx   : s.outIdx = r.out.length
  outMem   : s.outMem = Memory.writeSeq m0 0 r.out
  size     : s.ctr.dictSize = r.size
  ctr      : CountersFor s.ctr r.size
  unread   : Unread s.curVar us s.unpacker bs
  input    : inputUnits s (inputLength s) = us
  w_ne     : r.w ≠ []
  entry_ne : ∀ x ∈ r.dict, x ≠ []
  room     : exceeds s.cfg.outCap r.out.length = false

theorem countersFor_decStart : CountersFor { dictSize := 4, numBits := 3, enlargeIn := 4 } 4 := ⟨by decide, by decide⟩

theorem inUnit_eq_getElem {s : State} {us : List CodeUnit} (h : inputUnits s (inputLength s) = us) :
    us.length = inputLength s ∧ ∀ i (hi : i < us.length), inUnit s i = us[i] := by
  subst h
  exact ⟨by simp, fun i hi => by simp [inputUnits]⟩

/-- `readBits` of the running command: the value of the next bits, or the shortage (R131, R132). -/
theorem readBits_spec {s : State} {us : List CodeUnit} {bs : List Bool} (h : Unread s.curVar us s.unpacker bs)
    (hi : inputUnits s (inputLength s) = us) (k : Nat) :
    match takeBits s.cfg.bitOrder k bs with
    | none => readBits k s = .error (.raise (shortage s.curVar us))
    | some (x, rest) => ∃ u, readBits k s = .ok (x, { s with unpacker := u }) ∧ Unread s.curVar us u rest := by
  obtain ⟨hl, hg⟩ := inUnit_eq_getElem hi
  have := h.readBits hg s.cfg.bitOrder k
  unfold Machine.readBits
  rw [← hl]
  cases ht : takeBits s.cfg.bitOrder k bs with
  | none => rw [ht] at this; simp only; rw [this]; rfl
  | some p =>
    rw [ht] at this
    obtain ⟨u, hu, h'⟩ := this
    exact ⟨u, by rw [hu]; rfl, h'⟩

theorem readLiteral_spec {s : State} {us : List CodeUnit} {bs : List Bool} (h : Unread s.curVar us s.unpacker bs)
    (hi : inputUnits s (inputLength s) = us) (cd : Nat) :
    match takeLiteral s.cfg.bitOrder cd bs with
    | none => readLiteral cd s = .error (.raise (shortage s.curVar us))
    | some (x, rest) => ∃ u, readLiteral cd s = .ok (x, { s with unpacker := u }) ∧ Unread s.curVar us u rest := by
  have := readBits_spec h hi (if cd = 0 then 8 else 16)
  unfold takeLiteral readLiteral
  cases ht : takeBits s.cfg.bitOrder (if cd = 0 then 8 else 16) bs with
  | none => rw [ht] at this; simp only [Option.map_none]; rw [this]; rfl
  | some p =>
    rw [ht] at this
    obtain ⟨u, hu, h'⟩ := this
    simp only [Option.map_some]
    exact ⟨u, by rw [hu]; rfl, h'⟩

theorem shortage_ne_ok (v : Variant) (us : List CodeUnit) : shortage v us ≠ .ok := by
  unfold shortage; split
  · simp
  · split <;> simp

theorem Rebuilt.push_ne_ok {p : Params} {r : Rebuilt} {x : List CodeUnit} {e : Ending}
    (h : r.push p x = .error e) : e ≠ .ok := by
  unfold Rebuilt.push at h
  split at h
  · cases h; simp
  · rcases bind_eq_error.mp h with h | ⟨a, _, h⟩
    · unfold Rebuilt.add at h; split at h <;> cases h; simp
    · cases h

theorem add_push_ne_ok {p : Params} {r : Rebuilt} {u : CodeUnit} {e : Ending}
    (h : (Rebuilt.add p r [u] >>= fun r => r.push p [u]) = .error e) : e ≠ .ok := by
  rcases bind_eq_error.mp h with h | ⟨a, _, h⟩
  · unfold Rebuilt.add at h; split at h <;> cases h; simp
  · exact Rebuilt.push_ne_ok h

theorem entry_push_ne_ok {p : Params} {r : Rebuilt} {cd : Nat} {e : Ending}
    (h : (r.entry cd >>= r.push p) = .error e) : e ≠ .ok := by
  rcases bind_eq_error.mp h with h | ⟨a, _, h⟩
  · unfold Rebuilt.entry at h; split at h
    · cases h
    · split at h <;> cases h; simp
  · exact Rebuilt.push_ne_ok h

theorem takeBits_length {o : BitOrder} {n x : Nat} {bs rest : List Bool} (h : takeBits o n bs = some (x, rest)) :
    rest.length + n = bs.length := by
  unfold takeBits at h
  split at h
  · cases h; simp; omega
  · cases h

theorem takeLiteral_length {o : BitOrder} {cd : Nat} {x : CodeUnit} {bs rest : List Bool}
    (h : takeLiteral o cd bs = some (x, rest)) : rest.length ≤ bs.length := by
  unfold takeLiteral at h
  obtain ⟨⟨y, r⟩, h1, h2⟩ := Option.map_eq_some_iff.mp h
  cases h2
  have := takeBits_length h1
  simp only at this ⊢; omega

section
variable {m0 : Memory} {us : List CodeUnit} {s : State} {r : Rebuilt} {bs : List Bool}

theorem Rebuilt.size_ne_zero (r : Rebuilt) : r.size ≠ 0 := by simp [Rebuilt.size]

/-- `addEntry` (R229). -/
theorem Rebuilds.addEntry_spec (h : Rebuilds m0 us s r bs) (x : List CodeUnit) :
    match Rebuilt.add s.cfg r x with
    | .error e => addEntry x s = .error (.raise e)
    | .ok r' => r' = { r with dict := r.dict ++ [x] } ∧
        addEntry x s = .ok { s with
          dDict := placeholders ++ (r.dict ++ [x]), ctr := { s.ctr with dictSize := r.size + 1 } } := by
  unfold Rebuilt.add addEntry
  rw [h.size, h.dDict]
  split
  · rename_i h1; split at h1
    · rename_i h2; cases h1; rw [if_pos h2]; rfl
    · cases h1
  · rename_i h1; split at h1
    · cases h1
    · rename_i h2; cases h1; rw [if_neg h2]; exact ⟨rfl, by rw [List.append_assoc]⟩

/-- Entry resolution (R219, R220) of a code that is no control code. -/
theorem Rebuilds.resolve_spec (h : Rebuilds m0 us s r bs) (h3 : 3 ≤ s.cd) :
    match r.entry s.cd with
    | .error e => resolve s = .error (.raise e)
    | .ok x => x ≠ [] ∧ resolve s = .ok x := by
  unfold Rebuilt.entry resolve
  rw [h.size]
  by_cases h1 : s.cd < r.size
  · rw [if_pos h1, if_pos h1]
    have hl : s.cd - 3 < r.dict.length := by unfold Rebuilt.size at h1; omega
    have hg : s.dDict[s.cd]? = some r.dict[s.cd - 3] := by
      rw [h.dDict, List.getElem?_append_right (by simpa [placeholders] using h3)]
      simp [placeholders, hl]
    have hd : r.dict.getD (s.cd - 3) [] = r.dict[s.cd - 3] := by simp [List.getD, hl]
    rw [hg]
    simp only [hd, and_true]
    exact h.entry_ne _ (List.getElem_mem hl)
  · rw [if_neg h1, if_neg h1]
    by_cases h2 : s.cd = r.size
    · rw [if_pos h2, if_pos h2, h.w]
      rcases hw : r.w with _ | ⟨a, t⟩
      · exact absurd hw h.w_ne
      · exact ⟨by simp, by simp⟩
    · rw [if_neg h2, if_neg h2]; rfl

/-- What follows a code (R219 to R223): resolved, output, registered, or the condition that ends the command. -/
theorem Rebuilds.decEntry_spec (h : Rebuilds m0 us s r bs) (h3 : 3 ≤ s.cd) :
    match r.entry s.cd >>= r.push s.cfg with
    | .error e => decEntry s = .error (.raise e)
    | .ok r' => ∃ t, decEntry s = .ok t ∧ t.outside = s.outside ∧ t.phase = s.phase ∧ Rebuilds m0 us t r' bs := by
  have hr := h.resolve_spec h3
  unfold decEntry
  cases he : r.entry s.cd with
  | error e => rw [he] at hr; simp only [bind_error]; rw [hr]; rfl
  | ok x =>
    rw [he] at hr
    obtain ⟨hx, hr⟩ := hr
    simp only [bind_ok]
    rw [hr, bind_ok]
    have hout : exceeds s.cfg.outCap (s.outIdx + x.length) = exceeds s.cfg.outCap (r.out.length + x.length) := by
      rw [h.outIdx]
    unfold Rebuilt.push
    by_cases hc : exceeds s.cfg.outCap (r.out.length + x.length) = true
    · rw [if_pos hc]
      simp only
      rw [output_full (s := { s with entry := x }) (by simpa [hout] using hc) (by simpa [h.outIdx] using h.room)]
      rfl
    · rw [if_neg hc]
      rw [output_ok (s := { s with entry := x }) (by simpa [hout] using hc), bind_ok]
      obtain ⟨a, x', rfl⟩ := List.exists_cons_of_ne_nil hx
      simp only [List.take_succ_cons, List.take_zero]
      have hreb : Rebuilds m0 us { s with
            entry := a :: x', outMem := Memory.writeSeq s.outMem s.outIdx (a :: x'), outIdx := s.outIdx + (a :: x').length }
          { r with out := r.out ++ (a :: x') } bs :=
        { h with
          outIdx := by simp [h.outIdx]
          outMem := by
            show Memory.writeSeq s.outMem s.outIdx (a :: x') = _
            rw [Memory.writeSeq_append, h.outMem, h.outIdx, Nat.zero_add]
          room := by simpa using hc }
      have hadd := hreb.addEntry_spec (r.w ++ [a])
      simp only [← h.w] at hadd ⊢
      cases ha : Rebuilt.add s.cfg { r with w := s.w, out := r.out ++ (a :: x') } (s.w ++ [a]) with
      | error e =>
        rw [ha] at hadd
        simp only at hadd
        simp only [bind_error, hadd]
      | ok r' =>
        rw [ha] at hadd
        obtain ⟨rfl, hadd⟩ := hadd
        simp only [bind_ok, hadd]
        refine ⟨_, rfl, rfl, rfl, ?_⟩
        exact {
          dDict := rfl
          w := rfl
          outIdx := by simp [decGrow, h.outIdx]
          outMem := hreb.outMem
          size := by
            simp only [decGrow, Counters.grow_dictSize, Rebuilt.size, List.length_append, List.length_singleton]
          ctr := by
            have := h.ctr.grow r.size_ne_zero
            unfold Rebuilt.size at this ⊢
            simp only [List.length_append, List.length_singleton]
            rw [show r.dict.length + 1 + 3 = r.dict.length + 3 + 1 by omega]
            exact CountersFor.grow (c := { s.ctr with dictSize := _ }) h.ctr (by omega)
          unread := h.unread
          input := h.input
          w_ne := by simp
          entry_ne := by
            intro y hy
            rcases List.mem_append.mp hy with hy | hy
            · exact h.entry_ne y hy
            · rw [List.mem_singleton.mp hy]; simp
          room := by
            show exceeds s.cfg.outCap _ = false
            simpa using hc }

/-- A literal code (R216): its entry is registered, and its index is the code. -/
theorem Rebuilds.decLiteral_spec (h : Rebuilds m0 us s r bs) {cd : Nat} {u : CodeUnit} {rest : List Bool}
    (hl : takeLiteral s.cfg.bitOrder cd bs = some (u, rest)) :
    match Rebuilt.add s.cfg r [u] with
    | .error e => decLiteral cd s = .error (.raise e)
    | .ok r' => r' = { r with dict := r.dict ++ [[u]] } ∧ ∃ t, decLiteral cd s = .ok t ∧ t.outside = s.outside ∧
        t.phase = s.phase ∧ t.cd = r.size ∧ Rebuilds m0 us t r' rest := by
  have hlit := readLiteral_spec h.unread h.input cd
  rw [hl] at hlit
  obtain ⟨up, hu, hun⟩ := hlit
  have hreb : Rebuilds m0 us { s with unpacker := up } r rest := { h with unread := hun }
  have hadd := hreb.addEntry_spec [u]
  unfold decLiteral
  rw [hu, bind_ok]
  simp only at hadd ⊢
  cases ha : Rebuilt.add s.cfg r [u] with
  | error e => rw [ha] at hadd; simp only at hadd; simp only [hadd, bind_error]
  | ok r' =>
    rw [ha] at hadd
    obtain ⟨rfl, hadd⟩ := hadd
    rw [hadd, bind_ok]
    refine ⟨rfl, _, rfl, rfl, rfl, rfl, ?_⟩
    exact {
      dDict := rfl
      w := h.w
      outIdx := h.outIdx
      outMem := h.outMem
      size := by
        simp only [decGrow, Counters.grow_dictSize, Rebuilt.size, List.length_append, List.length_singleton]
      ctr := by
        unfold Rebuilt.size
        simp only [List.length_append, List.length_singleton]
        rw [show r.dict.length + 1 + 3 = r.dict.length + 3 + 1 by omega]
        exact CountersFor.grow (c := { s.ctr with dictSize := _ }) h.ctr (by omega)
      unread := hun
      input := h.input
      w_ne := h.w_ne
      entry_ne := by
        intro y hy
        rcases List.mem_append.mp hy with hy | hy
        · exact h.entry_ne y hy
        · rw [List.mem_singleton.mp hy]; simp
      room := h.room }

/-- One iteration of the loop (R214 to R223). -/
theorem Rebuilds.decLoop_spec (h : Rebuilds m0 us s r bs) :
    match takeBits s.cfg.bitOrder (codeWidth r.size) bs with
    | none => decLoop s = .error (.raise (shortage s.curVar us))
    | some (cd, rest) =>
      if cd = 2 then
        ∃ t, decLoop s = .ok t ∧ t.outside = s.outside ∧ t.phase = .decDrain ∧ t.outMem = s.outMem ∧
          t.outIdx = s.outIdx ∧ Unread s.curVar us t.unpacker rest
      else if cd < 2 then
        match takeLiteral s.cfg.bitOrder cd rest with
        | none => decLoop s = .error (.raise (shortage s.curVar us))
        | some (u, rest) =>
          match Rebuilt.add s.cfg r [u] >>= fun r => r.push s.cfg [u] with
          | .error e => decLoop s = .error (.raise e)
          | .ok r' => ∃ t, decLoop s = .ok t ∧ t.outside = s.outside ∧ t.phase = s.phase ∧ Rebuilds m0 us t r' rest
      else
        match r.entry cd >>= r.push s.cfg with
        | .error e => decLoop s = .error (.raise e)
        | .ok r' => ∃ t, decLoop s = .ok t ∧ t.outside = s.outside ∧ t.phase = s.phase ∧ Rebuilds m0 us t r' rest := by
  have hb := readBits_spec h.unread h.input (codeWidth r.size)
  unfold decLoop
  rw [h.ctr.1]
  cases ht : takeBits s.cfg.bitOrder (codeWidth r.size) bs with
  | none => rw [ht] at hb; simp only at hb ⊢; rw [hb]; rfl
  | some p =>
    obtain ⟨cd, rest⟩ := p
    rw [ht] at hb
    obtain ⟨up, hu, hun⟩ := hb
    simp only
    rw [hu, bind_ok]
    have hreb : Rebuilds m0 us { s with unpacker := up, cd := cd } r rest := { h with unread := hun }
    by_cases h2 : cd = 2
    · rw [if_pos h2]
      simp only [if_pos h2]
      exact ⟨_, rfl, rfl, rfl, rfl, rfl, hun⟩
    · rw [if_neg h2]
      simp only [if_neg h2]
      by_cases h1 : cd < 2
      · rw [if_pos h1]
        simp only [if_pos h1]
        have hlit := readLiteral_spec hreb.unread hreb.input cd
        cases hl : takeLiteral s.cfg.bitOrder cd rest with
        | none =>
          simp only at hlit ⊢
          rw [hl] at hlit
          simp only at hlit
          unfold decLiteral
          rw [hlit]; rfl
        | some q =>
          obtain ⟨u, rest'⟩ := q
          have hd := hreb.decLiteral_spec hl
          simp only at hd ⊢
          cases ha : Rebuilt.add s.cfg r [u] with
          | error e => rw [ha] at hd; simp only at hd; simp only [bind_error]; rw [hd]; rfl
          | ok r1 =>
            rw [ha] at hd
            obtain ⟨hr1, t, e1, o1, p1, c1, hreb1⟩ := hd
            have he := hreb1.decEntry_spec (by rw [c1]; simp [Rebuilt.size])
            have hent : r1.entry t.cd = .ok [u] := by
              rw [c1, hr1]
              unfold Rebuilt.entry Rebuilt.size
              simp [List.getD]
            have hcfg : t.cfg = s.cfg := outside_cfg o1
            rw [hent, bind_ok, hcfg] at he
            simp only [bind_ok]
            rw [e1, bind_ok]
            cases hp : r1.push s.cfg [u] with
            | error e => rw [hp] at he; exact he
            | ok r2 =>
              rw [hp] at he
              obtain ⟨t2, e2, o2, p2, hreb2⟩ := he
              exact ⟨t2, e2, o2.trans o1, p2.trans p1, hreb2⟩
      · rw [if_neg h1]
        simp only [if_neg h1]
        have he := hreb.decEntry_spec (show 3 ≤ cd by omega)
        simp only at he
        exact he

end

/-- How a run of the decoder stands after the codes: it reaches the drain with the output of `decodeFrom`, or ends
with its condition. -/
theorem decLoop_run (fuel : Nat) {m0 : Memory} {us : List CodeUnit} {s : State} {r : Rebuilt} {bs : List Bool}
    (h : Rebuilds m0 us s r bs) (hp : s.phase = .decLoop) (hf : bs.length ≤ fuel) :
    ∃ j, j ≤ bs.length + 1 ∧
      if (decodeFrom s.cfg (shortage s.curVar us) fuel r bs).1 = .ok then
        ∃ t, t.outside = s.outside ∧ t.phase = .decDrain ∧
          t.outMem = Memory.writeSeq m0 0 (decodeFrom s.cfg (shortage s.curVar us) fuel r bs).2.1.out ∧
          t.outIdx = (decodeFrom s.cfg (shortage s.curVar us) fuel r bs).2.1.out.length ∧
          Unread s.curVar us t.unpacker (decodeFrom s.cfg (shortage s.curVar us) fuel r bs).2.2 ∧
          ∀ k, engineRun (j + k) s = engineRun k t
      else
        ∃ u, u.outside = s.outside ∧
          u.outMem = Memory.writeSeq m0 0 (decodeFrom s.cfg (shortage s.curVar us) fuel r bs).2.1.out ∧
          ∀ k, engineRun (j + k) s =
            .next (complete (decodeFrom s.cfg (shortage s.curVar us) fuel r bs).1 0 u) := by
  have hb : s.phase ≠ .idle := by rw [hp]; decide
  have hraise {e : Ending} (he : e ≠ .ok) (hl : decLoop s = .error (.raise e)) :
      ∃ u, u.outside = s.outside ∧ u.outMem = Memory.writeSeq m0 0 r.out ∧
          ∀ k, engineRun (1 + k) s = .next (complete e 0 u) := by
    refine ⟨s, rfl, h.outMem, fun k => ?_⟩
    rw [Nat.add_comm, engineRun_step hb (t := complete e 0 s) (by simp [engineStep, engineWork, hp, hl]),
      engineRun_idle (by simp)]
  have hshort : shortage s.curVar us ≠ .ok := shortage_ne_ok _ _
  have hstep {t : State} (hl : decLoop s = .ok t) : engineStep s = .next t := by
    simp [engineStep, engineWork, hp, hl]
  induction fuel generalizing s r bs with
  | zero =>
    have hnil : bs = [] := List.length_eq_zero_iff.mp (by omega)
    have hsp := h.decLoop_spec
    have hnone : takeBits s.cfg.bitOrder (codeWidth r.size) bs = none := by
      rw [hnil, takeBits, if_neg]; simp [codeWidth]
    rw [hnone] at hsp
    refine ⟨1, by omega, ?_⟩
    simp only [decodeFrom, hshort, if_false]
    exact hraise hshort hsp
  | succ fuel ih =>
    have hsp := h.decLoop_spec
    rw [decodeFrom]
    cases ht : takeBits s.cfg.bitOrder (codeWidth r.size) bs with
    | none =>
      rw [ht] at hsp
      refine ⟨1, by omega, ?_⟩
      simp only [hshort, if_false]
      exact hraise hshort hsp
    | some q =>
      obtain ⟨cd, rest⟩ := q
      rw [ht] at hsp
      have hlen := takeBits_length ht
      have hcw := codeWidth_pos r.size
      simp only at hsp ⊢
      have hgo {t : State} {r' : Rebuilt} {rest' : List Bool} (e1 : decLoop s = .ok t) (o1 : t.outside = s.outside)
          (p1 : t.phase = s.phase) (hr : Rebuilds m0 us t r' rest') (hl : rest'.length ≤ rest.length) :
          ∃ j, j ≤ bs.length + 1 ∧
            if (decodeFrom s.cfg (shortage s.curVar us) fuel r' rest').1 = .ok then
              ∃ t, t.outside = s.outside ∧ t.phase = .decDrain ∧
                t.outMem = Memory.writeSeq m0 0 (decodeFrom s.cfg (shortage s.curVar us) fuel r' rest').2.1.out ∧
                t.outIdx = (decodeFrom s.cfg (shortage s.curVar us) fuel r' rest').2.1.out.length ∧
                Unread s.curVar us t.unpacker (decodeFrom s.cfg (shortage s.curVar us) fuel r' rest').2.2 ∧
                ∀ k, engineRun (j + k) s = engineRun k t
            else
              ∃ u, u.outside = s.outside ∧
                u.outMem = Memory.writeSeq m0 0 (decodeFrom s.cfg (shortage s.curVar us) fuel r' rest').2.1.out ∧
                ∀ k, engineRun (j + k) s =
                  .next (complete (decodeFrom s.cfg (shortage s.curVar us) fuel r' rest').1 0 u) := by
        have hcfg := outside_cfg o1
        have hvar := outside_curVar o1
        have hpt := p1.trans hp
        have hbt : t.phase ≠ .idle := by rw [hpt]; decide
        obtain ⟨j, hj, hrun⟩ := ih hr hpt (by omega) hbt
          (fun {e} he hl => ⟨t, rfl, hr.outMem, fun k => by
            rw [Nat.add_comm, engineRun_step hbt (t := complete e 0 t) (by simp [engineStep, engineWork, hpt, hl]),
              engineRun_idle (by simp)]⟩)
          (shortage_ne_ok _ _) (fun hl => by simp [engineStep, engineWork, hpt, hl])
        refine ⟨j + 1, by omega, ?_⟩
        rw [hcfg, hvar] at hrun
        have hadd (k : Nat) : engineRun (j + 1 + k) s = engineRun (j + k) t := by
          rw [show j + 1 + k = j + k + 1 by omega, engineRun_step hb (hstep e1)]
        split at hrun
        · rename_i hok
          obtain ⟨t2, o2, p2, m2, i2, u2, r2⟩ := hrun
          rw [if_pos hok]
          exact ⟨t2, o2.trans o1, p2, m2, i2, u2, fun k => (hadd k).trans (r2 k)⟩
        · rename_i hok
          obtain ⟨u, o2, m2, r2⟩ := hrun
          rw [if_neg hok]
          exact ⟨u, o2.trans o1, m2, fun k => (hadd k).trans (r2 k)⟩
      by_cases h2 : cd = 2
      · simp only [if_pos h2] at hsp ⊢
        obtain ⟨t, e1, o1, p1, m1, i1, u1⟩ := hsp
        refine ⟨1, by omega, ?_⟩
        simp only [if_true]
        refine ⟨t, o1, p1, m1.trans h.outMem, i1.trans h.outIdx, u1, fun k => ?_⟩
        rw [Nat.add_comm, engineRun_step hb (hstep e1)]
      · simp only [if_neg h2] at hsp ⊢
        by_cases h1 : cd < 2
        · simp only [if_pos h1] at hsp ⊢
          cases hl : takeLiteral s.cfg.bitOrder cd rest with
          | none =>
            rw [hl] at hsp
            refine ⟨1, by omega, ?_⟩
            simp only [hshort, if_false]
            exact hraise hshort hsp
          | some q =>
            obtain ⟨u, rest'⟩ := q
            rw [hl] at hsp
            have hl' := takeLiteral_length hl
            simp only at hsp ⊢
            cases ha : (Rebuilt.add s.cfg r [u] >>= fun r => r.push s.cfg [u]) with
            | error e =>
              rw [ha] at hsp
              have hne : e ≠ .ok := add_push_ne_ok ha
              refine ⟨1, by omega, ?_⟩
              simp only [hne, if_false]
              exact hraise hne hsp
            | ok r' =>
              rw [ha] at hsp
              obtain ⟨t, e1, o1, p1, hr⟩ := hsp
              exact hgo e1 o1 p1 hr hl'
        · simp only [if_neg h1] at hsp ⊢
          cases ha : (r.entry cd >>= r.push s.cfg) with
          | error e =>
            rw [ha] at hsp
            have hne : e ≠ .ok := entry_push_ne_ok ha
            refine ⟨1, by omega, ?_⟩
            simp only [hne, if_false]
            exact hraise hne hsp
          | ok r' =>
            rw [ha] at hsp
            obtain ⟨t, e1, o1, p1, hr⟩ := hsp
            exact hgo e1 o1 p1 hr le_rfl

end Sys2Proof.Machine
end

