-- ==== Sys2Proof/Laws/Decompress.lean ====
section
/-! SUPPORT. A decompress command from its start to its completion computes its function (R210 to R224). -/

namespace Sys2Proof.Machine

/-- `drainCheck` passes exactly when every unit it looks at is drainable (R134). -/
theorem drainCheck_spec (v : Variant) (inp : Nat → CodeUnit) (k i : Nat) :
    drainCheck v inp i k =
      if ((List.range' i k).map inp).all (drainable v) then .ok () else .error (.raise (.malformed .badSymbol)) := by
  induction k generalizing i with
  | zero => rfl
  | succ k ih =>
    rw [drainCheck, ih, List.range'_succ, List.map_cons, List.all_cons]
    cases drainable v (inp i) <;> rfl

theorem drop_inputUnits (s : State) (n i : Nat) :
    (inputUnits s n).drop i = (List.range' i (n - i)).map (inUnit s) := by
  unfold inputUnits
  rw [← List.map_drop, List.range_eq_range', List.drop_range']
  simp

theorem suppliedBits_length_le (v : Variant) (us : List CodeUnit) : (suppliedBits v us).length ≤ 16 * us.length := by
  induction us with
  | nil => simp [suppliedBits]
  | cons x us ih =>
    rw [suppliedBits_cons]
    split
    · have := bpc_le v
      simp only [List.length_append, msbBits_length, List.length_cons]; omega
    · simp

/-- The first code and the first literal (R212, R213). -/
theorem decFirst_spec {s : State} {us : List CodeUnit} (hi : inputUnits s (inputLength s) = us) :
    match takeBits s.cfg.bitOrder 2 (suppliedBits s.curVar us) with
    | none => decFirst (decStart s) = .error (.raise (shortage s.curVar us))
    | some (cd, rest) =>
      if cd < 2 then
        match takeLiteral s.cfg.bitOrder cd rest with
        | none => decFirst (decStart s) = .error (.raise (shortage s.curVar us))
        | some (u, rest) =>
          if exceeds s.cfg.outCap 1 then decFirst (decStart s) = .error (.raise (.capacity .capOut))
          else ∃ t, decFirst (decStart s) = .ok t ∧ t.outside = s.outside ∧ t.phase = .decLoop ∧
            Rebuilds s.outMem us t { dict := [[u]], w := [u], out := [u] } rest
      else decFirst (decStart s) = .error (.raise (.malformed .badFirstCode)) := by
  have hb := readBits_spec (s := decStart s) (unread_start s.curVar us) hi 2
  unfold decFirst
  cases ht : takeBits s.cfg.bitOrder 2 (suppliedBits s.curVar us) with
  | none => rw [show takeBits (decStart s).cfg.bitOrder 2 _ = none from ht] at hb; simp only at hb ⊢; rw [hb]; rfl
  | some p =>
    obtain ⟨cd, rest⟩ := p
    rw [show takeBits (decStart s).cfg.bitOrder 2 _ = some (cd, rest) from ht] at hb
    obtain ⟨up, hu, hun⟩ := hb
    simp only
    rw [hu, bind_ok]
    by_cases h1 : cd < 2
    · rw [if_pos h1]
      simp only [if_pos h1]
      have hlit := readLiteral_spec (s := { decStart s with unpacker := up }) hun hi cd
      cases hl : takeLiteral s.cfg.bitOrder cd rest with
      | none =>
        rw [show takeLiteral ({ decStart s with unpacker := up } : State).cfg.bitOrder cd rest = none from hl] at hlit
        simp only at hlit ⊢
        rw [hlit]; rfl
      | some q =>
        obtain ⟨u, rest'⟩ := q
        rw [show takeLiteral ({ decStart s with unpacker := up } : State).cfg.bitOrder cd rest = some (u, rest') from hl]
          at hlit
        obtain ⟨up', hu', hun'⟩ := hlit
        simp only
        rw [hu', bind_ok]
        cases hc : exceeds s.cfg.outCap 1
        · rw [if_neg (by simp)]
          refine ⟨_, output_ok (us := [u]) (by simpa [decStart] using hc), rfl, rfl, ?_⟩
          exact {
            dDict := rfl
            w := rfl
            outIdx := rfl
            outMem := rfl
            size := rfl
            ctr := countersFor_decStart
            unread := hun'
            input := hi
            w_ne := by simp
            entry_ne := by simp
            room := hc }
        · rw [if_pos rfl]
          exact output_full (us := [u]) (by simpa [decStart] using hc) (by simp [decStart, exceeds]; split <;> simp)
    · rw [if_neg h1]
      simp only [if_neg h1]
      rfl

/-- The engine started on a non-empty input completes with the ending and the output of `decompressValue`, within
16·N + 3 steps (R210 to R224, R300). -/
theorem decompress_run {s : State} (ht : s.tainted = false) :
    ∃ j t, j ≤ 16 * inputLength s + 3 ∧ (∀ k, engineRun (j + k) (decStart s) = .next t) ∧
      CompletedFrom s t (decompressValue s.cfg s.curVar (inputUnits s (inputLength s))).1
        (decompressValue s.cfg s.curVar (inputUnits s (inputLength s))).2
        (decodeBits s.cfg (shortage s.curVar (inputUnits s (inputLength s)))
          (suppliedBits s.curVar (inputUnits s (inputLength s)))).2.1.out := by
  obtain ⟨us, hus⟩ : ∃ us, us = inputUnits s (inputLength s) := ⟨_, rfl⟩
  rw [← hus]
  have hN : us.length = inputLength s := by rw [hus]; simp
  have hlen := suppliedBits_length_le s.curVar us
  have hb : (decStart s).phase ≠ .idle := by simp [decStart]
  have hspec := decFirst_spec hus.symm
  have hraise {e : Ending} (he : e ≠ .ok) (hl : decFirst (decStart s) = .error (.raise e)) :
      ∃ j t, j ≤ 16 * inputLength s + 3 ∧ (∀ k, engineRun (j + k) (decStart s) = .next t) ∧
        CompletedFrom s t e [] [] := by
    refine ⟨1, finish e 0 (decStart s), by omega, fun k => ?_, ?_⟩
    · have hs : engineStep (decStart s) = .next (finish e 0 (decStart s)) := by
        rw [← complete_untainted (s := decStart s) ht]
        unfold engineStep
        rw [show engineWork (decStart s) = decFirst (decStart s) from rfl, hl]
      rw [Nat.add_comm, engineRun_step hb hs, engineRun_idle rfl]
    · exact CompletedFrom.finish e [] rfl rfl (fun h => absurd h he)
  have hshort := shortage_ne_ok s.curVar us
  have hval {e : Ending} (he : e ≠ .ok)
      (h : (decodeBits s.cfg (shortage s.curVar us) (suppliedBits s.curVar us)).1 = e) :
      decompressValue s.cfg s.curVar us = (e, []) := by
    unfold decompressValue
    simp only
    rcases hd : decodeBits s.cfg (shortage s.curVar us) (suppliedBits s.curVar us) with ⟨e', r, rest⟩
    rw [hd] at h
    simp only at h
    subst h
    cases e' <;> first | exact absurd rfl he | rfl
  cases ht2 : takeBits s.cfg.bitOrder 2 (suppliedBits s.curVar us) with
  | none =>
    rw [ht2] at hspec
    have hd : decodeBits s.cfg (shortage s.curVar us) (suppliedBits s.curVar us)
        = (shortage s.curVar us, { dict := [], w := [], out := [] }, suppliedBits s.curVar us) := by
      unfold decodeBits; rw [ht2]
    rw [hval hshort (by rw [hd]), hd]
    exact hraise hshort hspec
  | some p =>
    obtain ⟨cd, rest⟩ := p
    rw [ht2] at hspec
    have hl2 := takeBits_length ht2
    simp only at hspec
    by_cases h1 : cd < 2
    · rw [if_pos h1] at hspec
      cases hl : takeLiteral s.cfg.bitOrder cd rest with
      | none =>
        rw [hl] at hspec
        have hd : decodeBits s.cfg (shortage s.curVar us) (suppliedBits s.curVar us)
            = (shortage s.curVar us, { dict := [], w := [], out := [] }, rest) := by
          unfold decodeBits; rw [ht2]; simp only [if_pos h1, hl]
        rw [hval hshort (by rw [hd]), hd]
        exact hraise hshort hspec
      | some q =>
        obtain ⟨u, bs⟩ := q
        rw [hl] at hspec
        have hl3 := takeLiteral_length hl
        simp only at hspec
        cases hc : exceeds s.cfg.outCap 1
        · rw [if_neg (by simp [hc])] at hspec
          obtain ⟨t, e1, o1, p1, hr⟩ := hspec
          have hdec : decodeBits s.cfg (shortage s.curVar us) (suppliedBits s.curVar us)
              = decodeFrom s.cfg (shortage s.curVar us) bs.length { dict := [[u]], w := [u], out := [u] } bs := by
            unfold decodeBits; rw [ht2]; simp only [if_pos h1, hl, hc, Bool.false_eq_true, if_false]
          have hcfg := outside_cfg o1
          have hvar := outside_curVar o1
          obtain ⟨j, hj, hrun⟩ := decLoop_run bs.length hr p1 le_rfl
          rw [hcfg, hvar, ← hdec] at hrun
          have hs : engineStep (decStart s) = .next t := by
            unfold engineStep
            rw [show engineWork (decStart s) = decFirst (decStart s) from rfl, e1]
          have hfirst (k : Nat) : engineRun (j + 1 + k) (decStart s) = engineRun (j + k) t := by
            rw [show j + 1 + k = j + k + 1 by omega, engineRun_step hb hs]
          rcases hd : decodeBits s.cfg (shortage s.curVar us) (suppliedBits s.curVar us) with ⟨e, r, left⟩
          rw [hd] at hrun
          simp only at hrun
          by_cases hok : e = .ok
          · subst hok
            rw [if_pos rfl] at hrun
            obtain ⟨t2, o2, p2, m2, i2, u2, r2⟩ := hrun
            have o : t2.outside = s.outside := o2.trans o1
            have hb2 : t2.phase ≠ .idle := by rw [p2]; decide
            have htn : t2.tainted = false := by rw [outside_tainted o, ht]
            have hidx := u2.idx_eq
            have hall : ((List.range' t2.unpacker.idx (inputLength t2 - t2.unpacker.idx)).map (inUnit t2)).all
                (drainable t2.curVar) = (us.drop t2.unpacker.idx).all (drainable s.curVar) := by
              rw [outside_inUnit o, outside_inputLength o, outside_curVar o, hus, drop_inputUnits]
            have hv : decompressValue s.cfg s.curVar us =
                if (us.drop t2.unpacker.idx).all (drainable s.curVar) then (.ok, r.out)
                else (.malformed .badSymbol, []) := by
              unfold decompressValue
              simp only
              rw [hd]
              simp only
              rw [hidx]
              rfl
            rw [hv]
            have hwork : engineWork t2 = if (us.drop t2.unpacker.idx).all (drainable s.curVar)
                then .ok (finish .ok r.out.length t2) else .error (.raise (.malformed .badSymbol)) := by
              unfold engineWork decDrain
              rw [p2]
              simp only
              rw [drainCheck_spec, hall]
              split
              · rw [bind_ok, complete_untainted htn, i2]; rfl
              · rfl
            by_cases hdr : (us.drop t2.unpacker.idx).all (drainable s.curVar) = true
            · rw [if_pos hdr] at hwork ⊢
              refine ⟨j + 1 + 1, finish .ok r.out.length t2, by omega, fun k => ?_, ?_⟩
              · rw [show j + 1 + 1 + k = j + 1 + (k + 1) by omega, hfirst, r2,
                  engineRun_step hb2 (by unfold engineStep; rw [hwork]), engineRun_idle rfl]
              · exact CompletedFrom.finish .ok _ o m2 (fun _ => rfl)
            · rw [if_neg hdr] at hwork ⊢
              refine ⟨j + 1 + 1, finish (.malformed .badSymbol) 0 t2, by omega, fun k => ?_, ?_⟩
              · rw [show j + 1 + 1 + k = j + 1 + (k + 1) by omega, hfirst, r2,
                  engineRun_step hb2 (t := finish (.malformed .badSymbol) 0 t2)
                    (by unfold engineStep; rw [hwork, ← complete_untainted htn]), engineRun_idle rfl]
              · exact CompletedFrom.finish _ [] o m2 (by simp)
          · rw [if_neg hok] at hrun
            obtain ⟨w, o2, m2, r2⟩ := hrun
            have o : w.outside = s.outside := o2.trans o1
            have htn : w.tainted = false := by rw [outside_tainted o, ht]
            rw [hval hok (by rw [hd])]
            refine ⟨j + 1, finish e 0 w, by omega, fun k => ?_, ?_⟩
            · rw [hfirst, r2, complete_untainted htn]
            · exact CompletedFrom.finish e [] o m2 (fun h => absurd h hok)
        · rw [if_pos hc] at hspec
          have hd : decodeBits s.cfg (shortage s.curVar us) (suppliedBits s.curVar us)
              = (.capacity .capOut, { dict := [], w := [], out := [] }, bs) := by
            unfold decodeBits; rw [ht2]; simp only [if_pos h1, hl, hc, if_true]
          rw [hval (e := .capacity .capOut) (by simp) (by rw [hd]), hd]
          exact hraise (by simp) hspec
    · rw [if_neg h1] at hspec
      have hd : decodeBits s.cfg (shortage s.curVar us) (suppliedBits s.curVar us)
          = (.malformed .badFirstCode, { dict := [], w := [], out := [] }, rest) := by
        unfold decodeBits; rw [ht2]; simp only [if_neg h1]
      rw [hval (e := .malformed .badFirstCode) (by simp) (by rw [hd]), hd]
      exact hraise (by simp) hspec

end Sys2Proof.Machine
end

