-- ==== Sys2Proof/Laws/Command.lean ====
section
/-! SUPPORT. A command from its acceptance to its completion (R240, R242): whichever way acceptance goes, the block
completes with the ending and the output of `commandValue`. -/

namespace Sys2Proof.Machine

/-- The state in which an accepted command's checks and its engine start (R240). -/
def acceptedState (d : Dir) (v : Variant) (s : State) : State :=
  { s with
    status := acceptedStatus, outLen := 0, curDir := d, curVar := v, latPresent := s.inPresent, latLen := s.inLen,
    tainted := false }

theorem Instr.dir_of (d : Dir) (v : Variant) : (Instr.of d v).dir = d := by cases d <;> cases v <;> rfl

theorem Instr.variant_of (d : Dir) (v : Variant) : (Instr.of d v).variant = v := by cases d <;> cases v <;> rfl

/-- Acceptance (R240): the checks in their order, then the engine's start. -/
theorem accept_eq (d : Dir) (v : Variant) (s : State) : accept d v s =
    if (acceptedState d v s).latPresent = false then finish .absent 0 (acceptedState d v s)
    else if exceeds s.cfg.inCap (inputLength (acceptedState d v s)) then
      finish (.capacity .capIn) 0 (acceptedState d v s)
    else if inputLength (acceptedState d v s) = 0 then finish .ok 0 (acceptedState d v s)
    else match d with
      | .compress => encStart (acceptedState d v s)
      | .decompress => decStart (acceptedState d v s) := rfl

/-- An accepted command whose engine runs to its end completes with its value (R240 to R242). -/
theorem accept_run {s : State} (hw : s.cfg.wf = true) (hp : s.pace = .toEnd) (d : Dir) (v : Variant) :
    ∃ t, advance (accept d v s) = .next t ∧
      CompletedFrom (acceptedState d v s) t
        (commandValue s.cfg (Instr.of d v) s.inPresent (inputUnits s s.inLen.toNat)).1
        (commandValue s.cfg (Instr.of d v) s.inPresent (inputUnits s s.inLen.toNat)).2
        (writtenUnits s.cfg (Instr.of d v) s.inPresent (inputUnits s s.inLen.toNat)) := by
  obtain ⟨a, ha⟩ : ∃ a, a = acceptedState d v s := ⟨_, rfl⟩
  have hN : inputLength a = s.inLen.toNat := by rw [ha]; rfl
  have hus : inputUnits a (inputLength a) = inputUnits s s.inLen.toNat := by rw [hN, ha]; rfl
  have hidle (e : Ending) : advance (finish e 0 a) = .next (finish e 0 a) := by
    unfold advance
    rw [show (finish e 0 a).pace = .toEnd by rw [ha]; exact hp]
    exact engineRun_idle rfl _
  have hfin (e : Ending) : CompletedFrom a (finish e 0 a) e [] [] := CompletedFrom.finish e [] rfl rfl (fun _ => rfl)
  unfold commandValue writtenUnits
  rw [Instr.dir_of, Instr.variant_of, inputUnits_length, ← hus, ← hN, accept_eq, ← ha]
  by_cases h1 : s.inPresent = false
  · rw [if_pos (show a.latPresent = false by rw [ha]; exact h1), if_pos h1, if_pos h1]
    exact ⟨_, hidle _, hfin _⟩
  rw [if_neg (show ¬ a.latPresent = false by rw [ha]; exact h1), if_neg h1, if_neg h1]
  by_cases h2 : exceeds s.cfg.inCap (inputLength a) = true
  · rw [if_pos h2, if_pos h2, if_pos h2]
    exact ⟨_, hidle _, hfin _⟩
  rw [if_neg h2, if_neg h2, if_neg h2]
  by_cases h3 : inputLength a = 0
  · have hnil : inputUnits a (inputLength a) = [] := by rw [h3]; rfl
    rw [if_pos h3, if_pos hnil, if_pos hnil]
    exact ⟨_, hidle _, hfin _⟩
  have hne := mem_inputUnits_ne_nil h3
  rw [if_neg h3, if_neg hne, if_neg hne]
  have hcfg : a.cfg = s.cfg := by rw [ha]; rfl
  have hvar : a.curVar = v := by rw [ha]; rfl
  have htn : a.tainted = false := by rw [ha]; rfl
  have hpa : a.pace = .toEnd := by rw [ha]; exact hp
  cases d with
  | compress =>
    simp only
    obtain ⟨k, hk⟩ : ∃ k, engineBound (encStart a) = inputLength a + 3 + k :=
      ⟨16 * inputLength a + 4 - (inputLength a + 3), by
        show 16 * inputLength a + 4 = _; omega⟩
    obtain ⟨t, e1, c1⟩ := compress_run (by rw [hcfg]; exact hw) h3 htn k
    rw [hcfg, hvar] at c1
    refine ⟨t, ?_, c1⟩
    unfold advance
    rw [show (encStart a).pace = .toEnd from hpa]
    simp only
    rw [hk, e1]
  | decompress =>
    simp only
    obtain ⟨j, t, hj, e1, c1⟩ := decompress_run htn
    rw [hcfg, hvar] at c1
    refine ⟨t, ?_, c1⟩
    unfold advance
    rw [show (decStart a).pace = .toEnd from hpa]
    simp only
    rw [show engineBound (decStart a) = j + (16 * inputLength a + 4 - j) by
      show 16 * inputLength a + 4 = _; omega, e1]

end Sys2Proof.Machine
end

