-- ==== Sys2Proof/Laws/EncoderInvariant.lean ====
section
/-! SUPPORT. The encoder's invariant is the bookkeeping of Laws/CodeStream.lean read off its registers, and every step of
the encoder keeps it (R31 to R34, R197, R198). -/

namespace Sys2Proof.Machine

theorem carriesBits_enc_msb (v : Variant) {ch : List Bool} (h : ch.length = bpc v) :
    carriesBits v (enc v (msbValue ch)) = true := by
  have hlt : msbValue ch < 2 ^ bpc v := h ▸ msbValue_lt ch
  simp [carriesBits, isPad_enc v hlt, dec_enc v hlt]

/-- A packer that has been given bits is coherent. -/
theorem Packed.coherent {v : Variant} {bs : List Bool} {p : Packer} (h : Packed v bs p) : PackerCoherent v p := by
  obtain ⟨chunks, tail, rfl, hc, ht, rfl⟩ := h
  refine ⟨ht, msbValue_lt tail, by simp, ?_⟩
  intro u hu
  obtain ⟨ch, hch, rfl⟩ := List.mem_map.mp hu
  exact carriesBits_enc_msb v (hc ch hch)

/-- A coherent packer has been given some string of bits. -/
theorem PackerCoherent.packed {v : Variant} {p : Packer} (h : PackerCoherent v p) : ∃ bs, Packed v bs p := by
  refine ⟨_, p.sym.map (fun u => msbBits ((dec v u).getD 0) (bpc v)), msbBits p.acc p.pos, rfl, ?_, by simpa using h.pos, ?_⟩
  · intro ch hch
    obtain ⟨u, -, rfl⟩ := List.mem_map.mp hch
    simp
  · have hs : (p.sym.map (fun u => msbBits ((dec v u).getD 0) (bpc v))).map (fun ch => enc v (msbValue ch)) = p.sym := by
      rw [List.map_map]
      conv_rhs => rw [← List.map_id p.sym]
      apply List.map_congr_left
      intro u hu
      have hc := h.sym u hu
      simp only [carriesBits, Bool.and_eq_true, Option.isSome_iff_exists] at hc
      obtain ⟨-, x, hx⟩ := hc
      simp only [Function.comp_apply, hx, Option.getD_some, msbValue_msbBits_of_lt (dec_lt v u hx), id]
      exact enc_dec v u hx
    rw [hs]
    cases p
    simp only [Packer.mk.injEq, msbBits_length, List.length_map, and_true, true_and]
    exact ⟨(msbValue_msbBits_of_lt h.acc).symm, h.nsym⟩

/-- `flush` leaves a coherent packer with a symbol (R124). -/
theorem Packed.flush_coherent {v : Variant} {bs : List Bool} {p : Packer} (h : Packed v bs p) :
    PackerCoherent v (p.flush v) ∧ (p.flush v).nsym ≠ 0 := by
  obtain ⟨h1, h2⟩ := h.flush
  obtain ⟨h3, h4⟩ := h.flush_empty
  refine ⟨⟨by rw [h3]; exact bpc_pos v, by rw [h3, h4]; decide, by rw [h1, h2]; simp, ?_⟩, by rw [h2]; exact Nat.succ_ne_zero _⟩
  rw [h1]
  obtain ⟨chunks, tail, rfl, hc, ht⟩ := exists_chunks (bpc v) (bpc_pos v) bs
  rw [symbolsOf_chunks v chunks tail hc ht]
  intro u hu
  rcases List.mem_append.mp hu with hu | hu
  · obtain ⟨ch, hch, rfl⟩ := List.mem_map.mp hu
    exact carriesBits_enc_msb v (hc ch hch)
  · rw [List.mem_singleton.mp hu]
    exact carriesBits_enc_msb v (by simp; omega)

/-- The units that have been sent as literals: those registered and no longer pending (R32). -/
def sentUnits (s : State) : List CodeUnit :=
  ((encoderKeys s).filter fun x => x.length = 1 && !s.ePend.contains x).flatten

theorem mem_sentUnits (s : State) (u : CodeUnit) : u ∈ sentUnits s ↔ [u] ∈ encoderKeys s ∧ [u] ∉ s.ePend := by
  unfold sentUnits
  simp only [List.mem_flatten, List.mem_filter, Bool.and_eq_true, decide_eq_true_eq, Bool.not_eq_true',
    List.contains_eq_mem, decide_eq_false_iff_not]
  constructor
  · rintro ⟨x, ⟨h1, h2, h3⟩, h4⟩
    obtain ⟨a, rfl⟩ := List.length_eq_one_iff.mp h2
    obtain rfl := List.mem_singleton.mp h4
    exact ⟨h1, h3⟩
  · rintro ⟨h1, h2⟩
    exact ⟨[u], ⟨h1, rfl, h2⟩, by simp⟩

/-- After the first unit, the registers hold a sound bookkeeping. -/
theorem EncoderCoherent.tracks {s : State} (h : EncoderCoherent s) (hi : s.inIdx ≠ 0) :
    ∃ sent d bs, Tracks s (encoderKeys s) sent d s.w bs ∧ Sound (encoderKeys s) sent d s.w := by
  have hwin := h.window
  rw [if_neg hi] at hwin
  have hpos : 1 ≤ (encoderKeys s).length := List.length_pos_iff.mpr (List.ne_nil_of_mem hwin)
  obtain ⟨bs, hp⟩ := h.packer.packed
  have hcond : (s.w.length = 1 ∧ ∀ u ∈ s.w, u ∉ sentUnits s) ↔ s.w ∈ s.ePend := by
    constructor
    · rintro ⟨h1, h2⟩
      obtain ⟨u, hu⟩ := List.length_eq_one_iff.mp h1
      have h3 := h2 u (by rw [hu]; simp)
      rw [mem_sentUnits] at h3
      by_contra h4
      exact h3 ⟨hu ▸ hwin, hu ▸ h4⟩
    · intro h1
      refine ⟨(h.pending _ h1).2.1, fun u hu h2 => ?_⟩
      obtain ⟨a, ha⟩ := List.length_eq_one_iff.mp (h.pending _ h1).2.1
      rw [ha] at hu
      obtain rfl := List.mem_singleton.mp hu
      exact ((mem_sentUnits s u).mp h2).2 (ha ▸ h1)
  obtain ⟨b2, b3, b4⟩ := h.bounds
  have hg := h.growth
  have hsz := h.size
  have hpow : 2 ^ s.ctr.numBits = 2 * 2 ^ (s.ctr.numBits - 1) := by
    rw [← pow_succ']; congr 1; omega
  have h2pow : 2 ≤ 2 ^ (s.ctr.numBits - 1) := by
    have := Nat.pow_le_pow_right (show 0 < 2 by decide) (show 1 ≤ s.ctr.numBits - 1 by omega)
    omega
  obtain ⟨d, hd⟩ : ∃ d, d = s.ctr.dictSize - 1 - (if s.w ∈ s.ePend then 1 else 0) := ⟨_, rfl⟩
  have hle : (if s.w ∈ s.ePend then 1 else 0) ≤ 1 := by split <;> omega
  refine ⟨sentUnits s, d, bs, ⟨h.codes, hsz, ⟨(codeWidth_unique ?_ ?_).symm, ?_⟩, hp, ?_, rfl⟩, ?_⟩
  · omega
  · omega
  · omega
  · intro x
    constructor
    · intro hx
      obtain ⟨rfl, h1, h2⟩ := h.pending x hx
      obtain ⟨u, hu⟩ := List.length_eq_one_iff.mp h1
      refine ⟨u, hu, hu ▸ h2, fun h3 => ((mem_sentUnits s u).mp h3).2 (hu ▸ hx)⟩
    · rintro ⟨u, rfl, h1, h2⟩
      rw [mem_sentUnits] at h2
      by_contra h3
      exact h2 ⟨h1, h3⟩
  · exact {
      nodup := h.unique
      nonempty := fun h1 => (h.units [] h1).1 rfl
      known := fun x hx => (h.units x hx).2
      sentIn := fun u hu => ((mem_sentUnits s u).mp hu).1
      long := fun a b t hx => (mem_sentUnits s a).mpr ⟨(h.units _ hx).2 a (by simp), h.emitted a b t hx⟩
      unsent := fun u hu hns => by
        rw [mem_sentUnits] at hns
        have : [u] ∈ s.ePend := by by_contra h3; exact hns ⟨hu, h3⟩
        exact (h.pending _ this).1.symm
      wIn := hwin
      size := by
        simp only [hcond]
        omega
      two := by omega }

/-- A sound bookkeeping makes the registers coherent. -/
theorem Tracks.coherent {s : State} {dict : List (List CodeUnit)} {sent : List CodeUnit} {d : Nat} {w : List CodeUnit}
    {bs : List Bool} (h : Tracks s dict sent d w bs) (hs : Sound dict sent d w)
    (hroom : exceeds s.cfg.dictCap (dict.length + 3) = false) (hi : s.inIdx ≠ 0) (hN : s.inIdx ≤ inputLength s) :
    EncoderCoherent s := by
  have hk : encoderKeys s = dict := by
    unfold encoderKeys
    rw [h.eDict]
    exact List.zipIdx_map_fst 3 dict
  have hd0 : d ≠ 0 := by have := hs.two; omega
  have hcond : (w.length = 1 ∧ ∀ u ∈ w, u ∉ sent) ↔ s.w ∈ s.ePend := by
    rw [h.pend, h.w]
    constructor
    · rintro ⟨h1, h2⟩
      obtain ⟨u, rfl⟩ := List.length_eq_one_iff.mp h1
      exact ⟨u, rfl, hs.wIn, h2 u (by simp)⟩
    · rintro ⟨u, rfl, -, h2⟩
      exact ⟨rfl, by simpa using h2⟩
  have hsize := hs.size
  simp only [hcond] at hsize
  obtain ⟨hnb, heq⟩ := h.ctr
  have hb := h.ctr.bounds hd0
  exact {
    codes := by rw [hk]; exact h.eDict
    size := by rw [hk]; exact h.size
    unique := by rw [hk]; exact hs.nodup
    units := by
      rw [hk]
      exact fun x hx => ⟨fun h0 => hs.nonempty (h0 ▸ hx), hs.known x hx⟩
    window := by rw [if_neg hi, hk, h.w]; exact hs.wIn
    pending := by
      intro x hx
      rw [hk]
      obtain ⟨u, rfl, h1, h2⟩ := (h.pend x).mp hx
      exact ⟨by rw [h.w, hs.unsent u h1 h2], rfl, h1⟩
    emitted := by
      rw [hk]
      intro a b t hx hp
      obtain ⟨u, hu, -, h2⟩ := (h.pend _).mp hp
      obtain rfl : a = u := by simpa using hu
      exact h2 (hs.long a b t hx)
    growth := by
      rw [h.size]
      omega
    bounds := ⟨by rw [hnb]; exact two_le_codeWidth hs.two, hb.1, hb.2⟩
    room := by rw [h.size]; exact hroom
    packer := h.packed.coherent
    index := hN }

/-- The start of the encoder is coherent (R180). -/
theorem encStart_coherent (s : State) (hw : s.cfg.wf = true) : EncoderCoherent (encStart s) := by
  have hroom := Params.room_of_wf hw
  have hk : encoderKeys (encStart s) = [] := rfl
  exact {
    codes := rfl
    size := rfl
    unique := by rw [hk]; exact List.nodup_nil
    units := by rw [hk]; simp
    window := by rw [if_pos (show (encStart s).inIdx = 0 from rfl)]; exact ⟨rfl, rfl⟩
    pending := by intro x hx; cases hx
    emitted := by rw [hk]; simp
    growth := by simp [encStart]
    bounds := by simp [encStart]
    room := by
      show exceeds s.cfg.dictCap 3 = false
      by_contra h
      rw [exceeds_mono (show 3 ≤ 4 by omega) (by simpa using h)] at hroom
      cases hroom
    packer := (packed_start _).coherent
    index := Nat.zero_le _ }

/-- One unit of the scan: the registers stay coherent, or the dictionary is full (R182 to R190, R200). -/
theorem EncoderCoherent.scan {s : State} (h : EncoderCoherent s) (hw : s.cfg.wf = true) (hi : s.inIdx < inputLength s) :
    encScan s = capacity .capDict ∨
      ∃ t, encScan s = .ok t ∧ t.phase = s.phase ∧ t.inIdx = s.inIdx + 1 ∧ EncoderCoherent t := by
  unfold encScan
  rw [if_pos hi]
  generalize inUnit s s.inIdx = c
  by_cases h0 : s.inIdx = 0
  · have hwin := h.window
    rw [if_pos h0] at hwin
    obtain ⟨hk, hw0⟩ := hwin
    have he : s.eDict = [] := by rw [h.codes, hk]; rfl
    have hp : s.ePend = [] := by
      rw [List.eq_nil_iff_forall_not_mem]
      intro x hx
      have := (h.pending x hx).2.2
      rw [hk] at this; cases this
    have hsz : s.ctr.dictSize = 3 := by rw [h.size, hk]; rfl
    have hg := h.growth
    obtain ⟨b2, b3, b4⟩ := h.bounds
    rw [hp, if_neg (by simp), hsz] at hg
    have hpow : 2 ^ s.ctr.numBits = 2 * 2 ^ (s.ctr.numBits - 1) := by
      rw [← pow_succ']; congr 1; omega
    have hnb : s.ctr.numBits = 2 := by
      by_contra hne
      have := Nat.pow_le_pow_right (show 0 < 2 by decide) (show 2 ≤ s.ctr.numBits - 1 by omega)
      omega
    have hen : s.ctr.enlargeIn = 2 := by rw [hnb] at hg; omega
    have hctr : s.ctr = { dictSize := 3, numBits := 2, enlargeIn := 2 } := by
      rcases hc : s.ctr with ⟨a, b, c⟩
      rw [hc] at hsz hnb hen
      simp only at hsz hnb hen
      rw [hsz, hnb, hen]
    have hroom := Params.room_of_wf hw
    have e := encStep_first (s := { s with c := c, inIdx := s.inIdx + 1 }) he hp hw0 hctr hroom
    right
    refine ⟨_, e, rfl, rfl, ?_⟩
    obtain ⟨bs, hpk⟩ := h.packer.packed
    have ht : Tracks { s with
        c := c, inIdx := s.inIdx + 1, eDict := [([c], 3)], ePend := [[c]],
        ctr := { dictSize := 4, numBits := 2, enlargeIn := 2 }, w := [c] } [[c]] [] 2 [c] bs :=
      ⟨rfl, rfl, countersFor_encStart, hpk, by intro x; simp, rfl⟩
    exact ht.coherent (sound_first c) hroom (by simp) (by show s.inIdx + 1 ≤ inputLength s; omega)
  · obtain ⟨sent, d, bs, ht, hs⟩ := h.tracks h0
    have t1 : Tracks { s with c := c, inIdx := s.inIdx + 1 } (encoderKeys s) sent d s.w bs :=
      ⟨ht.eDict, ht.size, ht.ctr, ht.packed, ht.pend, ht.w⟩
    have hroom : exceeds s.cfg.dictCap ((encoderKeys s).length + 3) = false := by rw [← h.size]; exact h.room
    have hN : s.inIdx + 1 ≤ inputLength s := by omega
    by_cases hx : s.w ++ [c] ∈ withUnit (encoderKeys s) c
    · obtain ⟨e1, t2⟩ := t1.encStep_extend hs hx
      exact .inr ⟨_, e1, rfl, rfl, t2.coherent (hs.extend hx).2 hroom (by simp) hN⟩
    · by_cases hf : exceeds s.cfg.dictCap ((withUnit (encoderKeys s) c).length + 4) = true
      · exact .inl (t1.encStep_full hs hx hroom hf)
      · obtain ⟨ed, pe, ct, p, e1, t2⟩ := t1.encStep_emit hs hx (by simpa using hf)
        refine .inr ⟨_, e1, rfl, rfl, t2.coherent ?_ ?_ (by simp) hN⟩
        · have := hs.emit hx
          rwa [← emission_withUnit hs.wIn c] at this
        · rw [List.length_append, List.length_singleton]; simpa using hf

/-- The end of the encoding (R191 to R193). -/
theorem EncoderCoherent.final {s : State} (h : EncoderCoherent s) (hi : s.inIdx ≠ 0) :
    ∃ t, encFinal s = .ok t ∧ t.phase = .encPost ∧ t.outside = s.outside ∧ t.outMem = s.outMem ∧
      PackerCoherent s.curVar t.packer ∧ t.packer.nsym ≠ 0 := by
  obtain ⟨sent, d, bs, ht, hs⟩ := h.tracks hi
  obtain ⟨t, e, p, o, m, -, bs', q, hq, hp⟩ := ht.encFinal_ok hs
  obtain ⟨h1, h2⟩ := hq.flush_coherent
  exact ⟨t, e, p, o, m, hp ▸ h1, hp ▸ h2⟩

end Sys2Proof.Machine
end

