-- ==== Sys2Proof/Laws/DecoderInvariant.lean ====
section
/-! SUPPORT. Every step of the decoder keeps its invariant, whatever the input holds (R35 to R37, R39, R226). -/

namespace Sys2Proof.Machine

/-- The unpacker's ranges between two reads (R39). -/
def UnpackerOk (v : Variant) (n : Nat) (u : Unpacker) : Prop := u.rem < bpc v ∧ u.reg < 2 ^ bpc v ∧ u.idx ≤ n

theorem readBit_ok (v : Variant) (n : Nat) (inp : Nat → CodeUnit) {u : Unpacker} (h : UnpackerOk v n u) :
    (∃ e, u.readBit v n inp = .error (.raise e)) ∨ ∃ b u', u.readBit v n inp = .ok (b, u') ∧ UnpackerOk v n u' := by
  obtain ⟨h1, h2, h3⟩ := h
  unfold Unpacker.readBit Unpacker.refill
  by_cases h0 : u.rem = 0
  · rw [if_pos h0]
    by_cases hn : n ≤ u.idx
    · rw [if_pos hn]; exact .inl ⟨_, rfl⟩
    · rw [if_neg hn]
      split
      · exact .inl ⟨_, rfl⟩
      · split
        · exact .inl ⟨_, rfl⟩
        · rename_i x hx
          have hb := bpc_pos v
          refine .inr ⟨_, _, rfl, ?_, dec_lt v _ hx, ?_⟩
          · show bpc v - 1 < bpc v; omega
          · show u.idx + 1 ≤ n; omega
  · rw [if_neg h0]
    exact .inr ⟨_, _, rfl, by show u.rem - 1 < bpc v; omega, h2, h3⟩

theorem readBitList_ok (v : Variant) (n : Nat) (inp : Nat → CodeUnit) (k : Nat) {u : Unpacker} (h : UnpackerOk v n u) :
    (∃ e, u.readBitList v n inp k = .error (.raise e)) ∨
      ∃ bs u', u.readBitList v n inp k = .ok (bs, u') ∧ UnpackerOk v n u' := by
  induction k generalizing u with
  | zero => exact .inr ⟨[], u, rfl, h⟩
  | succ k ih =>
    rw [Unpacker.readBitList]
    rcases readBit_ok v n inp h with ⟨e, he⟩ | ⟨b, u', he, h'⟩
    · rw [he]; exact .inl ⟨e, rfl⟩
    · rw [he, bind_ok]
      rcases ih h' with ⟨e, he'⟩ | ⟨bs, u'', he', h''⟩
      · simp only [he']; exact .inl ⟨e, rfl⟩
      · simp only [he']; exact .inr ⟨_, _, rfl, h''⟩

/-- A read of bits raises a condition, or changes the unpacker alone and keeps its ranges (R131). -/
theorem readBits_ok {s : State} (k : Nat) (h : UnpackerOk s.curVar (inputLength s) s.unpacker) :
    (∃ e, readBits k s = .error (.raise e)) ∨
      ∃ x u, readBits k s = .ok (x, { s with unpacker := u }) ∧ UnpackerOk s.curVar (inputLength s) u := by
  unfold readBits Unpacker.readBits
  rcases readBitList_ok s.curVar (inputLength s) (inUnit s) k h with ⟨e, he⟩ | ⟨bs, u, he, h'⟩
  · rw [he]; exact .inl ⟨e, rfl⟩
  · rw [he]; exact .inr ⟨_, u, rfl, h'⟩

theorem readLiteral_ok {s : State} (cd : Nat) (h : UnpackerOk s.curVar (inputLength s) s.unpacker) :
    (∃ e, readLiteral cd s = .error (.raise e)) ∨
      ∃ x u, readLiteral cd s = .ok (x, { s with unpacker := u }) ∧ UnpackerOk s.curVar (inputLength s) u := by
  unfold readLiteral
  rcases readBits_ok (if cd = 0 then 8 else 16) h with ⟨e, he⟩ | ⟨x, u, he, h'⟩
  · rw [he]; exact .inl ⟨e, rfl⟩
  · rw [he]; exact .inr ⟨_, u, rfl, h'⟩

theorem output_cases (us : List CodeUnit) (s : State) :
    output us s = capacity .capOut ∨
      output us s = .ok { s with outMem := Memory.writeSeq s.outMem s.outIdx us, outIdx := s.outIdx + us.length } ∧
        (exceeds s.cfg.outCap s.outIdx = false → exceeds s.cfg.outCap (s.outIdx + us.length) = false) := by
  by_cases h : exceeds s.cfg.outCap (s.outIdx + us.length) = true
  · by_cases h0 : exceeds s.cfg.outCap s.outIdx = true
    · cases us with
      | nil => exact .inr ⟨rfl, by simp⟩
      | cons u us =>
        left
        rw [output, exceeds_mono (show s.outIdx ≤ s.outIdx + 1 by omega) h0]
        rfl
    · exact .inl (output_full h (by simpa using h0))
  · exact .inr ⟨output_ok (by simpa using h), fun _ => by simpa using h⟩

theorem DecoderCoherent.unpackerOk {s : State} (h : DecoderCoherent s) :
    UnpackerOk s.curVar (inputLength s) s.unpacker := ⟨h.unread, h.register, h.index⟩

/-- Reading bits, and noting the code read, keeps the invariant. -/
theorem DecoderCoherent.setUnpacker {s : State} (h : DecoderCoherent s) {u : Unpacker}
    (hu : UnpackerOk s.curVar (inputLength s) u) (cd : Nat) : DecoderCoherent { s with unpacker := u, cd := cd } :=
  { h with unread := hu.1, register := hu.2.1, index := hu.2.2 }

/-- A new entry and its growth step keep the counters (R218, R226). -/
theorem grow_coherent {c : Counters} (h1 : c.dictSize + c.enlargeIn = 2 ^ c.numBits)
    (h2 : 1 ≤ c.enlargeIn ∧ c.enlargeIn ≤ 2 ^ (c.numBits - 1)) (h3 : 1 ≤ c.dictSize) :
    let d := Counters.grow { c with dictSize := c.dictSize + 1 }
    d.dictSize = c.dictSize + 1 ∧ d.dictSize + d.enlargeIn = 2 ^ d.numBits ∧
      1 ≤ d.enlargeIn ∧ d.enlargeIn ≤ 2 ^ (d.numBits - 1) := by
  have hn : c.numBits ≠ 0 := by
    intro h0
    rw [h0] at h1
    simp at h1; omega
  have hp : 2 ^ c.numBits = 2 * 2 ^ (c.numBits - 1) := by rw [← pow_succ']; congr 1; omega
  have hpos := Nat.two_pow_pos (c.numBits - 1)
  have hps := pow_succ 2 c.numBits
  unfold Counters.grow
  simp only
  split <;> simp only [Nat.add_sub_cancel, true_and]
  · omega
  · omega

/-- A new entry (R229). -/
theorem DecoderCoherent.add {s : State} (h : DecoderCoherent s) {x : List CodeUnit} (hx : x ≠ []) :
    addEntry x s = capacity .capDict ∨
      (addEntry x s = .ok { s with dDict := s.dDict ++ [x], ctr := { s.ctr with dictSize := s.ctr.dictSize + 1 } } ∧
        DecoderCoherent { s with
          dDict := s.dDict ++ [x], ctr := Counters.grow { s.ctr with dictSize := s.ctr.dictSize + 1 } }) := by
  unfold addEntry
  have h3 : 3 ≤ s.dDict.length := by
    have := congrArg List.length h.placeholders
    simp at this; exact this
  by_cases hc : exceeds s.cfg.dictCap (s.ctr.dictSize + 1) = true
  · rw [if_pos hc]; exact .inl rfl
  · rw [if_neg hc]
    have hg := grow_coherent h.growth h.bounds (by have := h.size; omega)
    refine .inr ⟨rfl, ?_⟩
    exact {
      size := by simp only [Counters.grow_dictSize, List.length_append, List.length_singleton, h.size]
      placeholders := by
        show (s.dDict ++ [x]).take 3 = _
        rw [List.take_append_of_le_length h3, h.placeholders]
      nonempty := by
        intro y hy
        rcases List.mem_append.mp hy with hy | hy
        · exact h.nonempty y hy
        · rwa [List.mem_singleton.mp hy]
      window := by
        show s.w ∈ (s.dDict ++ [x]).drop 3
        rw [List.drop_append_of_le_length h3]
        exact List.mem_append_left _ h.window
      growth := hg.2.1
      bounds := hg.2.2
      room := by
        show exceeds s.cfg.dictCap (Counters.grow _).dictSize = false
        rw [hg.1]; simpa using hc
      unread := h.unread
      register := h.register
      index := h.index
      output := h.output }

theorem DecoderCoherent.w_ne {s : State} (h : DecoderCoherent s) : s.w ≠ [] :=
  h.nonempty _ (List.mem_of_mem_drop h.window)

/-- What follows a code keeps the invariant, or raises a condition (R219 to R223). -/
theorem DecoderCoherent.entryStep {s : State} (h : DecoderCoherent s) (h3 : 3 ≤ s.cd) :
    (∃ e, decEntry s = .error (.raise e)) ∨ ∃ t, decEntry s = .ok t ∧ DecoderCoherent t := by
  have hres : (∃ e, resolve s = .error (.raise e)) ∨
      ∃ a x, resolve s = .ok (a :: x) ∧ (a :: x ∈ s.dDict.drop 3 ∨ a :: x = s.w ++ [a]) := by
    unfold resolve
    by_cases h1 : s.cd < s.ctr.dictSize
    · rw [if_pos h1]
      have hl : s.cd < s.dDict.length := by rw [← h.size]; exact h1
      rw [List.getElem?_eq_getElem hl]
      simp only
      obtain ⟨a, x, hx⟩ := List.exists_cons_of_ne_nil (h.nonempty _ (List.getElem_mem hl))
      right
      refine ⟨a, x, by rw [hx], .inl ?_⟩
      rw [← hx, List.mem_iff_getElem]
      refine ⟨s.cd - 3, by simp; omega, ?_⟩
      rw [List.getElem_drop]
      congr 1; omega
    · rw [if_neg h1]
      by_cases h2 : s.cd = s.ctr.dictSize
      · rw [if_pos h2]
        right
        obtain ⟨a, x, hx⟩ := List.exists_cons_of_ne_nil h.w_ne
        rw [hx]
        exact ⟨a, x ++ [a], rfl, .inr rfl⟩
      · rw [if_neg h2]; exact .inl ⟨_, rfl⟩
  unfold decEntry
  rcases hres with ⟨e, he⟩ | ⟨a, x, he, hmem⟩
  · rw [he]; exact .inl ⟨e, rfl⟩
  rw [he, bind_ok]
  rcases output_cases (a :: x) { s with entry := a :: x } with ho | ⟨ho, hroom⟩
  · rw [ho]; exact .inl ⟨_, rfl⟩
  rw [ho, bind_ok]
  simp only
  have hs1 : DecoderCoherent { s with
      entry := a :: x, outMem := Memory.writeSeq s.outMem s.outIdx (a :: x), outIdx := s.outIdx + (a :: x).length } :=
    { h with output := hroom h.output }
  rcases hs1.add (x := s.w ++ [a]) (by simp) with ha | ⟨ha, hs2⟩
  · rw [ha]; exact .inl ⟨_, rfl⟩
  · rw [ha]
    refine .inr ⟨_, rfl, ?_⟩
    refine { hs2 with window := ?_ }
    show a :: x ∈ (s.dDict ++ [s.w ++ [a]]).drop 3
    have hl : 3 ≤ s.dDict.length := by
      have := congrArg List.length h.placeholders
      simp at this; exact this
    rw [List.drop_append_of_le_length hl, List.mem_append, List.mem_singleton]
    exact hmem

/-- A literal code keeps the invariant, or raises a condition (R216). -/
theorem DecoderCoherent.literalStep {s : State} (h : DecoderCoherent s) (cd : Nat) :
    (∃ e, decLiteral cd s = .error (.raise e)) ∨ ∃ t, decLiteral cd s = .ok t ∧ DecoderCoherent t ∧ 3 ≤ t.cd := by
  unfold decLiteral
  rcases readLiteral_ok cd h.unpackerOk with ⟨e, he⟩ | ⟨u, up, he, hup⟩
  · rw [he]; exact .inl ⟨e, rfl⟩
  rw [he, bind_ok]
  rcases (h.setUnpacker hup s.cd).add (x := [u]) (by simp) with ha | ⟨ha, hs⟩
  · simp only at ha ⊢
    rw [ha]; exact .inl ⟨_, rfl⟩
  · simp only at ha ⊢
    rw [ha]
    refine .inr ⟨_, rfl, { hs with }, ?_⟩
    show 3 ≤ s.ctr.dictSize + 1 - 1
    have := congrArg List.length h.placeholders
    have hsz := h.size
    simp at this; omega

/-- One iteration of the loop keeps the invariant, or raises a condition (R214 to R223). -/
theorem DecoderCoherent.loopStep {s : State} (h : DecoderCoherent s) :
    (∃ e, decLoop s = .error (.raise e)) ∨
      ∃ t, decLoop s = .ok t ∧ DecoderCoherent t ∧ (t.phase = s.phase ∨ t.phase = .decDrain) := by
  unfold decLoop
  rcases readBits_ok s.ctr.numBits h.unpackerOk with ⟨e, he⟩ | ⟨cd, up, he, hup⟩
  · rw [he]; exact .inl ⟨e, rfl⟩
  rw [he, bind_ok]
  have h1 := h.setUnpacker hup cd
  simp only
  by_cases h2 : cd = 2
  · simp only [if_pos h2]
    exact .inr ⟨_, rfl, { h1 with }, .inr rfl⟩
  · simp only [if_neg h2]
    by_cases hlt : cd < 2
    · simp only [if_pos hlt]
      rcases h1.literalStep cd with ⟨e, he⟩ | ⟨t, he, ht, h3⟩
      · rw [he]; exact .inl ⟨e, rfl⟩
      · rw [he, bind_ok]
        rcases ht.entryStep h3 with ⟨e, he'⟩ | ⟨t', he', ht'⟩
        · rw [he']; exact .inl ⟨e, rfl⟩
        · exact .inr ⟨t', he', ht', .inl ((decEntry_outside he').2.2.trans (decLiteral_outside he).2.2)⟩
    · simp only [if_neg hlt]
      rcases h1.entryStep (show 3 ≤ cd by omega) with ⟨e, he'⟩ | ⟨t', he', ht'⟩
      · rw [he']; exact .inl ⟨e, rfl⟩
      · exact .inr ⟨t', he', ht', .inl (decEntry_outside he').2.2⟩

/-- The first code and literal start the decoder's invariant, or raise a condition (R212, R213). -/
theorem decFirst_coherent {s : State} (hw : s.cfg.wf = true)
    (hd : s.dDict = [[Config.placeholder 0], [Config.placeholder 1], [Config.placeholder 2]])
    (hc : s.ctr = { dictSize := 4, numBits := 3, enlargeIn := 4 }) (hu : s.unpacker = Unpacker.start)
    (ho : s.outIdx = 0) :
    (∃ e, decFirst s = .error (.raise e)) ∨ ∃ t, decFirst s = .ok t ∧ DecoderCoherent t ∧ t.phase = .decLoop := by
  have hup : UnpackerOk s.curVar (inputLength s) s.unpacker := by
    rw [hu]; exact ⟨bpc_pos _, Nat.two_pow_pos _, Nat.zero_le _⟩
  unfold decFirst
  rcases readBits_ok 2 hup with ⟨e, he⟩ | ⟨cd, up, he, hup'⟩
  · rw [he]; exact .inl ⟨e, rfl⟩
  rw [he, bind_ok]
  simp only
  by_cases h1 : cd < 2
  · simp only [if_pos h1]
    rcases readLiteral_ok (s := { s with unpacker := up }) cd hup' with ⟨e, he⟩ | ⟨u, up', he, hup''⟩
    · rw [he]; exact .inl ⟨e, rfl⟩
    rw [he, bind_ok]
    simp only
    rcases output_cases [u] { s with
        unpacker := up', cd := cd, dDict := s.dDict ++ [[u]], w := [u], phase := .decLoop } with hout | ⟨hout, hroom⟩
    · rw [hout]; exact .inl ⟨_, rfl⟩
    · refine .inr ⟨_, hout, ?_, rfl⟩
      exact {
        size := by
          show s.ctr.dictSize = (s.dDict ++ [[u]]).length
          rw [hc, hd]; rfl
        placeholders := by
          show (s.dDict ++ [[u]]).take 3 = _
          rw [hd]; rfl
        nonempty := by
          show ∀ x ∈ s.dDict ++ [[u]], x ≠ []
          rw [hd]; simp
        window := by
          show [u] ∈ (s.dDict ++ [[u]]).drop 3
          rw [hd]; simp
        growth := by
          show s.ctr.dictSize + s.ctr.enlargeIn = 2 ^ s.ctr.numBits
          rw [hc]; rfl
        bounds := by
          show 1 ≤ s.ctr.enlargeIn ∧ s.ctr.enlargeIn ≤ 2 ^ (s.ctr.numBits - 1)
          rw [hc]; decide
        room := by
          show exceeds s.cfg.dictCap s.ctr.dictSize = false
          rw [hc]; exact Params.room_of_wf hw
        unread := hup''.1
        register := hup''.2.1
        index := hup''.2.2
        output := hroom (by
          show exceeds s.cfg.outCap s.outIdx = false
          rw [ho]; unfold exceeds; split <;> simp) }
  · simp only [if_neg h1]
    exact .inl ⟨_, rfl⟩

end Sys2Proof.Machine
end

