-- ==== Sys2Proof/Laws/Invariant.lean ====
section
/-! SUPPORT. An engine step from a state of the invariant: it answers a next state, which meets the invariant again. -/

namespace Sys2Proof.Machine

theorem endingStatus_coherent (e : Ending) (m : Nat) (s : State) : StatusCoherent (finish e m s) := by
  refine ⟨?_, ?_, ?_, ?_, ?_, ?_⟩
  · intro h; simp [State.busy] at h
  all_goals
    rcases e with _ | _ | c | c | _ <;> (try cases c) <;>
      simp [completedStatus, endingResult, endingCause, malformedCauses, capacityCauses]

theorem writeSeq_keys (us : List CodeUnit) (m : Memory) (i : Nat) (e : Nat × CodeUnit) (h : e ∈ m.writeSeq i us) :
    e.1 ∈ m.map Prod.fst ∨ (i ≤ e.1 ∧ e.1 < i + us.length) := by
  induction us generalizing m i with
  | nil => exact .inl (List.mem_map_of_mem h)
  | cons u us ih =>
    rcases ih _ _ h with h1 | ⟨h1, h2⟩
    · rcases (Memory.write_keys m i u e.1).mp h1 with rfl | h1
      · exact .inr (by simp)
      · exact .inl h1
    · exact .inr (by simp only [List.length_cons]; omega)

/-- Writing units OUT has room for keeps the buffers coherent (R62). -/
theorem BuffersCoherent.writeOut {s : State} (h : BuffersCoherent s) {us : List CodeUnit} {i : Nat} {t : State}
    (hr : exceeds s.cfg.outCap (i + us.length) = false) (hi : t.inMem = s.inMem) (hc : t.cfg = s.cfg)
    (ho : t.outMem = Memory.writeSeq s.outMem i us) : BuffersCoherent t := by
  refine ⟨by rw [hi]; exact h.inWf, by rw [ho]; exact Memory.writeSeq_wf _ _ _ h.outWf, ?_⟩
  rw [ho, hc]
  intro e he
  rcases writeSeq_keys us s.outMem i e he with h1 | ⟨h1, h2⟩
  · obtain ⟨e', he', h2⟩ := List.mem_map.mp h1
    rw [← h2]; exact h.outRoom e' he'
  · by_contra hx
    rw [exceeds_mono (show e.1 + 1 ≤ i + us.length by omega) (by simpa using hx)] at hr
    cases hr

theorem BuffersCoherent.of_eq {s t : State} (h : BuffersCoherent s) (hi : t.inMem = s.inMem) (hc : t.cfg = s.cfg)
    (ho : t.outMem = s.outMem) : BuffersCoherent t := by
  refine ⟨by rw [hi]; exact h.inWf, by rw [ho]; exact h.outWf, by rw [ho, hc]; exact h.outRoom⟩

theorem exceeds_cutTo (cap : Option Nat) (us : List CodeUnit) : exceeds cap (0 + (cutTo cap us).length) = false := by
  unfold exceeds cutTo
  cases cap with
  | none => rfl
  | some k => simp

/-- Completion leaves the block idle, in a state of the invariant (R242, R295). -/
theorem complete_inv {s : State} (hw : s.cfg.wf = true) (hb : BuffersCoherent s) (e : Ending) (m : Nat) :
    Inv (complete e m s) := by
  unfold complete
  split
  · exact ⟨hw, endingStatus_coherent _ _ _, hb.writeOut (exceeds_cutTo _ _) rfl rfl rfl, rfl⟩
  · exact ⟨hw, endingStatus_coherent _ _ _, hb.of_eq rfl rfl rfl, rfl⟩

theorem OperandsLatched.of_outside {s t : State} (h : OperandsLatched s) (ho : t.outside = s.outside) :
    OperandsLatched t := by
  refine ⟨by rw [outside_latPresent ho]; exact h.present, by rw [outside_inputLength ho]; exact h.nonempty, ?_⟩
  rw [outside_inputLength ho, outside_cfg ho]; exact h.fits

/-- While the engine runs, STATUS and OUT_LEN do not change (R44). -/
theorem StatusCoherent.of_outside {s t : State} (h : StatusCoherent s) (hs : s.phase ≠ .idle)
    (ho : t.outside = s.outside) : StatusCoherent t := by
  have h1 := outside_status ho
  have h2 := outside_outLen ho
  have hb := h.busy (busy_eq_true.mpr hs)
  refine ⟨fun _ => by rw [h1, h2]; exact hb, ?_, ?_, ?_, ?_, ?_⟩ <;> rw [h1]
  · exact h.done
  · exact h.present
  · exact h.malformed
  · exact h.capacity
  · rw [h2]; exact h.length

theorem decFirst_out {s t : State} (hr : exceeds s.cfg.outCap s.outIdx = false) (h : decFirst s = .ok t) :
    ∃ i us, t.outMem = Memory.writeSeq s.outMem i us ∧ exceeds s.cfg.outCap (i + us.length) = false := by
  obtain ⟨⟨cd, a⟩, h1, h2⟩ := bind_eq_ok.mp h
  have e1 := readBits_eq h1
  simp only at h2
  split at h2
  · obtain ⟨⟨u, b⟩, h3, h4⟩ := bind_eq_ok.mp h2
    have e2 := readLiteral_eq h3
    rcases output_cases [u] { b with cd := cd, dDict := b.dDict ++ [[u]], w := [u], phase := .decLoop } with ho | ⟨ho, hx⟩
    · rw [ho] at h4; cases h4
    · rw [ho] at h4
      cases h4
      refine ⟨s.outIdx, [u], by rw [e2, e1], ?_⟩
      rw [e2, e1] at hx
      exact hx hr
  · cases h2

theorem decEntry_out {s t : State} (hr : exceeds s.cfg.outCap s.outIdx = false) (h : decEntry s = .ok t) :
    ∃ i us, t.outMem = Memory.writeSeq s.outMem i us ∧ exceeds s.cfg.outCap (i + us.length) = false := by
  obtain ⟨x, _, h2⟩ := bind_eq_ok.mp h
  obtain ⟨a, h3, h4⟩ := bind_eq_ok.mp h2
  rcases output_cases x { s with entry := x } with ho | ⟨ho, hx⟩
  · rw [ho] at h3; cases h3
  · rw [ho] at h3
    cases h3
    split at h4
    · cases h4
    · obtain ⟨b, h5, h6⟩ := bind_eq_ok.mp h4
      obtain ⟨_, m, _⟩ := addEntry_outside h5
      cases h6
      exact ⟨s.outIdx, x, m, hx hr⟩

theorem decLiteral_kept {cd : Nat} {s t : State} (h : decLiteral cd s = .ok t) :
    t.outside = s.outside ∧ t.outMem = s.outMem ∧ t.outIdx = s.outIdx := by
  obtain ⟨o, m, _⟩ := decLiteral_outside h
  refine ⟨o, m, ?_⟩
  obtain ⟨⟨u, a⟩, h1, h2⟩ := bind_eq_ok.mp h
  obtain ⟨b, h3, h4⟩ := bind_eq_ok.mp h2
  have e1 := readLiteral_eq h1
  unfold addEntry at h3
  split at h3
  · cases h3
  · cases h3; cases h4; rw [e1]; rfl

theorem decLoop_out {s t : State} (hr : exceeds s.cfg.outCap s.outIdx = false) (h : decLoop s = .ok t) :
    ∃ i us, t.outMem = Memory.writeSeq s.outMem i us ∧ exceeds s.cfg.outCap (i + us.length) = false := by
  obtain ⟨⟨cd, a⟩, h1, h2⟩ := bind_eq_ok.mp h
  have e1 := readBits_eq h1
  have hcfg : a.cfg = s.cfg := by rw [e1]
  have hmem : a.outMem = s.outMem := by rw [e1]
  have hidx : a.outIdx = s.outIdx := by rw [e1]
  simp only at h2
  split at h2
  · cases h2
    refine ⟨0, [], by rw [hmem]; rfl, ?_⟩
    unfold exceeds; split <;> simp
  · split at h2
    · obtain ⟨b, h3, h4⟩ := bind_eq_ok.mp h2
      obtain ⟨o, m, i⟩ := decLiteral_kept h3
      have hb : b.cfg = s.cfg := (outside_cfg o).trans hcfg
      have := decEntry_out (s := b) (by rw [hb, i]; exact hidx ▸ hr) h4
      rw [hb, m] at this
      rw [← hmem]; exact this
    · have := decEntry_out (s := { a with cd := cd }) (by simpa [hcfg, hidx] using hr) h2
      simp only [hcfg, hmem] at this
      exact this

/-- An engine step keeps the invariant, and never ends in a fault of the engine (R123, R196, R219). -/
theorem engineStep_inv {s : State} (h : Inv s) (hb : s.phase ≠ .idle) : ∃ t, engineStep s = .next t ∧ Inv t := by
  obtain ⟨hw, hst, hbuf, heng⟩ := h
  have hraise {e : Ending} (he : engineWork s = .error (.raise e)) : ∃ t, engineStep s = .next t ∧ Inv t :=
    ⟨complete e 0 s, by unfold engineStep; rw [he], complete_inv hw hbuf e 0⟩
  have hok {t : State} (he : engineWork s = .ok t) (ho : t.outside = s.outside) (hbt : BuffersCoherent t)
      (het : EngineCoherent t) : ∃ t, engineStep s = .next t ∧ Inv t :=
    ⟨t, by unfold engineStep; rw [he], by rw [outside_cfg ho]; exact hw, hst.of_outside hb ho, hbt, het⟩
  cases hp : s.phase with
  | idle => exact absurd hp hb
  | encScan =>
    simp only [EngineCoherent, hp] at heng
    obtain ⟨hl, hd, he⟩ := heng
    have hwork : engineWork s = encScan s := by unfold engineWork; rw [hp]
    by_cases hi : s.inIdx < inputLength s
    · rcases he.scan hw hi with hc | ⟨t, e, p, i, ht⟩
      · exact hraise (hwork.trans hc)
      · have ho := encScan_outside e
        refine hok (hwork.trans e) ho.1 (hbuf.of_eq (outside_inMem ho.1) (outside_cfg ho.1) ho.2) ?_
        simp only [EngineCoherent, p, hp]
        exact ⟨hl.of_outside ho.1, by rw [outside_curDir ho.1]; exact hd, ht⟩
    · have e : engineWork s = .ok { s with phase := .encFinal } := by rw [hwork, encScan, if_neg hi]
      refine hok e rfl (hbuf.of_eq rfl rfl rfl) ?_
      have hidx : s.inIdx = inputLength s := by have := he.index; omega
      exact ⟨⟨hl.present, hl.nonempty, hl.fits⟩, hd, { he with }, hidx⟩
  | encFinal =>
    simp only [EngineCoherent, hp] at heng
    obtain ⟨hl, hd, he, hi⟩ := heng
    obtain ⟨t, e, p, o, m, k1, k2⟩ := he.final (by rw [hi]; exact hl.nonempty)
    have hwork : engineWork s = .ok t := by unfold engineWork; rw [hp]; exact e
    refine hok hwork o (hbuf.of_eq (outside_inMem o) (outside_cfg o) m) ?_
    simp only [EngineCoherent, p]
    refine ⟨hl.of_outside o, by rw [outside_curDir o]; exact hd, ?_, k2⟩
    rw [outside_curVar o]; exact k1
  | encPost =>
    have hwork : engineWork s = encPost s := by unfold engineWork; rw [hp]
    unfold encPost at hwork
    simp only at hwork
    split at hwork
    · exact hraise hwork
    · rename_i hx
      refine ⟨_, by unfold engineStep; rw [hwork], complete_inv (s := { s with
        outMem := Memory.writeSeq s.outMem 0 (post s.curVar s.packer.sym) }) hw ?_ _ _⟩
      exact hbuf.writeOut (by simpa using hx) rfl rfl rfl
  | decFirst =>
    simp only [EngineCoherent, hp] at heng
    obtain ⟨hl, hd, h1, h2, h3, h4⟩ := heng
    have hwork : engineWork s = decFirst s := by unfold engineWork; rw [hp]
    rcases decFirst_coherent hw h1 h2 h3 h4 with ⟨e, he⟩ | ⟨t, he, ht, p⟩
    · exact hraise (hwork.trans he)
    · have ho := (decFirst_outside he).1
      obtain ⟨i, us, hm, hr⟩ := decFirst_out (by rw [h4]; unfold exceeds; split <;> simp) he
      refine hok (hwork.trans he) ho (hbuf.writeOut hr (outside_inMem ho) (outside_cfg ho) hm) ?_
      simp only [EngineCoherent, p]
      exact ⟨hl.of_outside ho, by rw [outside_curDir ho]; exact hd, ht⟩
  | decLoop =>
    simp only [EngineCoherent, hp] at heng
    obtain ⟨hl, hd, h1⟩ := heng
    have hwork : engineWork s = decLoop s := by unfold engineWork; rw [hp]
    rcases h1.loopStep with ⟨e, he⟩ | ⟨t, he, ht, p⟩
    · exact hraise (hwork.trans he)
    · have ho := (decLoop_outside he).1
      obtain ⟨i, us, hm, hr⟩ := decLoop_out h1.output he
      refine hok (hwork.trans he) ho (hbuf.writeOut hr (outside_inMem ho) (outside_cfg ho) hm) ?_
      have hlt := hl.of_outside ho
      have hdt : t.curDir = .decompress := by rw [outside_curDir ho]; exact hd
      rcases p with p | p
      · simp only [EngineCoherent, p, hp]; exact ⟨hlt, hdt, ht⟩
      · simp only [EngineCoherent, p]; exact ⟨hlt, hdt, ht⟩
  | decDrain =>
    have hwork : engineWork s = decDrain s := by unfold engineWork; rw [hp]
    unfold decDrain at hwork
    rw [drainCheck_spec] at hwork
    split at hwork
    · exact ⟨_, by unfold engineStep; rw [hwork]; rfl, complete_inv hw hbuf _ _⟩
    · exact hraise hwork

theorem engineRun_inv (k : Nat) {s : State} (h : Inv s) : ∃ t, engineRun k s = .next t ∧ Inv t := by
  induction k generalizing s with
  | zero => exact ⟨s, rfl, h⟩
  | succ k ih =>
    by_cases hb : s.phase = .idle
    · exact ⟨s, engineRun_idle hb _, h⟩
    · obtain ⟨t, e, ht⟩ := engineStep_inv h hb
      rw [engineRun_step hb e]
      exact ih ht

theorem advance_inv {s : State} (h : Inv s) : ∃ t, advance s = .next t ∧ Inv t := by
  unfold advance
  split <;> exact engineRun_inv _ h

end Sys2Proof.Machine
end

