-- ==== Sys2Proof/Laws/Termination.lean ====
section
/-! SUPPORT. Each engine step of a running command brings its end nearer (R300): a bound on the steps still to come, which
every step lowers. -/

namespace Sys2Proof.Machine

/-- The code stream bits the unpacker can still be asked for. -/
def unreadBits (v : Variant) (n : Nat) (u : Unpacker) : Nat := u.rem + bpc v * (n - u.idx)

/-- How many steps a running command can still make. -/
def stepsLeft (s : State) : Nat :=
  match s.phase with
  | .idle => 0
  | .encScan => inputLength s - s.inIdx + 3
  | .encFinal => 2
  | .encPost => 1
  | .decFirst => 16 * inputLength s + 4
  | .decLoop => unreadBits s.curVar (inputLength s) s.unpacker / 3 + 2
  | .decDrain => 1

theorem readBit_unread {v : Variant} {n : Nat} {inp : Nat → CodeUnit} {u u' : Unpacker} {b : Bool}
    (h : u.readBit v n inp = .ok (b, u')) : unreadBits v n u' + 1 = unreadBits v n u := by
  have hb := bpc_pos v
  unfold Unpacker.readBit Unpacker.refill at h
  by_cases h0 : u.rem = 0
  · rw [if_pos h0] at h
    by_cases hn : n ≤ u.idx
    · rw [if_pos hn] at h; cases h
    · rw [if_neg hn] at h
      split at h
      · cases h
      · split at h
        · cases h
        · cases h
          unfold unreadBits
          simp only
          rw [h0, show n - u.idx = (n - (u.idx + 1)) + 1 by omega, Nat.mul_add]
          omega
  · rw [if_neg h0] at h
    cases h
    unfold unreadBits
    simp only
    omega

theorem readBitList_unread {v : Variant} {n : Nat} {inp : Nat → CodeUnit} {k : Nat} {u u' : Unpacker} {bs : List Bool}
    (h : u.readBitList v n inp k = .ok (bs, u')) : unreadBits v n u' + k = unreadBits v n u := by
  induction k generalizing u bs with
  | zero => cases h; rfl
  | succ k ih =>
    rw [Unpacker.readBitList] at h
    obtain ⟨⟨b, u1⟩, h1, h2⟩ := bind_eq_ok.mp h
    obtain ⟨⟨bs', u2⟩, h3, h4⟩ := bind_eq_ok.mp h2
    cases h4
    have e1 := readBit_unread h1
    have e2 := ih h3
    omega

theorem readBits_unread {k x : Nat} {s t : State} (h : readBits k s = .ok (x, t)) :
    t = { s with unpacker := t.unpacker } ∧
      unreadBits s.curVar (inputLength s) t.unpacker + k = unreadBits s.curVar (inputLength s) s.unpacker := by
  refine ⟨readBits_eq h, ?_⟩
  obtain ⟨⟨y, u⟩, h1, h2⟩ := bind_eq_ok.mp h
  cases h2
  obtain ⟨⟨bs, u'⟩, h3, h4⟩ := bind_eq_ok.mp h1
  cases h4
  exact readBitList_unread h3

theorem readLiteral_unread {cd : Nat} {x : CodeUnit} {s t : State} (h : readLiteral cd s = .ok (x, t)) :
    t = { s with unpacker := t.unpacker } ∧
      unreadBits s.curVar (inputLength s) t.unpacker ≤ unreadBits s.curVar (inputLength s) s.unpacker := by
  refine ⟨readLiteral_eq h, ?_⟩
  obtain ⟨⟨y, u⟩, h1, h2⟩ := bind_eq_ok.mp h
  cases h2
  have := (readBits_unread h1).2
  omega

theorem addEntry_unpacker {x : List CodeUnit} {s t : State} (h : addEntry x s = .ok t) : t.unpacker = s.unpacker := by
  unfold addEntry at h
  split at h
  · cases h
  · cases h; rfl

theorem decEntry_unpacker {s t : State} (h : decEntry s = .ok t) : t.unpacker = s.unpacker := by
  obtain ⟨x, _, h2⟩ := bind_eq_ok.mp h
  obtain ⟨a, h3, h4⟩ := bind_eq_ok.mp h2
  have e1 := output_eq h3
  split at h4
  · cases h4
  · obtain ⟨b, h5, h6⟩ := bind_eq_ok.mp h4
    have e2 := addEntry_unpacker h5
    cases h6
    exact e2.trans (by rw [e1])

theorem decLoop_unread {s t : State} (h : decLoop s = .ok t) :
    unreadBits s.curVar (inputLength s) t.unpacker + s.ctr.numBits ≤
      unreadBits s.curVar (inputLength s) s.unpacker := by
  obtain ⟨⟨cd, a⟩, h1, h2⟩ := bind_eq_ok.mp h
  obtain ⟨e1, e2⟩ := readBits_unread h1
  simp only at h2
  have hv : a.curVar = s.curVar := by rw [e1]
  have hn : inputLength a = inputLength s := by rw [e1]; rfl
  split at h2
  · cases h2; exact e2.le
  · split at h2
    · obtain ⟨b, h3, h4⟩ := bind_eq_ok.mp h2
      obtain ⟨⟨u, c⟩, h5, h6⟩ := bind_eq_ok.mp h3
      obtain ⟨d, h7, h8⟩ := bind_eq_ok.mp h6
      have e3 : unreadBits a.curVar (inputLength a) c.unpacker ≤ unreadBits a.curVar (inputLength a) a.unpacker :=
        (readLiteral_unread h5).2
      have e4 := addEntry_unpacker h7
      have e5 := decEntry_unpacker h4
      cases h8
      rw [e5, show (decGrow { d with cd := d.ctr.dictSize - 1 } : State).unpacker = d.unpacker from rfl, e4]
      rw [hv, hn] at e3
      omega
    · rw [decEntry_unpacker h2]; exact e2.le

theorem unreadBits_le {v : Variant} {n : Nat} {u : Unpacker} (h : UnpackerOk v n u) : unreadBits v n u ≤ 16 * n + 15 := by
  obtain ⟨h1, -, -⟩ := h
  have hb := bpc_le v
  have h2 : bpc v * (n - u.idx) ≤ 16 * n := Nat.mul_le_mul hb (Nat.sub_le _ _)
  unfold unreadBits
  omega

theorem DecoderCoherent.three_le_numBits {s : State} (h : DecoderCoherent s) : 3 ≤ s.ctr.numBits := by
  have h3 : 4 ≤ s.dDict.length := by
    have hw := List.length_pos_iff.mpr (List.ne_nil_of_mem h.window)
    rw [List.length_drop] at hw; omega
  have hs := h.size
  have hg := h.growth
  have hb := h.bounds.1
  by_contra hlt
  have := Nat.pow_le_pow_right (show 0 < 2 by decide) (show s.ctr.numBits ≤ 2 by omega)
  omega

theorem stepsLeft_le {s : State} (h : Inv s) : stepsLeft s ≤ 16 * inputLength s + 4 := by
  have heng := h.engine
  unfold stepsLeft
  unfold EngineCoherent at heng
  cases hp : s.phase <;> rw [hp] at heng <;> simp only at heng ⊢
  case idle => omega
  case encScan => omega
  case decLoop =>
    have h1 := unreadBits_le heng.2.2.unpackerOk
    have h2 := heng.1.nonempty
    omega
  all_goals omega

theorem stepsLeft_finish {e : Ending} {m : Nat} {s : State} : stepsLeft (complete e m s) = 0 := by
  unfold stepsLeft; rw [complete_phase]

/-- A step of a running command lowers the bound. -/
theorem stepsLeft_step {s t : State} (h : Inv s) (hb : s.phase ≠ .idle) (hs : engineStep s = .next t) :
    stepsLeft t < stepsLeft s := by
  have heng := h.engine
  have hpos : 0 < stepsLeft s := by
    unfold stepsLeft
    cases hp : s.phase <;> simp only <;> first | exact absurd hp hb | omega
  unfold engineStep at hs
  cases hw : engineWork s with
  | error e =>
    rw [hw] at hs
    rcases e with e | f
    · cases hs; rw [stepsLeft_finish]; exact hpos
    · cases hs
  | ok r =>
    rw [hw] at hs
    cases hs
    unfold engineWork at hw
    unfold EngineCoherent at heng
    cases hp : s.phase with
    | idle => exact absurd hp hb
    | encScan =>
      simp only [hp] at hw heng
      by_cases hi : s.inIdx < inputLength s
      · rcases heng.2.2.scan h.params hi with hc | ⟨t', e, p, i, ht⟩
        · rw [hc] at hw; cases hw
        · rw [e] at hw; cases hw
          have hn := outside_inputLength (encScan_outside e).1
          unfold stepsLeft
          rw [p, hp]
          simp only
          rw [i, hn]
          omega
      · rw [encScan, if_neg hi] at hw
        cases hw
        unfold stepsLeft
        rw [hp]
        simp only
        omega
    | encFinal =>
      simp only [hp] at hw heng
      obtain ⟨t', e, p, -⟩ := heng.2.2.1.final (by rw [heng.2.2.2]; exact heng.1.nonempty)
      rw [e] at hw; cases hw
      unfold stepsLeft
      rw [p, hp]
      simp only
      omega
    | encPost =>
      simp only [hp, encPost] at hw
      split at hw
      · cases hw
      · cases hw; rw [stepsLeft_finish]; exact hpos
    | decFirst =>
      simp only [hp] at hw heng
      obtain ⟨hl, -, h1, h2, h3, h4⟩ := heng
      rcases decFirst_coherent h.params h1 h2 h3 h4 with ⟨e, he⟩ | ⟨t', he, ht, p⟩
      · rw [he] at hw; cases hw
      · rw [he] at hw; cases hw
        have hn := outside_inputLength (decFirst_outside he).1
        have hle := unreadBits_le ht.unpackerOk
        have hne := hl.nonempty
        unfold stepsLeft
        rw [p, hp]
        simp only
        rw [hn] at hle ⊢
        omega
    | decLoop =>
      simp only [hp] at hw heng
      have hnb := heng.2.2.three_le_numBits
      rcases heng.2.2.loopStep with ⟨e, he⟩ | ⟨t', he, ht, p⟩
      · rw [he] at hw; cases hw
      · rw [he] at hw; cases hw
        have ho := (decLoop_outside he).1
        have hle := decLoop_unread he
        rcases p with p | p
        · unfold stepsLeft
          rw [p, hp]
          simp only
          rw [outside_inputLength ho, outside_curVar ho]
          omega
        · unfold stepsLeft
          rw [p, hp]
          simp only
          omega
    | decDrain =>
      simp only [hp, decDrain] at hw
      obtain ⟨_, _, h2⟩ := bind_eq_ok.mp hw
      cases h2
      rw [stepsLeft_finish]; exact hpos

/-- The engine is idle after so many steps (R300). -/
theorem engineRun_stepsLeft {s : State} (h : Inv s) : ∃ t, engineRun (stepsLeft s) s = .next t ∧ t.phase = .idle := by
  obtain ⟨n, hn⟩ : ∃ n, n = stepsLeft s := ⟨_, rfl⟩
  suffices hall : ∀ n (s : State), Inv s → stepsLeft s ≤ n → ∃ t, engineRun n s = .next t ∧ t.phase = .idle from
    hall _ s h le_rfl
  intro n
  induction n with
  | zero =>
    intro s h hle
    refine ⟨s, rfl, ?_⟩
    by_contra hb
    obtain ⟨t, e, -⟩ := engineStep_inv h hb
    have := stepsLeft_step h hb e
    omega
  | succ n ih =>
    intro s h hle
    by_cases hb : s.phase = .idle
    · exact ⟨s, engineRun_idle hb _, hb⟩
    · obtain ⟨t, e, ht⟩ := engineStep_inv h hb
      have := stepsLeft_step h hb e
      rw [engineRun_step hb e]
      exact ih t ht (by omega)

/-- An advance to the end leaves the block idle. -/
theorem advance_toEnd {s : State} (h : Inv s) (hp : s.pace = .toEnd) :
    ∃ t, advance s = .next t ∧ Inv t ∧ t.phase = .idle := by
  obtain ⟨t, e, hi⟩ := engineRun_stepsLeft h
  have hle : engineBound s = stepsLeft s + (engineBound s - stepsLeft s) := by
    have := stepsLeft_le h
    unfold engineBound; omega
  have hrun : advance s = .next t := by
    unfold advance
    rw [hp]
    simp only
    rw [hle, engineRun_more _ e hi]
  obtain ⟨t', e', h'⟩ := advance_inv h
  rw [hrun] at e'
  cases e'
  exact ⟨t, hrun, h', hi⟩

/-- A command during which the host wrote IN completes through `finishOpen` (R295, U6). -/
theorem engineRun_open (k : Nat) {s t : State} (h : Inv s) (ht : s.tainted = true) (hr : engineRun k s = .next t)
    (hi : t.phase = .idle) : ∃ u, t = finishOpen u ∧ u.outside = s.outside ∧ u.outMem.wf := by
  induction k generalizing s with
  | zero =>
    cases hr
    have := h.engine
    simp [EngineCoherent, hi, ht] at this
  | succ k ih =>
    by_cases hb : s.phase = .idle
    · have := h.engine
      simp [EngineCoherent, hb, ht] at this
    obtain ⟨v, e, hv⟩ := engineStep_inv h hb
    rw [engineRun_step hb e] at hr
    rcases engineStep_cases e with ho | ⟨-, en, m, u, rfl, ho, hm⟩
    · obtain ⟨u, h1, h2, h3⟩ := ih hv ((outside_tainted ho).trans ht) hr
      exact ⟨u, h1, h2.trans ho, h3⟩
    · rw [engineRun_idle (by simp)] at hr
      cases hr
      refine ⟨u, ?_, ho, hm h.buffers.outWf⟩
      unfold complete
      rw [if_pos ((outside_tainted ho).trans ht)]

/-- Run to its end, such a command completes, and nothing outside OUT and the working registers has changed before that
(R295, R300). -/
theorem advance_open {s : State} (h : Inv s) (ht : s.tainted = true) (hp : s.pace = .toEnd) :
    ∃ u, advance s = .next (finishOpen u) ∧ u.outside = s.outside ∧ u.outMem.wf := by
  obtain ⟨t, e, -, hi⟩ := advance_toEnd h hp
  have hrun := e
  unfold advance at hrun
  rw [hp] at hrun
  obtain ⟨u, rfl, ho, hw⟩ := engineRun_open _ h ht hrun hi
  exact ⟨u, e, ho, hw⟩

end Sys2Proof.Machine
end

