-- ==== Sys2Proof/Laws/Accept.lean ====
section
/-! SUPPORT. Acceptance and rejection of a command, and the host's writes, keep the invariant (R240, R253); an access to
the address of a register or a unit reaches it (R20, R60, R94). -/

namespace Sys2Proof.Machine

theorem packerStart_coherent (v : Variant) : PackerCoherent v Packer.start :=
  ⟨bpc_pos v, by simp [Packer.start], rfl, by simp [Packer.start]⟩

/-- Completion from a state with well-formed parameters and buffers leaves a state of the invariant (R242). -/
theorem finish_inv {s : State} (hw : s.cfg.wf = true) (hb : BuffersCoherent s) (e : Ending) (m : Nat) :
    Inv (finish e m s) :=
  ⟨hw, endingStatus_coherent _ _ _, hb.of_eq rfl rfl rfl, rfl⟩

theorem exceeds_dictCap_three {p : Params} (h : p.wf = true) : exceeds p.dictCap 3 = false := by
  by_contra hx
  have := Params.room_of_wf h
  rw [exceeds_mono (show 3 ≤ 4 by decide) (by simpa using hx)] at this
  cases this

/-- The STATUS fields at acceptance agree (R240). -/
theorem accepted_status {s : State} (h1 : s.status = acceptedStatus) (h2 : s.outLen = 0) : StatusCoherent s := by
  refine ⟨fun _ => by simp [h1, h2, acceptedStatus], ?_, ?_, ?_, ?_, fun _ => h2⟩ <;>
    simp [h1, acceptedStatus, malformedCauses, capacityCauses]

/-- Acceptance keeps the invariant (R240). -/
theorem accept_inv {s : State} (h : Inv s) (d : Dir) (v : Variant) : Inv (accept d v s) := by
  rw [accept_eq]
  have hb : BuffersCoherent (acceptedState d v s) := h.buffers.of_eq rfl rfl rfl
  have hw : (acceptedState d v s).cfg.wf = true := h.params
  split
  · exact finish_inv hw hb _ _
  rename_i h1
  split
  · exact finish_inv hw hb _ _
  rename_i h2
  split
  · exact finish_inv hw hb _ _
  rename_i h3
  have hl : OperandsLatched (acceptedState d v s) := ⟨by simpa using h1, h3, (Bool.not_eq_true _).mp h2⟩
  cases d with
  | compress =>
    refine ⟨hw, accepted_status rfl rfl, hb.of_eq rfl rfl rfl, ?_⟩
    refine ⟨⟨hl.present, hl.nonempty, hl.fits⟩, rfl, ?_⟩
    refine ⟨rfl, rfl, by simp [encoderKeys, encStart], by simp [encoderKeys, encStart],
      by simp [encoderKeys, encStart], by simp [encStart], by simp [encoderKeys, encStart], by simp [encStart],
      by simp [encStart], exceeds_dictCap_three h.params, packerStart_coherent v, Nat.zero_le _⟩
  | decompress =>
    refine ⟨hw, accepted_status rfl rfl, hb.of_eq rfl rfl rfl, ?_⟩
    exact ⟨⟨hl.present, hl.nonempty, hl.fits⟩, rfl, rfl, rfl, rfl, rfl⟩

/-- What the engine's registers may be does not depend on the host's part of the state, nor on STATUS and OUT_LEN. -/
theorem EngineCoherent.other {s : State} (h : EngineCoherent s) (st : Status) (il ol : Word) (ip : Bool)
    (im om : Memory) (ho : List HostEvent) (pa : Pace) (re : List ReadValue) (tn : Bool) (ep fr : Nat)
    (ht : s.phase = .idle → tn = false) :
    EngineCoherent { s with
      status := st, inLen := il, outLen := ol, inPresent := ip, inMem := im, outMem := om, host := ho, pace := pa,
      reads := re, tainted := tn, epoch := ep, free := fr } := by
  unfold EngineCoherent at h ⊢
  simp only
  cases hp : s.phase <;> rw [hp] at h <;> simp only at h ⊢
  · exact ht hp
  · exact ⟨⟨h.1.1, h.1.2, h.1.3⟩, h.2.1, { h.2.2 with }⟩
  · exact ⟨⟨h.1.1, h.1.2, h.1.3⟩, h.2.1, { h.2.2.1 with }, h.2.2.2⟩
  · exact ⟨⟨h.1.1, h.1.2, h.1.3⟩, h.2⟩
  · exact ⟨⟨h.1.1, h.1.2, h.1.3⟩, h.2⟩
  · exact ⟨⟨h.1.1, h.1.2, h.1.3⟩, h.2.1, { h.2.2 with }⟩
  · exact ⟨⟨h.1.1, h.1.2, h.1.3⟩, h.2.1, { h.2.2 with }⟩

theorem EngineCoherent.untainted {s : State} (h : EngineCoherent s) (hp : s.phase = .idle) : s.tainted = false := by
  simpa [EngineCoherent, hp] using h

/-- The invariant does not look at the host's side of the state. -/
theorem HostSide.on_inv (h : HostSide) {s : State} (hs : Inv s) : Inv (h.on s) :=
  ⟨hs.params, ⟨hs.status.busy, hs.status.done, hs.status.present, hs.status.malformed, hs.status.capacity,
    hs.status.length⟩, hs.buffers.of_eq rfl rfl rfl, hs.engine.other _ _ _ _ _ _ _ _ _ _ _ _ hs.engine.untainted⟩

/-- The host's side of a state. -/
def State.hostSide (s : State) : HostSide where
  inLen := s.inLen
  inPresent := s.inPresent
  host := s.host
  pace := s.pace
  reads := s.reads
  rejected := s.status.rejected

theorem State.hostSide_on (s : State) : s.hostSide.on s = s := rfl

/-- A rejected command changes the host's side alone (R253). -/
theorem reject_eq (s : State) : reject s = { s.hostSide with rejected := true : HostSide }.on s := rfl

theorem reject_inv {s : State} (h : Inv s) : Inv (reject s) := reject_eq s ▸ HostSide.on_inv _ h

/-- Running the engine for the same pace commutes with changing the host's side. -/
theorem advance_on (h : HostSide) (s : State) (hp : h.pace = s.pace) :
    advance (h.on s) = h.onOutcome (advance s) := by
  unfold advance
  rw [show (h.on s).pace = s.pace from hp, show engineBound (h.on s) = engineBound s from rfl]
  split <;> exact engineRun_on h _ s

/-- The host's side after a run is that before it (R25, R45, R253). -/
theorem advance_hostPart {s t : State} (h : advance s = .next t) : t.hostPart = s.hostPart := by
  unfold advance at h
  split at h <;> exact engineRun_hostPart h

theorem advance_idle {s : State} (h : s.phase = .idle) : advance s = .next s := by
  unfold advance; split <;> exact engineRun_idle h _

/-- Each command is `runCommand` of its direction and variant (R241, R244 to R251). -/
theorem exec_eq (i : Instr) (s : State) : exec i s = runCommand i.dir i.variant s := by cases i <;> rfl

theorem Instr.of_dir_variant (i : Instr) : Instr.of i.dir i.variant = i := by cases i <;> rfl

/-- A host write of a unit of IN keeps the invariant (R60, R61). -/
theorem inMem_inv {s : State} (h : Inv s) (i : Nat) (u : CodeUnit) :
    Inv { s with inMem := Memory.write s.inMem i u, tainted := s.tainted || s.busy } :=
  ⟨h.params, ⟨h.status.busy, h.status.done, h.status.present, h.status.malformed, h.status.capacity,
    h.status.length⟩, ⟨Memory.write_wf _ _ _ h.buffers.inWf, h.buffers.outWf, h.buffers.outRoom⟩,
    h.engine.other _ _ _ _ _ _ _ _ _ _ _ _ fun hp => by simp [h.engine.untainted hp, State.busy, hp]⟩

/-- Writes of IN_LEN and IN_CTRL, reads, and the host's next event keep the invariant (R25, R26, R68, R94). -/
theorem hostRegs_inv {s : State} (h : Inv s) (il : Word) (ip : Bool) (ho : List HostEvent) (pa : Pace)
    (re : List ReadValue) (fr : Nat) :
    Inv { s with inLen := il, inPresent := ip, host := ho, pace := pa, reads := re, free := fr } :=
  ⟨h.params, ⟨h.status.busy, h.status.done, h.status.present, h.status.malformed, h.status.capacity,
    h.status.length⟩, h.buffers.of_eq rfl rfl rfl, h.engine.other _ _ _ _ _ _ _ _ _ _ _ _ h.engine.untainted⟩

/-- A command answers a next state, accepted or rejected (R240, R253). -/
theorem exec_inv {s : State} (h : Inv s) (i : Instr) : ∃ t, exec i s = .next t ∧ Inv t := by
  rw [exec_eq]; unfold runCommand
  split
  · exact advance_inv (reject_inv h)
  · exact advance_inv (accept_inv h _ _)

/-- An illegal command word answers a next state (R252, R253). -/
theorem illegalCommand_inv {s : State} (h : Inv s) : ∃ t, illegalCommand s = .next t ∧ Inv t := by
  unfold illegalCommand
  split
  · exact advance_inv (reject_inv h)
  · exact ⟨_, rfl, h.params, endingStatus_coherent _ _ _, h.buffers.of_eq rfl rfl rfl, rfl⟩

/-- A register write answers a next state (R20). -/
theorem writeReg_inv {s : State} (h : Inv s) (off : Nat) (v : Word) : ∃ t, writeReg off v s = .next t ∧ Inv t := by
  unfold writeReg writeCmd
  split
  · split
    · exact exec_inv h _
    · exact illegalCommand_inv h
  · split
    · exact advance_inv (hostRegs_inv h _ _ _ _ _ _)
    · split
      · exact advance_inv (hostRegs_inv h _ _ _ _ _ _)
      · exact advance_inv h

/-- An access to a register or a unit answers a next state (R277). -/
theorem hostAccess_inv {s : State} (h : Inv s) {a : Access} {k : Nat} (hk : a.place s.cfg = some k) :
    ∃ t, hostAccess a s = .next t ∧ Inv t := by
  unfold hostAccess readOut
  rw [hk]
  simp only
  (repeat' split) <;> first
    | exact writeReg_inv h _ _
    | exact advance_inv (inMem_inv h _ _)
    | exact advance_inv h
    | exact advance_inv (hostRegs_inv h _ _ _ _ _ _)

/-- An idle state with the registers as after reset meets the invariant, whatever fits into its buffers (R46). -/
theorem Inv.of_idle {s : State} (hw : s.cfg.wf = true) (h1 : s.status = Status.reset) (h2 : s.outLen = 0)
    (hb : BuffersCoherent s) (h3 : s.phase = .idle) (h4 : s.tainted = false) : Inv s :=
  ⟨hw, accepted_status h1 h2, hb, by simpa [EngineCoherent, h3] using h4⟩

/-- The parts of the state `hostPart` shows are kept where it is the same. -/
theorem HostPartKept.of_hostPart {s t : State} (h : t.hostPart = s.hostPart) : HostPartKept s t :=
  ⟨(show t.hostPart.cfg = s.hostPart.cfg from congrArg State.cfg h),
   (show t.hostPart.inLen = s.hostPart.inLen from congrArg State.inLen h),
   (show t.hostPart.inPresent = s.hostPart.inPresent from congrArg State.inPresent h),
   (show t.hostPart.inMem = s.hostPart.inMem from congrArg State.inMem h),
   (show t.hostPart.host = s.hostPart.host from congrArg State.host h),
   (show t.hostPart.pace = s.hostPart.pace from congrArg State.pace h),
   (show t.hostPart.reads = s.hostPart.reads from congrArg State.reads h),
   (show t.hostPart.epoch = s.hostPart.epoch from congrArg State.epoch h)⟩

/-- Acceptance changes no part of the host's state (R25, R29). -/
theorem accept_hostPart (d : Dir) (v : Variant) (s : State) : (accept d v s).hostPart = s.hostPart := by
  rw [accept_eq]
  (repeat' split) <;> rfl

/-- What a completed command leaves is what the host finds (R242, R261). -/
theorem CompletedFrom.completedWith {s t : State} {e : Ending} {out w : List CodeUnit}
    (h : CompletedFrom s t e out w) (hm : s.outMem.wf) (hs : s.status.rejected = false) : CompletedWith t e out := by
  refine ⟨busy_eq_false.mpr h.phase, ?_, ?_, ?_, ?_, ?_, ?_, ?_, ?_⟩
  · rw [h.status]; rfl
  · rw [h.status]; rfl
  · rw [h.status]; rfl
  · rw [h.status]; rfl
  · rw [h.status]; exact hs
  · intro he hl
    rw [h.outLen, if_pos he]; unfold outLenWord; rw [if_pos hl]
    simp; exact hl
  · intro he; rw [h.outLen, if_neg he]
  · intro he
    have hv := h.value he
    rw [← hv, show outputUnits t w.length = outputUnits { s with outMem := s.outMem.writeSeq 0 w } w.length from ?_]
    · exact outputUnits_writeSeq s _ hm
    · have : t.epoch = s.epoch := (show t.hostPart.epoch = s.hostPart.epoch from congrArg State.epoch h.hostPart)
      simp [outputUnits, outUnit, h.outMem, this]

end Sys2Proof.Machine
end

