-- ==== Sys2Proof/Laws/DecodeValue.lean ====
section
/-! SUPPORT. The value of a decompress command: what comes after the end code does not matter (R134, R164), and finite
capacities only cut the decoding off (R11). -/

namespace Sys2Proof

/-- The parameters with the reference capacities. -/
def Params.unbounded (p : Params) : Params := { p with inCap := none, outCap := none, dictCap := none }

end Sys2Proof

namespace Sys2Proof.Machine

theorem takeBits_append {o : BitOrder} {n x : Nat} {bs rest : List Bool} (h : takeBits o n bs = some (x, rest))
    (more : List Bool) : takeBits o n (bs ++ more) = some (x, rest ++ more) := by
  unfold takeBits at h ⊢
  split at h
  · rename_i hn
    cases h
    rw [if_pos (by rw [List.length_append]; omega), List.take_append_of_le_length hn, List.drop_append_of_le_length hn]
  · cases h

theorem takeLiteral_append {o : BitOrder} {cd : Nat} {x : CodeUnit} {bs rest : List Bool}
    (h : takeLiteral o cd bs = some (x, rest)) (more : List Bool) :
    takeLiteral o cd (bs ++ more) = some (x, rest ++ more) := by
  unfold takeLiteral at h ⊢
  obtain ⟨⟨y, r⟩, h1, h2⟩ := Option.map_eq_some_iff.mp h
  rw [takeBits_append h1]
  cases h2; rfl

/-- A decoding that reads the end code reads it whatever bits follow (R134). -/
theorem decodeFrom_append {p : Params} {short short' : Ending} (hs : short ≠ .ok) (more : List Bool) (fuel : Nat)
    {fuel' : Nat} (hf : fuel ≤ fuel') {r r' : Rebuilt} {bs rest : List Bool}
    (h : decodeFrom p short fuel r bs = (.ok, r', rest)) :
    decodeFrom p short' fuel' r (bs ++ more) = (.ok, r', rest ++ more) := by
  induction fuel generalizing fuel' r bs with
  | zero => rw [decodeFrom] at h; cases h; exact absurd rfl hs
  | succ fuel ih =>
    obtain ⟨g, rfl⟩ : ∃ g, fuel' = g + 1 := ⟨fuel' - 1, by omega⟩
    rw [decodeFrom] at h ⊢
    cases ht : takeBits p.bitOrder (codeWidth r.size) bs with
    | none => rw [ht] at h; cases h; exact absurd rfl hs
    | some q =>
      obtain ⟨cd, bs1⟩ := q
      rw [takeBits_append ht]
      rw [ht] at h
      simp only at h ⊢
      by_cases h2 : cd = 2
      · rw [if_pos h2] at h ⊢; cases h; rfl
      · rw [if_neg h2] at h ⊢
        by_cases h1 : cd < 2
        · rw [if_pos h1] at h ⊢
          cases hl : takeLiteral p.bitOrder cd bs1 with
          | none => rw [hl] at h; cases h; exact absurd rfl hs
          | some q =>
            obtain ⟨u, bs2⟩ := q
            rw [takeLiteral_append hl]
            rw [hl] at h
            simp only at h ⊢
            cases ha : (Rebuilt.add p r [u] >>= fun r => r.push p [u]) with
            | error e => rw [ha] at h; cases h; exact absurd rfl (add_push_ne_ok ha)
            | ok r1 => rw [ha] at h; exact ih (by omega) h
        · rw [if_neg h1] at h ⊢
          cases ha : (r.entry cd >>= r.push p) with
          | error e => rw [ha] at h; cases h; exact absurd rfl (entry_push_ne_ok ha)
          | ok r1 => rw [ha] at h; exact ih (by omega) h

theorem takeBits_length_le {o : BitOrder} {n x : Nat} {bs rest : List Bool} (h : takeBits o n bs = some (x, rest)) :
    rest.length ≤ bs.length := by have := takeBits_length h; omega

theorem decodeBits_append {p : Params} {short short' : Ending} (hs : short ≠ .ok) (more : List Bool) {r : Rebuilt}
    {bs rest : List Bool} (h : decodeBits p short bs = (.ok, r, rest)) :
    decodeBits p short' (bs ++ more) = (.ok, r, rest ++ more) := by
  unfold decodeBits at h ⊢
  cases ht : takeBits p.bitOrder 2 bs with
  | none => rw [ht] at h; cases h; exact absurd rfl hs
  | some q =>
    obtain ⟨cd, bs1⟩ := q
    rw [takeBits_append ht]
    rw [ht] at h
    simp only at h ⊢
    by_cases h1 : cd < 2
    · rw [if_pos h1] at h ⊢
      cases hl : takeLiteral p.bitOrder cd bs1 with
      | none => rw [hl] at h; cases h; exact absurd rfl hs
      | some q =>
        obtain ⟨u, bs2⟩ := q
        rw [takeLiteral_append hl]
        rw [hl] at h
        simp only at h ⊢
        split at h
        · cases h
        · rename_i hx
          rw [if_neg hx]
          exact decodeFrom_append hs more _ (by rw [List.length_append]; omega) h
    · rw [if_neg h1] at h; cases h

theorem suppliedBits_append (v : Variant) (us extra : List CodeUnit) :
    ∃ more, suppliedBits v (us ++ extra) = suppliedBits v us ++ more := by
  induction us with
  | nil => exact ⟨suppliedBits v extra, rfl⟩
  | cons u us ih =>
    obtain ⟨more, hm⟩ := ih
    rw [List.cons_append, suppliedBits_cons, suppliedBits_cons]
    split
    · exact ⟨more, by rw [hm, List.append_assoc]⟩
    · exact ⟨[], rfl⟩

/-- Units that come after those decoded do not matter, where the drain accepts them (R134, R164). -/
theorem decompressValue_append {p : Params} {v : Variant} {us out : List CodeUnit} (extra : List CodeUnit)
    (h : decompressValue p v us = (.ok, out)) (he : ∀ u ∈ extra, (isPad v u || (dec v u).isSome) = true) :
    decompressValue p v (us ++ extra) = (.ok, out) := by
  obtain ⟨more, hm⟩ := suppliedBits_append v us extra
  unfold decompressValue at h ⊢
  simp only [hm] at h ⊢
  rcases hd : decodeBits p (shortage v us) (suppliedBits v us) with ⟨e, r, rest⟩
  rw [hd] at h
  cases e
  case ok =>
    rw [decodeBits_append (short' := shortage v (us ++ extra)) (shortage_ne_ok _ _) more hd]
    simp only at h ⊢
    split at h
    · rename_i hall
      cases h
      rw [List.length_append, List.length_append, Nat.add_sub_add_right, if_pos]
      rw [List.all_eq_true] at hall ⊢
      intro u hu
      rw [List.drop_append] at hu
      rcases List.mem_append.mp hu with hu | hu
      · exact hall u hu
      · exact he u (List.mem_of_mem_drop hu)
    · cases h
  all_goals cases h

theorem Rebuilt.add_unbounded (p : Params) (r : Rebuilt) (x : List CodeUnit) :
    Rebuilt.add p r x = .error (.capacity .capDict) ∨ Rebuilt.add p r x = Rebuilt.add p.unbounded r x := by
  by_cases h : exceeds p.dictCap (r.size + 1) = true
  · left; unfold Rebuilt.add; rw [if_pos h]
  · right; unfold Rebuilt.add; rw [if_neg h, if_neg (by simp [Params.unbounded, exceeds])]

theorem Rebuilt.push_unbounded (p : Params) (r : Rebuilt) (x : List CodeUnit) :
    (∃ c, r.push p x = .error (.capacity c)) ∨ r.push p x = r.push p.unbounded x := by
  by_cases h : exceeds p.outCap (r.out.length + x.length) = true
  · left; unfold Rebuilt.push; rw [if_pos h]; exact ⟨_, rfl⟩
  · rcases Rebuilt.add_unbounded p { r with out := r.out ++ x } (r.w ++ x.take 1) with ha | ha
    · left; unfold Rebuilt.push; rw [if_neg h, ha]; exact ⟨_, rfl⟩
    · right
      unfold Rebuilt.push
      rw [if_neg h, if_neg (by simp [Params.unbounded, exceeds]), ha]

theorem decodeFrom_unbounded (p : Params) (short : Ending) (fuel : Nat) (r : Rebuilt) (bs : List Bool) :
    (∃ c, (decodeFrom p short fuel r bs).1 = .capacity c) ∨
      decodeFrom p short fuel r bs = decodeFrom p.unbounded short fuel r bs := by
  induction fuel generalizing r bs with
  | zero => exact .inr rfl
  | succ fuel ih =>
    rw [decodeFrom, decodeFrom, show p.unbounded.bitOrder = p.bitOrder from rfl]
    cases ht : takeBits p.bitOrder (codeWidth r.size) bs with
    | none => exact .inr rfl
    | some q =>
      obtain ⟨cd, bs1⟩ := q
      simp only
      by_cases h2 : cd = 2
      · rw [if_pos h2, if_pos h2]; exact .inr rfl
      · rw [if_neg h2, if_neg h2]
        by_cases h1 : cd < 2
        · rw [if_pos h1, if_pos h1]
          cases hl : takeLiteral p.bitOrder cd bs1 with
          | none => exact .inr rfl
          | some q =>
            obtain ⟨u, bs2⟩ := q
            simp only
            rcases Rebuilt.add_unbounded p r [u] with ha | ha
            · rw [ha]; exact .inl ⟨_, rfl⟩
            · rw [ha]
              cases hr : Rebuilt.add p.unbounded r [u] with
              | error e => exact .inr rfl
              | ok r1 =>
                simp only [bind_ok]
                rcases Rebuilt.push_unbounded p r1 [u] with ⟨c, hc⟩ | hc
                · rw [hc]; exact .inl ⟨c, rfl⟩
                · rw [hc]
                  cases r1.push p.unbounded [u] with
                  | error e => exact .inr rfl
                  | ok r2 => exact ih r2 bs2
        · rw [if_neg h1, if_neg h1]
          cases he : r.entry cd with
          | error e => exact .inr rfl
          | ok x =>
            simp only [bind_ok]
            rcases Rebuilt.push_unbounded p r x with ⟨c, hc⟩ | hc
            · rw [hc]; exact .inl ⟨c, rfl⟩
            · rw [hc]
              cases r.push p.unbounded x with
              | error e => exact .inr rfl
              | ok r2 => exact ih r2 bs1

theorem decodeBits_unbounded (p : Params) (short : Ending) (bs : List Bool) :
    (∃ c, (decodeBits p short bs).1 = .capacity c) ∨ decodeBits p short bs = decodeBits p.unbounded short bs := by
  unfold decodeBits
  rw [show p.unbounded.bitOrder = p.bitOrder from rfl]
  cases ht : takeBits p.bitOrder 2 bs with
  | none => exact .inr rfl
  | some q =>
    obtain ⟨cd, bs1⟩ := q
    simp only
    by_cases h1 : cd < 2
    · rw [if_pos h1, if_pos h1]
      cases hl : takeLiteral p.bitOrder cd bs1 with
      | none => exact .inr rfl
      | some q =>
        simp only
        by_cases hx : exceeds p.outCap 1 = true
        · rw [if_pos hx]; exact .inl ⟨_, rfl⟩
        · rw [if_neg hx, if_neg (by simp [Params.unbounded, exceeds])]
          exact decodeFrom_unbounded _ _ _ _ _
    · rw [if_neg h1, if_neg h1]; exact .inr rfl

/-- A finite capacity cuts a command off, or changes nothing (R11). -/
theorem commandValue_unbounded (p : Params) (i : Instr) (present : Bool) (us : List CodeUnit) :
    (∃ c, (commandValue p i present us).1 = .capacity c) ∨
      commandValue p i present us = commandValue p.unbounded i present us := by
  unfold commandValue
  by_cases h1 : present = false
  · rw [if_pos h1, if_pos h1]; exact .inr rfl
  rw [if_neg h1, if_neg h1]
  by_cases h2 : exceeds p.inCap us.length = true
  · rw [if_pos h2]; exact .inl ⟨_, rfl⟩
  rw [if_neg h2, if_neg (show ¬ exceeds p.unbounded.inCap us.length = true by simp [Params.unbounded, exceeds])]
  by_cases h3 : us = []
  · rw [if_pos h3, if_pos h3]; exact .inr rfl
  rw [if_neg h3, if_neg h3]
  cases i.dir with
  | compress =>
    simp only [compressValue]
    by_cases h4 : exceeds p.dictCap (finalDictSize us) = true
    · rw [if_pos h4]; exact .inl ⟨_, rfl⟩
    · rw [if_neg h4, if_neg (show ¬ exceeds p.unbounded.dictCap _ = true by simp [Params.unbounded, exceeds])]
      by_cases h5 : exceeds p.outCap (compressed p.bitOrder i.variant us).length = true
      · rw [if_pos h5]; exact .inl ⟨_, rfl⟩
      · rw [if_neg h5, if_neg (show ¬ exceeds p.unbounded.outCap _ = true by simp [Params.unbounded, exceeds])]
        exact .inr rfl
  | decompress =>
    simp only [decompressValue]
    rcases decodeBits_unbounded p (shortage i.variant us) (suppliedBits i.variant us) with ⟨c, hc⟩ | hc
    · left
      rcases hd : decodeBits p (shortage i.variant us) (suppliedBits i.variant us) with ⟨e, r, rest⟩
      rw [hd] at hc
      simp only at hc
      subst hc
      exact ⟨c, rfl⟩
    · rw [hc]; exact .inr rfl

/-- The value of a decompress command depends on the parameters through OUT_CAP, DICT_CAP and the bit order alone. -/
theorem decompressValue_congr {p q : Params} (ho : p.outCap = q.outCap) (hd : p.dictCap = q.dictCap)
    (hb : p.bitOrder = q.bitOrder) (v : Variant) (us : List CodeUnit) :
    decompressValue p v us = decompressValue q v us := by
  have hadd : Rebuilt.add p = Rebuilt.add q := by funext r x; unfold Rebuilt.add; rw [hd]
  have hpush (r : Rebuilt) : r.push p = r.push q := by funext x; unfold Rebuilt.push; rw [ho, hadd]
  have hfrom (short : Ending) (fuel : Nat) (r : Rebuilt) (bs : List Bool) :
      decodeFrom p short fuel r bs = decodeFrom q short fuel r bs := by
    induction fuel generalizing r bs with
    | zero => rfl
    | succ fuel ih => simp only [decodeFrom, hb, hadd, hpush, ih]
  unfold decompressValue decodeBits
  simp only [hb, ho, hfrom]

end Sys2Proof.Machine
end

