-- ==== Sys2Proof/Laws/PerInstr.lean ====
section
/-! SUPPORT. The statement about every instruction as syntax, one lemma per constructor (R80 to R82): its command word is
legal, names it, and is what the opcode table's row decodes to. -/

namespace Sys2Proof.Laws.CommandWord

/-- The word of a command is legal, decodes to the command, and so do the bits of its row. -/
def Statement (i : Instr) : Prop :=
  i.wf = true ∧ cmdWordLegal (encode i) = true ∧ decode (encode i) = .ok i ∧
    decodeTableWord 32 (encode i).toNat = some i ∧ Instr.of i.dir i.variant = i

theorem compressRaw : Statement .compressRaw := ⟨rfl, rfl, rfl, rfl, rfl⟩
theorem decompressRaw : Statement .decompressRaw := ⟨rfl, rfl, rfl, rfl, rfl⟩
theorem compressUtf : Statement .compressUtf := ⟨rfl, rfl, rfl, rfl, rfl⟩
theorem decompressUtf : Statement .decompressUtf := ⟨rfl, rfl, rfl, rfl, rfl⟩
theorem compressBase64 : Statement .compressBase64 := ⟨rfl, rfl, rfl, rfl, rfl⟩
theorem decompressBase64 : Statement .decompressBase64 := ⟨rfl, rfl, rfl, rfl, rfl⟩
theorem compressUri : Statement .compressUri := ⟨rfl, rfl, rfl, rfl, rfl⟩
theorem decompressUri : Statement .decompressUri := ⟨rfl, rfl, rfl, rfl, rfl⟩

end Sys2Proof.Laws.CommandWord
end

