-- ==== Sys2Proof/Laws/RoundTrip.lean ====
section
/-! SUPPORT. Decoding undoes encoding (R254): the symbols of a code stream supply its bits again, and from the bits the
decoder rebuilds the input, one emission at a time. -/

namespace Sys2Proof.Machine

theorem takeBits_valueBits (o : BitOrder) {x n : Nat} (h : x < 2 ^ n) (rest : List Bool) :
    takeBits o n (valueBits o x n ++ rest) = some (x, rest) := by
  unfold takeBits
  rw [if_pos (by simp)]
  have h1 : (valueBits o x n ++ rest).take n = valueBits o x n := by
    rw [List.take_append_of_le_length (by simp), List.take_of_length_le (by simp)]
  have h2 : (valueBits o x n ++ rest).drop n = rest := by
    rw [List.drop_append_of_le_length (by simp), List.drop_of_length_le (by simp), List.nil_append]
  rw [h1, h2, bitsValue_valueBits o h]

/-- The literal a literal item carries is its unit (R85, R186). -/
theorem takeLiteral_item (o : BitOrder) (n : Nat) (hn : 2 ≤ n) (u : CodeUnit) (rest : List Bool) :
    ∃ cd mid, cd < 2 ∧ takeBits o n ((literalItem n u).bits o ++ rest) = some (cd, mid) ∧
      takeLiteral o cd mid = some (u, rest) := by
  have h4 : 4 ≤ 2 ^ n := by
    have := Nat.pow_le_pow_right (show 0 < 2 by decide) hn
    omega
  unfold literalItem
  split
  · rename_i hu
    have hz : (u.setWidth 8).toNat = u.toNat := by rw [BitVec.toNat_setWidth]; omega
    refine ⟨0, valueBits o u.toNat 8 ++ rest, by decide, ?_, ?_⟩
    · rw [StreamItem.bits, hz, List.append_assoc]
      exact takeBits_valueBits o (by omega) _
    · unfold takeLiteral
      rw [if_pos rfl, takeBits_valueBits o (by omega)]
      simp
  · refine ⟨1, valueBits o u.toNat 16 ++ rest, by decide, ?_, ?_⟩
    · rw [StreamItem.bits, List.append_assoc]
      exact takeBits_valueBits o (by omega) _
    · unfold takeLiteral
      rw [if_neg (by decide), takeBits_valueBits o u.isLt]
      simp

section
variable {p : Params} {short : Ending} {dict : List (List CodeUnit)} {sent : List CodeUnit} {d : Nat} {w : List CodeUnit}

/-- The end code ends the decoding (R217). -/
theorem decodeFrom_stop {r : Rebuilt} (fuel : Nat) (rest : List Bool) :
    decodeFrom p short (fuel + 1) r ((StreamItem.stop (codeWidth r.size)).bits p.bitOrder ++ rest) = (.ok, r, rest) := by
  have h : 2 < 2 ^ codeWidth r.size := by
    have := lt_two_pow_codeWidth r.size
    unfold Rebuilt.size at this ⊢; omega
  rw [decodeFrom, StreamItem.bits, takeBits_valueBits _ h]
  rfl

/-- The decoder is one registration behind the encoder (R225): it lacks the pending unit, if there is one, and the
entry the next code completes. -/
structure Behind (dict : List (List CodeUnit)) (sent : List CodeUnit) (d : Nat) (w : List CodeUnit) (r : Rebuilt) :
    Prop where
  size : r.size = d
  dict : dict = r.dict ++ (if w.length = 1 ∧ ∀ u ∈ w, u ∉ sent then [w] else []) ++ [r.w ++ w.take 1]
  w_ne : r.w ≠ []

/-- Reading one emission brings the decoder up to the encoder's dictionary, and outputs `w` (R216 to R223). -/
theorem Behind.emission (hc : p.outCap = none) (hd : p.dictCap = none) (hs : Sound dict sent d w) {r : Rebuilt}
    (h : Behind dict sent d w r) (fuel : Nat) (rest : List Bool) :
    decodeFrom p short (fuel + 1) r ((emission dict sent d w).1.bits p.bitOrder ++ rest) =
      decodeFrom p short fuel { dict := dict, w := w, out := r.out ++ w } rest := by
  have hd3 : 3 ≤ d := by rw [← h.size]; simp [Rebuilt.size]
  have hw2 : 2 ≤ codeWidth d := by
    have := lt_two_pow_codeWidth d
    by_contra hlt
    have : codeWidth d ≤ 1 := by omega
    have := Nat.pow_le_pow_right (show 0 < 2 by decide) this
    omega
  rcases pending_cases sent w with ⟨u, rfl, hu⟩ | hp
  · have hdict := h.dict
    rw [if_pos (by simpa using hu)] at hdict
    rw [emission_literal hu, decodeFrom, h.size]
    obtain ⟨cd, mid, h1, h2, h3⟩ := takeLiteral_item p.bitOrder (codeWidth d) hw2 u rest
    simp only [h2, if_neg (show cd ≠ 2 by omega), if_pos h1, h3]
    simp [Rebuilt.add, Rebuilt.push, exceeds, hc, hd, hdict, bind, Except.bind, pure, Except.pure]
  · have hdict := h.dict
    rw [if_neg hp, List.append_nil] at hdict
    obtain ⟨k3, klt⟩ := hs.code_lt hp
    rw [emission_reference hp, decodeFrom, h.size, StreamItem.bits, takeBits_valueBits _ klt]
    simp only [if_neg (show codeOf dict w ≠ 2 by omega), if_neg (show ¬ codeOf dict w < 2 by omega)]
    have hi := List.idxOf_lt_length_of_mem hs.wIn
    have hg : dict[dict.idxOf w]? = some w := by rw [List.getElem?_eq_getElem hi, List.getElem_idxOf hi]
    have hl : dict.length = r.dict.length + 1 := by rw [hdict]; simp
    have hent : r.entry (codeOf dict w) = .ok w := by
      unfold Rebuilt.entry codeOf Rebuilt.size
      by_cases hlt : dict.idxOf w < r.dict.length
      · rw [if_pos (by omega)]
        generalize dict.idxOf w = k at hlt hg
        rw [hdict, List.getElem?_append_left hlt] at hg
        rw [Nat.add_sub_cancel_left, List.getD_eq_getElem?_getD, hg]; rfl
      · have hk : dict.idxOf w = r.dict.length := by omega
        rw [if_neg (by omega), if_pos (by omega)]
        generalize dict.idxOf w = k at hk hg
        subst hk
        rw [hdict] at hg
        simp only [List.getElem?_concat_length, Option.some.injEq] at hg
        obtain ⟨a, t, ha⟩ := List.exists_cons_of_ne_nil h.w_ne
        rw [ha] at hg ⊢
        have hw1 : w.take 1 = [a] := by rw [← hg]; rfl
        rw [hw1] at hg
        rw [← hg]; rfl
    rw [hent, bind_ok]
    simp [Rebuilt.add, Rebuilt.push, exceeds, hc, hd, bind, Except.bind, pure, Except.pure, ← hdict]

/-- The emit case keeps the decoder one registration behind (R225). -/
theorem Behind.emit (hs : Sound dict sent d w) {r : Rebuilt} (h : Behind dict sent d w r) {c : CodeUnit}
    (hx : w ++ [c] ∉ withUnit dict c) (out : List CodeUnit) :
    Behind (withUnit dict c ++ [w ++ [c]]) (Machine.emission dict sent d w).2.1 (Machine.emission dict sent d w).2.2 [c]
      { dict := dict, w := w, out := out } where
  size := by
    have hz := hs.size
    unfold Rebuilt.size
    rcases pending_cases sent w with ⟨u, rfl, hu⟩ | hp
    · rw [if_pos (by simpa using hu)] at hz
      rw [emission_literal hu]; simp only; omega
    · rw [if_neg hp] at hz
      rw [emission_reference hp]; simp only; omega
  dict := by
    have hse := hs.emit hx
    have hiff : (([c] : List CodeUnit).length = 1 ∧ ∀ u ∈ [c], u ∉ (Machine.emission dict sent d w).2.1) ↔
        [c] ∉ dict := by
      constructor
      · rintro ⟨-, h2⟩ hm
        have hcs := h2 c (by simp)
        have hcs' : c ∉ sent := by
          intro hmem
          rcases pending_cases sent w with ⟨u, rfl, hu⟩ | hp
          · rw [emission_literal hu] at hcs; exact hcs (by simp [hmem])
          · rw [emission_reference hp] at hcs; exact hcs hmem
        have hwc := hs.unsent c hm hcs'
        subst hwc
        rw [emission_literal hcs'] at hcs
        exact hcs (by simp)
      · intro hm
        refine ⟨rfl, fun u hu => ?_⟩
        rw [List.mem_singleton.mp hu]
        intro hmem
        rcases pending_cases sent w with ⟨u, rfl, hu⟩ | hp
        · rw [emission_literal hu] at hmem
          rcases List.mem_cons.mp hmem with rfl | hmem
          · exact hm hs.wIn
          · exact hm (hs.sentIn c hmem)
        · rw [emission_reference hp] at hmem
          exact hm (hs.sentIn c hmem)
    by_cases hm : [c] ∈ dict
    · rw [if_neg (by rw [hiff]; simpa using hm), withUnit, if_pos hm]; simp
    · rw [if_pos (hiff.mpr hm), withUnit, if_neg hm]; simp
  w_ne := hs.w_ne_nil

/-- From any point of the scan, decoding the rest of the code stream gives the rest of the input (R254). -/
theorem decode_encodeFrom (hc : p.outCap = none) (hd : p.dictCap = none) (cs : List CodeUnit)
    (hs : Sound dict sent d w) {r : Rebuilt} (h : Behind dict sent d w r) (fuel : Nat) (rest : List Bool) :
    ∃ r', decodeFrom p short (fuel + (encodeFrom dict sent d w cs).1.length) r
        (streamBits p.bitOrder (encodeFrom dict sent d w cs).1 ++ rest) = (.ok, r', rest) ∧ r'.out = r.out ++ w ++ cs := by
  induction cs generalizing dict sent d w r with
  | nil =>
    have hsz : ({ dict := dict, w := w, out := r.out ++ w } : Rebuilt).size = (Machine.emission dict sent d w).2.2 := by
      have hz := hs.size
      unfold Rebuilt.size
      rcases pending_cases sent w with ⟨u, rfl, hu⟩ | hp
      · rw [if_pos (by simpa using hu)] at hz
        rw [emission_literal hu]; simp only; omega
      · rw [if_neg hp] at hz
        rw [emission_reference hp]; simp only; omega
    refine ⟨{ dict := dict, w := w, out := r.out ++ w }, ?_, by simp⟩
    simp only [encodeFrom, streamBits, List.flatMap_cons, List.flatMap_nil, List.append_nil, List.append_assoc,
      List.length_cons, List.length_nil]
    rw [show fuel + (0 + 1 + 1) = (fuel + 1) + 1 by omega, h.emission hc hd hs, ← hsz, decodeFrom_stop]
  | cons c cs ih =>
    rw [encodeFrom_cons]
    by_cases hx : w ++ [c] ∈ withUnit dict c
    · rw [if_pos hx]
      obtain ⟨he, hs'⟩ := hs.extend hx
      rw [he]
      have h' : Behind dict sent d (w ++ [c]) r := by
        refine ⟨h.size, ?_, h.w_ne⟩
        have hdict := h.dict
        have hne := hs.w_ne_nil
        rw [he] at hx
        rcases w with _ | ⟨a, t⟩
        · exact absurd rfl hne
        · rw [if_neg] at hdict ⊢
          · simpa using hdict
          · simp
          · rintro ⟨h1, h2⟩
            rcases t with _ | ⟨b, t⟩
            · exact h2 a (by simp) (hs.long a c [] hx)
            · simp at h1
      obtain ⟨r', e, o⟩ := ih hs' h'
      exact ⟨r', e, by rw [o]; simp⟩
    · rw [if_neg hx]
      simp only [emission_withUnit hs.wIn]
      obtain ⟨r', e, o⟩ := ih (hs.emit hx) (h.emit hs hx (r.out ++ w))
      refine ⟨r', ?_, by rw [o]; simp⟩
      simp only [streamBits, List.flatMap_cons, List.length_cons, List.append_assoc] at e ⊢
      rw [show fuel + ((encodeFrom (withUnit dict c ++ [w ++ [c]]) (Machine.emission dict sent d w).2.1
          (Machine.emission dict sent d w).2.2 [c] cs).1.length + 1) = (fuel + (encodeFrom (withUnit dict c ++ [w ++ [c]])
          (Machine.emission dict sent d w).2.1 (Machine.emission dict sent d w).2.2 [c] cs).1.length) + 1 by omega,
        h.emission hc hd hs]
      exact e

end

/-- Every item the encoder writes takes bits. -/
theorem length_le_streamBits {o : BitOrder} {items : List StreamItem} (h : ∀ i ∈ items, 1 ≤ (i.bits o).length) :
    items.length ≤ (streamBits o items).length := by
  induction items with
  | nil => simp
  | cons i items ih =>
    have h1 := h i (by simp)
    have h2 := ih fun j hj => h j (by simp [hj])
    simp only [streamBits, List.flatMap_cons, List.length_append, List.length_cons] at h2 ⊢
    omega

theorem emission_bits_pos (dict : List (List CodeUnit)) (sent : List CodeUnit) (d : Nat) (w : List CodeUnit)
    (o : BitOrder) : 1 ≤ ((emission dict sent d w).1.bits o).length := by
  have := codeWidth_pos d
  unfold emission
  split
  · split
    · simpa [StreamItem.bits] using this
    · simp only [literalItem]
      split <;> simp [StreamItem.bits]
  · simpa [StreamItem.bits] using this

theorem encodeFrom_bits_pos (cs : List CodeUnit) (dict : List (List CodeUnit)) (sent : List CodeUnit) (d : Nat)
    (w : List CodeUnit) (o : BitOrder) : ∀ i ∈ (encodeFrom dict sent d w cs).1, 1 ≤ (i.bits o).length := by
  induction cs generalizing dict sent d w with
  | nil =>
    intro i hi
    simp only [encodeFrom, List.mem_cons, List.not_mem_nil, or_false] at hi
    rcases hi with rfl | rfl
    · exact emission_bits_pos _ _ _ _ _
    · simpa [StreamItem.bits] using codeWidth_pos _
  | cons c cs ih =>
    rw [encodeFrom_cons]
    split
    · exact ih _ _ _ _
    · intro i hi
      rcases List.mem_cons.mp hi with rfl | hi
      · exact emission_bits_pos _ _ _ _ _
      · exact ih _ _ _ _ i hi

/-- Decoding the bits of a code stream gives its input, whatever bits follow (R254). -/
theorem decodeBits_codeStream {p : Params} (hc : p.outCap = none) (hd : p.dictCap = none) (short : Ending)
    {us : List CodeUnit} (hne : us ≠ []) (rest : List Bool) :
    ∃ r, decodeBits p short (streamBits p.bitOrder (codeStream us) ++ rest) = (.ok, r, rest) ∧ r.out = us := by
  obtain ⟨c, cs, rfl⟩ := List.exists_cons_of_ne_nil hne
  have h2 : codeWidth 2 = 2 := by decide
  have h4 : codeWidth 4 = 3 := by decide
  unfold codeStream
  rw [encodeFrom_first]
  cases cs with
  | nil =>
    simp only [encodeFrom, emission_literal (List.not_mem_nil (a := c)), streamBits, List.flatMap_cons, List.flatMap_nil,
      List.append_nil, List.append_assoc, h2]
    obtain ⟨cd, mid, h1, e1, e2⟩ := takeLiteral_item p.bitOrder 2 le_rfl c
      ((StreamItem.stop (codeWidth 4)).bits p.bitOrder ++ rest)
    unfold decodeBits
    simp only [e1, if_pos h1, e2, exceeds, hc, Bool.false_eq_true, if_false]
    refine ⟨{ dict := [[c]], w := [c], out := [c] }, ?_, rfl⟩
    have := decodeFrom_stop (p := p) (short := short) (r := { dict := [[c]], w := [c], out := [c] })
      (((StreamItem.stop (codeWidth 4)).bits p.bitOrder ++ rest).length - 1) rest
    rw [Nat.sub_add_cancel (by simp [StreamItem.bits, h4]; omega)] at this
    exact this
  | cons b cs =>
    have hx : [c] ++ [b] ∉ withUnit [[c]] b := by rw [mem_withUnit]; simp
    rw [encodeFrom_cons, if_neg hx]
    have hs := (sound_first c).emit hx
    have hem : emission (withUnit [[c]] b) [] 2 [c] = (literalItem 2 c, [c], 4) :=
      emission_literal (List.not_mem_nil (a := c))
    have hem' : emission [[c]] [] 2 [c] = (literalItem 2 c, [c], 4) := emission_literal (List.not_mem_nil (a := c))
    simp only [hem, streamBits, List.flatMap_cons, List.append_assoc]
    rw [hem'] at hs
    have hbeh : Behind (withUnit [[c]] b ++ [[c] ++ [b]]) [c] 4 [b] { dict := [[c]], w := [c], out := [c] } := by
      refine ⟨rfl, ?_, by simp⟩
      by_cases hbc : b = c
      · subst hbc; simp [withUnit]
      · simp [withUnit, hbc]
    obtain ⟨cd, mid, h1, e1, e2⟩ := takeLiteral_item p.bitOrder 2 le_rfl c
      (streamBits p.bitOrder (encodeFrom (withUnit [[c]] b ++ [[c] ++ [b]]) [c] 4 [b] cs).1 ++ rest)
    have hfuel := length_le_streamBits (encodeFrom_bits_pos cs (withUnit [[c]] b ++ [[c] ++ [b]]) [c] 4 [b] p.bitOrder)
    obtain ⟨r', e3, o3⟩ := decode_encodeFrom (short := short) hc hd cs hs hbeh
      ((streamBits p.bitOrder (encodeFrom (withUnit [[c]] b ++ [[c] ++ [b]]) [c] 4 [b] cs).1 ++ rest).length -
        (encodeFrom (withUnit [[c]] b ++ [[c] ++ [b]]) [c] 4 [b] cs).1.length) rest
    rw [Nat.sub_add_cancel (by rw [List.length_append]; omega)] at e3
    refine ⟨r', ?_, by rw [o3]; simp⟩
    unfold decodeBits
    simp only [streamBits] at e1 e2 e3 ⊢
    simp only [e1, if_pos h1, e2, exceeds, hc, Bool.false_eq_true, if_false]
    exact e3

theorem carriesBits_enc (v : Variant) {x : Nat} (h : x < 2 ^ bpc v) : carriesBits v (enc v x) = true :=
  (carriesBits_iff v _).mpr ⟨isPad_enc v h, x, dec_enc v h⟩

theorem msbValue_lt_of_length {n : Nat} {ch : List Bool} (h : ch.length = n) : msbValue ch < 2 ^ n := h ▸ msbValue_lt ch

theorem suppliedBits_enc {v : Variant} {ch : List Bool} (h : ch.length = bpc v) (us : List CodeUnit) :
    suppliedBits v (enc v (msbValue ch) :: us) = ch ++ suppliedBits v us := by
  have hlt := msbValue_lt_of_length h
  rw [suppliedBits_cons, if_pos (carriesBits_enc v hlt), dec_enc v hlt, Option.getD_some, ← h, msbBits_msbValue]

/-- The symbols of a string of bits supply it again, then the zero bits that filled the last symbol (R65, R88). -/
theorem suppliedBits_symbolsOf (v : Variant) (bs : List Bool) (us : List CodeUnit) :
    ∃ z, suppliedBits v (symbolsOf v bs ++ us) = bs ++ (List.replicate z false ++ suppliedBits v us) := by
  obtain ⟨chunks, tail, rfl, hc, ht⟩ := exists_chunks (bpc v) (bpc_pos v) bs
  refine ⟨bpc v - tail.length, ?_⟩
  rw [symbolsOf_chunks v chunks tail hc ht]
  induction chunks with
  | nil =>
    simp only [List.map_nil, List.nil_append, List.cons_append, List.flatten_nil]
    rw [suppliedBits_enc (by simp; omega), List.append_assoc]
  | cons ch chunks ih =>
    simp only [List.map_cons, List.cons_append, List.flatten_cons, List.append_assoc] at ih ⊢
    rw [suppliedBits_enc (hc ch (by simp)), ih fun c h => hc c (by simp [h])]

/-- A unit the drain accepts. -/
theorem drainable_symbolsOf (v : Variant) (bs : List Bool) : ∀ u ∈ symbolsOf v bs, drainable v u = true := by
  obtain ⟨chunks, tail, rfl, hc, ht⟩ := exists_chunks (bpc v) (bpc_pos v) bs
  rw [symbolsOf_chunks v chunks tail hc ht]
  intro u hu
  have hd {ch : List Bool} (h : ch.length = bpc v) : drainable v (enc v (msbValue ch)) = true := by
    simp [drainable, dec_enc v (msbValue_lt_of_length h)]
  rcases List.mem_append.mp hu with hu | hu
  · obtain ⟨ch, hch, rfl⟩ := List.mem_map.mp hu
    exact hd (hc ch hch)
  · rw [List.mem_singleton.mp hu]
    exact hd (by simp; omega)

/-- What post-processing appends is drainable, and supplies zero bits only (R160 to R163, R256). -/
theorem postUnits_spec (v : Variant) (n : Nat) :
    (∀ u ∈ postUnits v n, drainable v u = true) ∧ ∃ z, suppliedBits v (postUnits v n) = List.replicate z false := by
  have hpad (v : Variant) (p : CodeUnit) (hp : isPad v p = true) (k : Nat) :
      (∀ u ∈ List.replicate k p, drainable v u = true) ∧
        ∃ z, suppliedBits v (List.replicate k p) = List.replicate z false := by
    refine ⟨fun u hu => ?_, 0, ?_⟩
    · rw [(List.mem_replicate.mp hu).2]; simp [drainable, hp]
    · cases k with
      | zero => rfl
      | succ k => rw [List.replicate_succ, suppliedBits_cons, if_neg]; rfl; simp [carriesBits, hp]
  cases v with
  | raw => exact ⟨by simp [postUnits], 0, rfl⟩
  | utf =>
    refine ⟨by simp [postUnits, drainable, dec], 15, ?_⟩
    simp [postUnits, suppliedBits, carriesBits, isPad, padSymbol, dec, bpc, msbBits, List.replicate]
  | base64 => simp only [postUnits]; exact hpad .base64 0x003D (by decide) _
  | uri => simp only [postUnits]; exact hpad .uri 0x0024 (by decide) _

/-- Decompressing the output of a compress command gives its input (R254). -/
theorem decompressValue_compressed {p : Params} (hc : p.outCap = none) (hd : p.dictCap = none) (v : Variant)
    {us : List CodeUnit} (hne : us ≠ []) : decompressValue p v (compressed p.bitOrder v us) = (.ok, us) := by
  obtain ⟨z, hz⟩ := suppliedBits_symbolsOf v (streamBits p.bitOrder (codeStream us))
    (postUnits v (symbolsOf v (streamBits p.bitOrder (codeStream us))).length)
  unfold decompressValue compressed post
  simp only [hz]
  obtain ⟨r, hr, ho⟩ := decodeBits_codeStream hc hd (shortage v (symbolsOf v (streamBits p.bitOrder (codeStream us)) ++
    postUnits v (symbolsOf v (streamBits p.bitOrder (codeStream us))).length)) hne
    (List.replicate z false ++ suppliedBits v (postUnits v (symbolsOf v (streamBits p.bitOrder (codeStream us))).length))
  rw [hr]
  simp only
  rw [if_pos, ho]
  rw [List.all_eq_true]
  intro u hu
  rcases List.mem_append.mp (List.mem_of_mem_drop hu) with hu | hu
  · exact drainable_symbolsOf v _ u hu
  · exact (postUnits_spec v _).1 u hu

end Sys2Proof.Machine
end

