-- ==== Sys2Proof/Tests/Slice0.lean ====
section
/-! SUPPORT. The model's own tests. Expected values come from the spec: the command words from R80 and R81, the outputs
from the vectors of spec/95_test_vectors.md, named at each test. At the end, witnesses for the hypotheses of the
statements. -/

namespace Sys2Proof.Tests

open Sys2Proof Sys2Proof.Machine

set_option Elab.async false

/-! ### What is not well formed is refused -/

theorem test_wf_reserved_bit : cmdWordLegal 0x00000008#32 = false ∧ cmdWordLegal 0x80000004#32 = false ∧
    decode 0x00000008#32 = .error .reservedBits ∧ decode 0xFFFFFFFF#32 = .error .reservedBits := by decide

theorem test_wf_params : Params.wf { Params.reference with dictCap := some 3 } = false ∧
    Params.wf { Params.reference with dictCap := some 4 } = true := by decide

theorem test_wf_access :
    Access.wf Params.reference { space := .regs, isWrite := true, addr := 2, bytes := 4, data := 0 } = false ∧
    Access.wf Params.reference { space := .regs, isWrite := true, addr := 0, bytes := 2, data := 0 } = false ∧
    Access.wf Params.reference { space := .inBuf, isWrite := true, addr := 1, bytes := 2, data := 0 } = false ∧
    Access.wf Params.reference { space := .outBuf, isWrite := false, addr := 0, bytes := 4, data := 0 } = false := by
  decide

theorem test_wf_items : StreamItem.wf (.ref 2 3) = false ∧ StreamItem.wf (.ref 8 3) = false ∧
    StreamItem.wf (.stop 1) = false ∧ StreamItem.wf (.lit16 0 0) = false ∧ StreamItem.wf (.lit8 0 0) = false := by decide

/-! ### The command words, written out from R80: RSV in bits 31 to 3, VAR in bits 2 to 1, DIR in bit 0 -/

theorem test_decode_compressRaw : decodeTableWord 32 0b00000000000000000000000000000000 = some .compressRaw := by decide
theorem test_decode_decompressRaw : decodeTableWord 32 0b00000000000000000000000000000001 = some .decompressRaw := by decide
theorem test_decode_compressUtf : decodeTableWord 32 0b00000000000000000000000000000010 = some .compressUtf := by decide
theorem test_decode_decompressUtf : decodeTableWord 32 0b00000000000000000000000000000011 = some .decompressUtf := by decide
theorem test_decode_compressBase64 : decodeTableWord 32 0b00000000000000000000000000000100 = some .compressBase64 := by
  decide
theorem test_decode_decompressBase64 : decodeTableWord 32 0b00000000000000000000000000000101 = some .decompressBase64 := by
  decide
theorem test_decode_compressUri : decodeTableWord 32 0b00000000000000000000000000000110 = some .compressUri := by decide
theorem test_decode_decompressUri : decodeTableWord 32 0b00000000000000000000000000000111 = some .decompressUri := by decide

/-- R93 and DV-E1: the items of "x" are 13 bits, `0001111000010`. -/
theorem test_item_bits : streamBits .msbFirst [.lit8 2 0x78, .stop 3] =
    [false, false, false, true, true, true, true, false, false, false, false, true, false] := by decide

/-! ### The commands, each on a loaded block -/

/-- A block after reset in which the host has written an input (R293). -/
def loadedWith (p : Params) (us : List CodeUnit) : State :=
  { State.reset with
    cfg := p, inMem := us.zipIdx.map fun x => (x.2, x.1), inLen := BitVec.ofNat 32 us.length, inPresent := true }

/-- The same with the reference parameters. -/
def loaded (us : List CodeUnit) : State := loadedWith Params.reference us

/-- What the host then reads: STATUS, and OUT up to OUT_LEN. -/
def seen : Host.Outcome State Fault Refusal → Option (Word × List CodeUnit)
  | .next s => some (statusWord s, outputUnits s s.outLen.toNat)
  | .fault _ | .refused _ => none

/-- DV-R1, DV-R3. -/
theorem test_compressRaw : seen (exec .compressRaw (loaded (codeUnits "x"))) = some (0x106, [0x1E10]) ∧
    seen (exec .compressRaw (loaded [0xFFFF, 0x0041])) = some (0x106, [0x7FFF, 0xC20A, 0x0000]) := by decide +kernel

/-- DV-R4, DV-R3 (the lazy refill). -/
theorem test_decompressRaw : seen (exec .decompressRaw (loaded [0x1E10, 0x1234])) = some (0x106, codeUnits "x") ∧
    seen (exec .decompressRaw (loaded [0x7FFF, 0xC20A])) = some (0x106, [0xFFFF, 0x0041]) := by decide +kernel

/-- DV-U3, DV-U4. -/
theorem test_compressUtf :
    seen (exec .compressUtf (loaded (codeUnits "aaaaaaaaaa"))) = some (0x106, [0x0C52, 0x7220, 0x0020]) ∧
    seen (exec .compressUtf (loaded [0xD800, 0xDC00])) = some (0x106, [0x3B20, 0x03D8, 0x0060, 0x0020]) := by
  decide +kernel

/-- DV-U2, DV-U5, DV-U6. -/
theorem test_decompressUtf : seen (exec .decompressUtf (loaded [0x0F28])) = some (0x106, codeUnits "x") ∧
    seen (exec .decompressUtf (loaded [0x001F])) = some (0x08E, []) ∧
    seen (exec .decompressUtf (loaded [0x0F28, 0x8020])) = some (0x08E, []) := by decide +kernel

/-- DV-B8: references, reuse and width growth. -/
theorem test_compressBase64 : seen (exec .compressBase64 (loaded (codeUnits "TOBEORNOTTOBEORTOBEORNOT"))) =
    some (0x106, codeUnits "FQJ4QgRUBSBOQZUskp0BA===") := by decide +kernel

/-- DV-B3: the end code uses the width after the last grow. -/
theorem test_compressBase64_widens_before_end :
    seen (exec .compressBase64 (loaded (codeUnits "aaaaaaaaaaa"))) = some (0x106, codeUnits "GGXMg===") := by
  decide +kernel

/-- DV-D5, DV-D7, DV-D8: self-references and growth, a LIT16 below 256, a second entry for one unit. -/
theorem test_decompressBase64 :
    seen (exec .decompressBase64 (loaded (codeUnits "GGXeCA=="))) = some (0x106, List.replicate 21 0x61) ∧
    seen (exec .decompressBase64 (loaded (codeUnits "QB4Q"))) = some (0x106, codeUnits "x") ∧
    seen (exec .decompressBase64 (loaded (codeUnits "HgPC"))) = some (0x106, codeUnits "xx") := by decide +kernel

/-- DV-X1 to DV-X5: one input per cause. -/
theorem test_decompressBase64_causes :
    seen (exec .decompressBase64 (loaded (codeUnits "gAAA"))) = some (0x02E, []) ∧
    seen (exec .decompressBase64 (loaded (codeUnits "Hjg="))) = some (0x04E, []) ∧
    seen (exec .decompressBase64 (loaded (codeUnits "Hh=="))) = some (0x06E, []) ∧
    seen (exec .decompressBase64 (loaded (codeUnits "HhA!"))) = some (0x08E, []) := by decide +kernel

/-- DV-I2, DV-I4. -/
theorem test_compressUri :
    seen (exec .compressUri (loaded (codeUnits "abcdefgh"))) = some (0x106, codeUnits "GEMQYwZAZQZgZwNAg$$$") ∧
    seen (exec .compressUri (loaded [0xFFFF])) = some (0x106, codeUnits "f--Q") := by decide +kernel

/-- DV-I5, EX-9. -/
theorem test_decompressUri :
    seen (exec .decompressUri (loaded (codeUnits "GEMVQ$$$"))) = some (0x106, codeUnits "abab") ∧
    seen (exec .decompressUri (loaded (codeUnits "HhA="))) = some (0x08E, []) := by decide +kernel

/-- DV-K1 to DV-K5: one capacity each. -/
theorem test_capacities :
    seen (exec .compressBase64 (loadedWith { Params.reference with dictCap := some 5 } (codeUnits "ab"))) =
      some (0x0F2, []) ∧
    seen (exec .compressBase64 (loadedWith { Params.reference with dictCap := some 5 } (codeUnits "aa"))) =
      some (0x106, codeUnits "GFo=") ∧
    seen (exec .decompressBase64 (loadedWith { Params.reference with dictCap := some 4 } (codeUnits "GFo="))) =
      some (0x0F2, []) ∧
    seen (exec .compressUtf (loadedWith { Params.reference with outCap := some 1 } (codeUnits "x"))) =
      some (0x0D2, []) ∧
    seen (exec .decompressBase64 (loadedWith { Params.reference with outCap := some 9 } (codeUnits "GGXI"))) =
      some (0x0D2, []) ∧
    seen (exec .compressRaw (loadedWith { Params.reference with inCap := some 2 } (codeUnits "xyz"))) =
      some (0x0B2, []) := by decide +kernel

/-- DV-X6, DV-X7, EX-5: an illegal word comes before absence; absence; the empty input. -/
theorem test_endings_without_engine :
    seen (writeCmd 0x00000009 State.reset) = some (0x016, []) ∧
    seen (writeCmd 0x00000005 State.reset) = some (0x00A, []) ∧
    seen (exec .compressUtf (loaded [])) = some (0x106, []) := by decide +kernel

/-- A busy block: the command has been accepted, and the engine stands before its first step. -/
def running (v : Variant) (d : Dir) (us : List CodeUnit) : State :=
  { accept d v (loaded us) with pace := .steps 0 }

/-- DV-X8: a CMD write while BUSY sets REJECTED, and STATUS reads 0x201. -/
theorem test_rejected : seen (writeCmd 0x00000001 (running .base64 .compress (codeUnits "x"))) = some (0x201, []) := by
  decide +kernel

/-- What is placed where the machine takes its next instruction runs in the next step. -/
theorem test_withFetchWord :
    seen (step ((loaded (codeUnits "x")).withFetchWord 32 6)) = some (0x106, codeUnits "HhA$") := by decide +kernel

/-- P1: the CMD write of the boot sequence as a bus access, then a STATUS read. -/
theorem test_status_read : (match step { loaded [] with host := [{ act := .access (rdReg Params.reference 4), pace := .toEnd }] } with
    | .next s => s.reads
    | _ => []) = [.word 0] := by decide +kernel

/-! ### Witnesses: states and operands that meet the hypotheses of the statements -/

/-- A loaded block is ready for a command. -/
theorem ready_loadedWith {p : Params} (us : List CodeUnit) (hp : p.wf = true) (hw : (loadedWith p us).inMem.wf) :
    Ready (loadedWith p us) where
  inv := Inv.of_idle hp rfl rfl ⟨hw, .nil, fun _ h => by cases h⟩ rfl rfl
  idle := rfl
  pace := rfl

theorem ready_loaded (us : List CodeUnit) (hw : (loaded us).inMem.wf) : Ready (loaded us) :=
  ready_loadedWith us rfl hw

/-- `exec` answers a next state for a ready block. -/
theorem exec_next {s : State} (h : Ready s) (i : Instr) : ∃ t, exec i s = .next t := by
  obtain ⟨t, e, -⟩ := accept_run h.inv.params h.pace i.dir i.variant
  refine ⟨t, ?_⟩
  rw [exec_eq, runCommand, if_neg (by rw [h.idle]; simp)]
  exact e

/-- A running block, as acceptance leaves it, and after some engine steps. -/
def accepted (d : Dir) (v : Variant) (us : List CodeUnit) : State := accept d v (loaded us)

theorem accepted_inv (d : Dir) (v : Variant) (us : List CodeUnit) (hw : (loaded us).inMem.wf) :
    Inv (accepted d v us) := accept_inv (ready_loaded us hw).inv d v

/-- The state after `n` engine steps. -/
def afterSteps (n : Nat) (s : State) : State :=
  match engineRun n s with
  | .next t => t
  | .fault _ | .refused _ => s

theorem afterSteps_inv (n : Nat) {s : State} (h : Inv s) : Inv (afterSteps n s) := by
  obtain ⟨t, e, ht⟩ := engineRun_inv n h
  rw [afterSteps, e]; exact ht

theorem witness_StepRunsDecodedCommand :
    ∃ s : State, ∃ v i p rest, decode v = .ok i ∧ s.host = { act := .access (wrReg s.cfg 0 v), pace := p } :: rest :=
  ⟨{ State.reset with host := [{ act := .access (wrReg Params.reference 0 5), pace := .toEnd }] }, 5,
    .decompressBase64, .toEnd, [], rfl, rfl⟩

theorem witness_CommandWordDecodesExactly :
    (8#32 &&& 0xFFFFFFF8#32 ≠ 0#32) ∧ (7#32 &&& 0xFFFFFFF8#32 = 0#32) ∧ (∃ i, decode 7#32 = .ok i) := by
  refine ⟨by decide, by decide, .decompressUri, rfl⟩

theorem witness_StreamItemsReadBack : (StreamItem.lit8 1 255).wf = true ∧ (StreamItem.lit16 1 0xFFFF).wf = true ∧
    (StreamItem.ref 3 2).wf = true ∧ (StreamItem.stop 2).wf = true := by decide

theorem witness_LiteralsTakeTheShorterForm :
    StreamItem.lit16 2 256 ∈ codeStream [256] ∧ StreamItem.lit8 2 255 ∈ codeStream [255] := by decide +kernel

theorem witness_ValueBitsGoMsbFirst : (2 < 3) ∧ 7 < 2 ^ 3 ∧ ∃ bs u,
    Unpacker.readBitList .raw 1 (fun _ => 5) 3 Unpacker.start = .ok (bs, u) := ⟨by decide, by decide, _, _, rfl⟩

theorem witness_HardResetAbandonsCommand : ∃ s : State, s.busy = true ∧
    ∃ p rest, s.host = { act := .hardReset, pace := p } :: rest :=
  ⟨{ accepted .compress .raw [1] with host := [{ act := .hardReset, pace := .toEnd }] }, by decide, .toEnd, [], rfl⟩

theorem witness_StepKeepsInvariant : ∃ s t, Inv s ∧ s.busy = true ∧ step s = .next t := by
  have h := accepted_inv .compress .uri [65, 66] (by decide)
  obtain ⟨t, e, -⟩ := engineStep_inv h (by decide)
  exact ⟨_, t, h, by decide, e⟩

theorem witness_StepHasNoEngineFault : ∃ s, Inv s ∧ s.busy = true :=
  ⟨_, accepted_inv .decompress .utf [65] (by decide), by decide⟩

theorem witness_EveryCommandComputesItsFunction : Ready (loaded [65, 66]) ∧ Ready State.reset :=
  ⟨ready_loaded _ (by decide), ready_loaded [] (by decide) |> fun h =>
    ⟨Inv.of_idle rfl rfl rfl ⟨.nil, .nil, fun _ _ => rfl⟩ rfl rfl, rfl, rfl⟩⟩

theorem witness_CompressIsTotal : ∃ s : State, ∃ i : Instr, Ready s ∧ i.dir = .compress ∧ s.inPresent = true ∧
    s.cfg.isReference = true := ⟨loaded [65], .compressUtf, ready_loaded _ (by decide), rfl, rfl, rfl⟩

/-- EX-3: what `COMPRESS.BASE64` leaves in OUT for "x" is what a block loaded with "HhA=" holds in IN. -/
theorem witness_DecompressUndoesCompress : Ready (loaded (codeUnits "x")) ∧ Ready (loaded (codeUnits "HhA=")) ∧
    (loaded (codeUnits "x")).cfg.isReference = true ∧
    (compressed .msbFirst .base64 (inputSequence (loaded (codeUnits "x")))).length < 2 ^ 32 ∧
    (match exec (Instr.of .compress .base64) (loaded (codeUnits "x")) with
      | .next t => decide ((loaded (codeUnits "HhA=")).inLen = t.outLen) &&
          (List.range t.outLen.toNat).all fun k => inUnit (loaded (codeUnits "HhA=")) k == outUnit t k
      | .fault _ | .refused _ => false) = true :=
  ⟨ready_loaded _ (by decide +kernel), ready_loaded _ (by decide +kernel), rfl, by decide +kernel, by decide +kernel⟩

theorem witness_AbsentAndEmptyInputs : State.reset.busy = false ∧ State.reset.inPresent = false ∧
    (loaded []).busy = false ∧ (loaded []).inPresent = true ∧ (loaded []).inLen = 0 := by decide

theorem witness_OverlongInputIsCapacity :
    let s := loadedWith { Params.reference with inCap := some 2 } [1, 2, 3]
    s.busy = false ∧ s.inPresent = true ∧ exceeds s.cfg.inCap s.inLen.toNat = true := by decide

theorem witness_IllegalCommandWordCompletes : State.reset.busy = false ∧ 8#32 &&& 0xFFFFFFF8#32 ≠ 0#32 := by decide

theorem witness_CommandWhileBusyIsRejected :
    (∃ s t, s.busy = true ∧ advance s = .next t) ∧ State.reset.busy = false := by
  obtain ⟨t, e, -⟩ := advance_inv (accepted_inv .compress .raw [65] (by decide))
  exact ⟨⟨_, t, by decide, e⟩, rfl⟩

theorem witness_OperandWritesWhileBusyHaveNoEffect : ∃ s t, s.busy = true ∧ advance s = .next t := by
  obtain ⟨t, e, -⟩ := advance_inv (accepted_inv .decompress .base64 [65] (by decide))
  exact ⟨_, t, by decide, e⟩

theorem witness_InWriteWhileBusyStillCompletes : ∃ s : State, Inv s ∧ s.busy = true ∧ s.pace = .toEnd :=
  ⟨_, accepted_inv .compress .raw [65] (by decide), by decide, rfl⟩

theorem witness_EveryCommandTerminates : ∃ s : State, Inv s ∧ s.busy = true :=
  ⟨_, accepted_inv .decompress .uri [65, 66, 67] (by decide), by decide⟩

theorem witness_PaceDoesNotChangeTheEndState : Ready (loaded [65, 65, 65]) := ready_loaded _ (by decide)

/-- Two blocks with the same input and different pasts. -/
theorem witness_CommandsDoNotInteract : ∃ r s : State, Ready r ∧ Ready s ∧ r ≠ s ∧ r.cfg = s.cfg ∧
    r.inPresent = s.inPresent ∧ inputSequence r = inputSequence s := by
  refine ⟨loaded [65], { loaded [65] with w := [7], epoch := 3, reads := [.word 1] }, ready_loaded _ (by decide),
    ⟨Inv.of_idle rfl rfl rfl ⟨by decide, .nil, fun _ _ => rfl⟩ rfl rfl, rfl, rfl⟩, ?_, rfl, rfl, ?_⟩
  · intro h
    have := congrArg State.w h
    revert this; decide
  · decide +kernel

theorem witness_CommandFrame : ∃ s : State, ∃ t, Ready s ∧ exec .compressBase64 s = .next t := by
  obtain ⟨t, e⟩ := exec_next (ready_loaded [65] (by decide)) .compressBase64
  exact ⟨_, t, ready_loaded _ (by decide), e⟩

theorem witness_EngineRegisterFrame : Ready (loaded [65]) ∧ Instr.compressRaw.dir = .compress ∧
    Instr.decompressRaw.dir = .decompress := ⟨ready_loaded _ (by decide), rfl, rfl⟩

/-- An access that stands next. -/
def facing (s : State) (a : Access) : State := { s with host := [{ act := .access a, pace := .toEnd }] }

theorem witness_ResultsStayReadable :
    (∃ s t : State, s.busy = false ∧ step s = .next t ∧ s.host = []) ∧
    ∃ s t : State, s.busy = false ∧ step s = .next t ∧ ∃ a p rest, s.host = { act := .access a, pace := p } :: rest ∧
      ¬ (a.space = .regs ∧ a.isWrite = true ∧ a.place s.cfg = some 0) :=
  ⟨⟨State.reset, State.reset, rfl, rfl, rfl⟩,
    facing State.reset (wrReg Params.reference 8 5), _, rfl, rfl, wrReg Params.reference 8 5, .toEnd, [], rfl, by decide⟩

theorem witness_ReadsReturnTheStateAndChangeNothing :
    (rdReg Params.reference 0x10).place Params.reference = some 0x10 ∧ (rdIn Params.reference 3).place Params.reference = some 3 ∧
    (rdOut Params.reference 0).place Params.reference = some 0 ∧ (rdReg Params.reference 0x10).isWrite = false ∧
    (rdIn Params.reference 3).isWrite = false ∧ (rdOut Params.reference 0).isWrite = false ∧
    (facing State.reset (rdOut Params.reference 0)).host =
      { act := .access (rdOut Params.reference 0), pace := .toEnd } :: [] := by decide

theorem witness_RegisterWindow : decode 2#32 = .ok .compressUtf ∧ State.reset.busy = false ∧
    (0x10 < 0x14) ∧ 0x0C % 4 = 0 := by decide

theorem witness_StatusWordLayout : ∃ s : State, Inv s ∧ s.busy = true :=
  ⟨_, accepted_inv .compress .uri [65] (by decide), by decide⟩

theorem witness_ReadsWhileBusy : ∃ s : State, Inv s ∧ s.busy = true :=
  ⟨_, accepted_inv .compress .uri [65] (by decide), by decide⟩

/-- One irregular access for each way to be one, in each space. -/
theorem witness_IrregularAccessesAreRefused :
    ({ rdReg Params.reference 0 with bytes := 2 } : Access).bytes ≠ 4 ∧
    ((rdReg Params.reference 2).addr - Params.reference.regBase) % 4 ≠ 0 ∧
    ({ rdIn Params.reference 0 with bytes := 4 } : Access).bytes ≠ 2 ∧
    ({ rdOut Params.reference 0 with addr := 1 } : Access).addr % 2 ≠ 0 ∧
    ({ rdReg Params.reference 0 with addr := 3 } : Access).addr < ({ Params.reference with regBase := 4 } : Params).regBase ∧
    (facing State.reset { rdOut Params.reference 0 with addr := 1 }).host =
      { act := .access { rdOut Params.reference 0 with addr := 1 }, pace := .toEnd } :: [] := by decide

/-- A small block: the capacities of program P4. -/
def small : State :=
  loadedWith { Params.reference with inCap := some 2, outCap := some 3, dictCap := some 5 } (codeUnits "ab")

theorem small_inv : Inv small := (ready_loadedWith _ rfl (by decide +kernel)).inv

/-- P4: IN[2] of an IN of two units takes the unit the host writes. -/
theorem test_write_past_the_capacity : (match writeIn 2 0x0063 small with
    | .next s => some (inUnit s 0, inUnit s 1, inUnit s 2)
    | .fault _ | .refused _ => none) = some (0x0061, 0x0062, 0x0063) := by decide +kernel

/-- DV-R1, R294: after COMPRESS.RAW of "x", a host write of OUT[0] leaves the output. -/
theorem test_write_of_out : (match exec .compressRaw (loaded (codeUnits "x")) with
    | .next s => seen (writeOut 0 0xFFFF s)
    | .fault _ | .refused _ => none) = some (0x106, [0x1E10]) := by decide +kernel

/-- Each kind of buffer access at an index past the capacity, and a register access. -/
theorem witness_EveryAlignedAccessIsAllowed : Inv small ∧ small.cfg = { Params.reference with
      inCap := some 2, outCap := some 3, dictCap := some 5 } ∧
    exceeds small.cfg.inCap (2 + 1) = true ∧ exceeds small.cfg.outCap (3 + 1) = true ∧
    (rdIn small.cfg 2).place small.cfg = some 2 ∧ (wrIn small.cfg 2 7).place small.cfg = some 2 ∧
    (rdOut small.cfg 3).place small.cfg = some 3 ∧ (rdReg small.cfg 4).place small.cfg = some 4 ∧
    Inv (facing small (rdIn small.cfg 2)) ∧
    (facing small (rdIn small.cfg 2)).host = { act := .access (rdIn small.cfg 2), pace := .toEnd } :: [] :=
  ⟨small_inv, rfl, by decide, by decide, rfl, rfl, rfl, rfl,
    ⟨small_inv.params, ⟨small_inv.status.busy, small_inv.status.done, small_inv.status.present, small_inv.status.malformed,
      small_inv.status.capacity, small_inv.status.length⟩, ⟨small_inv.buffers.inWf, small_inv.buffers.outWf,
      small_inv.buffers.outRoom⟩, small_inv.engine⟩, rfl⟩

theorem witness_HostWriteOfOutChangesNothing :
    let a : Access := { rdOut Params.reference 3 with isWrite := true, data := 7 }
    (facing State.reset a).host = { act := .access a, pace := .toEnd } :: [] ∧ a.space = .outBuf ∧ a.isWrite = true ∧
      a.place (facing State.reset a).cfg = some 3 := by decide

theorem witness_UnitsPastTheCapacityAreNoInput : Ready small ∧ exceeds small.cfg.inCap (2 + 1) = true :=
  ⟨ready_loadedWith _ rfl (by decide +kernel), by decide⟩

theorem witness_InHoldsWhatTheHostWrote : small.inMem.wf ∧ small.busy = false ∧
    exceeds small.cfg.inCap (1 + 1) = false ∧ exceeds small.cfg.inCap (2 + 1) = true ∧
    (facing small (wrIn small.cfg 2 7)).host = { act := .access (wrIn small.cfg 2 7), pace := .toEnd } :: [] := by
  decide +kernel

theorem witness_AlphabetTablesAreInverse : (63 < 2 ^ bpc .uri) ∧ dec .uri 0x2D = some 63 ∧ isPad .uri 0x24 = true := by decide

theorem witness_RawAndUtfTables : (65535 ≤ 65535) ∧ 32767 ≤ 32767 := by decide

theorem witness_OutputStaysInTheAlphabet : Ready (loaded [0xD800]) := ready_loaded _ (by decide)

theorem witness_PaddedLengthIsAMultipleOfFour : Ready (loaded [65]) ∧ (Variant.base64 = .base64 ∨ Variant.base64 = .uri) :=
  ⟨ready_loaded _ (by decide), .inl rfl⟩

theorem witness_OutputLengthFromStreamBits : Ready (loaded [65]) ∧ (loaded [65]).cfg.isReference = true ∧
    (loaded [65]).inPresent = true ∧ (loaded [65]).inLen ≠ 0 := ⟨ready_loaded _ (by decide), rfl, rfl, by decide⟩

theorem witness_UriOutputIsBase64WithOtherSymbols : Ready (loaded [0xFFFF]) ∧
    (loaded [0xFFFF]).cfg.isReference = true ∧ (loaded [0xFFFF]).inPresent = true := ⟨ready_loaded _ (by decide), rfl, rfl⟩

theorem witness_PackerEmitsOneSymbolMore : ∀ f ∈ [(3, 2), (255, 8), (0, 0)], f.1 < 2 ^ f.2 := by decide

theorem witness_UnpackerReturnsThePackedBits : ∃ p,
    [(3, 2), (255, 8)].foldlM (fun p f => Packer.emitBits .base64 .msbFirst f.1 f.2 p) Packer.start = .ok p := ⟨_, rfl⟩

theorem witness_EmitBitsFaultsOnOverflow : (2 ^ 3 ≤ 8) ∧ 7 < 2 ^ 3 := by decide

/-- The end of the input, a pad, a symbol outside the alphabet, a symbol; and an unpacker that still holds a bit. -/
theorem witness_RefillChecksInOrder :
    (0 < (Unpacker.mk 1 1 0).rem) ∧ (0 ≤ Unpacker.start.idx) ∧ (Unpacker.start.idx < 1 ∧ isPad .base64 0x3D = true) ∧
    (isPad .base64 0x21 = false ∧ dec .base64 0x21 = none) ∧ (isPad .base64 0x2F = false ∧ dec .base64 0x2F = some 63) := by
  decide

theorem witness_DrainAcceptsAlphabetAndPad : (2 ≤ 2 ∧ 2 < 2 + 1) ∧ Variant.raw = .raw := by decide

theorem witness_GrowWidensTheCode : (Counters.mk 4 2 1).enlargeIn = 1 ∧ 2 ≤ (Counters.mk 4 2 2).enlargeIn := by decide

theorem witness_GrowKeepsTheDecoderInvariant :
    let c : Counters := { dictSize := 7, numBits := 3, enlargeIn := 1 }
    (1 ≤ c.dictSize ∧ c.dictSize + c.enlargeIn = 2 ^ c.numBits ∧ 1 ≤ c.enlargeIn ∧ c.enlargeIn ≤ 2 ^ (c.numBits - 1)) ∧
    ∃ s, Inv s ∧ s.phase = .decLoop :=
  ⟨by decide, _, afterSteps_inv 1 (accepted_inv .decompress .base64 (codeUnits "HhA=") (by decide +kernel)),
    by decide +kernel⟩

theorem witness_CodeWidthIsBoundedByDictSize : ∃ s : State, Inv s ∧ s.phase = .encScan ∧ s.cfg.dictCap = some 4 :=
  ⟨_, accept_inv (ready_loadedWith (p := { Params.reference with dictCap := some 4 }) [65] rfl
    (by decide)).inv .compress .raw, rfl, rfl⟩

theorem witness_DictionaryNeverOutgrowsTwiceTheInput :
    let s := loadedWith { Params.reference with dictCap := some 4 } [65]
    Ready s ∧ Instr.compressRaw.dir = .compress ∧ s.cfg.dictCap = some 4 ∧ 2 * s.inLen.toNat + 2 ≤ 4 :=
  ⟨ready_loadedWith _ rfl (by decide), rfl, rfl, by decide⟩

/-- The dictionary's sequences once the unit that stands next has been registered. -/
def keysWithUnit (s : State) : List (List CodeUnit) :=
  let c := inUnit s s.inIdx
  if [c] ∈ encoderKeys s then encoderKeys s else encoderKeys s ++ [[c]]

/-- The scan: the first unit of "ab" extends `w`, its second emits a pending `w`, and the fourth of "aaaa" a `w` that is
not pending. -/
theorem witness_EncoderScanStep :
    (∃ s, Inv s ∧ s.phase = .encScan ∧ s.inIdx < inputLength s ∧ exceeds s.cfg.dictCap (s.ctr.dictSize + 2) = false ∧
      s.w ++ [inUnit s s.inIdx] ∈ keysWithUnit s) ∧
    (∃ s, Inv s ∧ s.phase = .encScan ∧ s.inIdx < inputLength s ∧ exceeds s.cfg.dictCap (s.ctr.dictSize + 2) = false ∧
      s.w ++ [inUnit s s.inIdx] ∉ keysWithUnit s ∧ s.w ∈ s.ePend) ∧
    ∃ s, Inv s ∧ s.phase = .encScan ∧ s.inIdx < inputLength s ∧ exceeds s.cfg.dictCap (s.ctr.dictSize + 2) = false ∧
      s.w ++ [inUnit s s.inIdx] ∉ keysWithUnit s ∧ s.w ∉ s.ePend := by
  have h := accepted_inv .compress .base64 (codeUnits "ab") (by decide +kernel)
  have h' := accepted_inv .compress .base64 (codeUnits "aaaa") (by decide +kernel)
  exact ⟨⟨_, h, by decide +kernel, by decide +kernel, rfl, by decide +kernel⟩,
    ⟨_, afterSteps_inv 1 h, by decide +kernel, by decide +kernel, by decide +kernel, by decide +kernel, by decide +kernel⟩,
    ⟨_, afterSteps_inv 3 h', by decide +kernel, by decide +kernel, by decide +kernel, by decide +kernel, by decide +kernel⟩⟩

/-- The value a read of so many bits gives. -/
def nextBits (k : Nat) (s : State) : Option Nat :=
  match readBits k s with
  | .ok (x, _) => some x
  | .error _ => none

theorem nextBits_some {k x : Nat} {s : State} (h : nextBits k s = some x) : ∃ r, readBits k s = .ok (x, r) := by
  unfold nextBits at h
  split at h
  · cases h; exact ⟨_, by assumption⟩
  · cases h

/-- The state after a read of so many bits. -/
def afterBits (k : Nat) (s : State) : State :=
  match readBits k s with
  | .ok (_, r) => r
  | .error _ => s

/-- A block between two codes, whose next code and the room it needs are these. -/
def FacesCode (cd entries units : Nat) (s r : State) : Prop :=
  Inv s ∧ s.phase = .decLoop ∧ s.tainted = false ∧ readBits s.ctr.numBits s = .ok (cd, r) ∧
    exceeds s.cfg.outCap (s.outIdx + units) = false ∧ exceeds s.cfg.dictCap (s.ctr.dictSize + entries) = false

theorem facesCode_loaded {v : Variant} {us : List CodeUnit} {n cd : Nat} (hw : (loaded us).inMem.wf)
    (hp : (afterSteps n (accepted .decompress v us)).phase = .decLoop)
    (ht : (afterSteps n (accepted .decompress v us)).tainted = false)
    (hc : (afterSteps n (accepted .decompress v us)).cfg = Params.reference)
    (hn : nextBits (afterSteps n (accepted .decompress v us)).ctr.numBits (afterSteps n (accepted .decompress v us)) = some cd)
    (entries units : Nat) : ∃ r, FacesCode cd entries units (afterSteps n (accepted .decompress v us)) r := by
  obtain ⟨r, hr⟩ := nextBits_some hn
  exact ⟨r, afterSteps_inv n (accepted_inv .decompress v us hw), hp, ht, hr, by rw [hc]; rfl, by rw [hc]; rfl⟩

/-- DV-D1 (code 2), DV-D4 (code 0 and its literal), the RAW reading of "HhA=" (code 1 and its literal), DV-X2 (code 7 of 4
entries), DV-D2 (the entry about to be made) and DV-D3 (an entry that is there). -/
theorem witness_DecoderLoopStep :
    (∃ s r, FacesCode 2 0 0 s r) ∧
    (∃ s r q, FacesCode 0 2 1 s r ∧ readBits 8 r = .ok (0x62, q)) ∧
    (∃ s r q, FacesCode 1 2 1 s r ∧ readBits 16 r = .ok (0x000D, q)) ∧
    (∃ s r, FacesCode 7 0 0 s r ∧ s.ctr.dictSize < 7) ∧
    (∃ s r, FacesCode 4 1 2 s r ∧ s.ctr.dictSize = 4 ∧ (s.w ++ s.w.take 1).length = 2) ∧
    ∃ s r, FacesCode 3 1 1 s r ∧ 3 < s.ctr.dictSize ∧ (s.dDict.getD 3 []).length = 1 := by
  have hD {v : Variant} {us : List CodeUnit} {n cd x k : Nat} {e m : Nat}
      (h : ∃ r, FacesCode cd e m (afterSteps n (accepted .decompress v us)) r)
      (hx : nextBits k (afterBits (afterSteps n (accepted .decompress v us)).ctr.numBits
        (afterSteps n (accepted .decompress v us))) = some x) :
      ∃ s r q, FacesCode cd e m s r ∧ readBits k r = .ok (x, q) := by
    obtain ⟨r, h⟩ := h
    obtain ⟨q, hq⟩ := nextBits_some hx
    rw [afterBits, h.2.2.2.1] at hq
    exact ⟨_, r, q, h, hq⟩
  refine ⟨⟨_, facesCode_loaded (v := .base64) (us := codeUnits "HhA=") (n := 1) (by decide +kernel) (by decide +kernel)
      (by decide +kernel) (by decide +kernel) (by decide +kernel) 0 0⟩,
    hD (facesCode_loaded (v := .base64) (us := codeUnits "GEMVQ===") (n := 1) (by decide +kernel) (by decide +kernel)
      (by decide +kernel) (by decide +kernel) (by decide +kernel) 2 1) (by decide +kernel),
    hD (facesCode_loaded (v := .raw) (us := codeUnits "HhA=") (n := 1) (by decide +kernel) (by decide +kernel)
      (by decide +kernel) (by decide +kernel) (by decide +kernel) 2 1) (by decide +kernel), ?_, ?_, ?_⟩
  · obtain ⟨r, h⟩ := facesCode_loaded (v := .base64) (us := codeUnits "Hjg=") (n := 1) (cd := 7) (by decide +kernel)
      (by decide +kernel) (by decide +kernel) (by decide +kernel) (by decide +kernel) 0 0
    exact ⟨_, r, h, by decide +kernel⟩
  · obtain ⟨r, h⟩ := facesCode_loaded (v := .base64) (us := codeUnits "GGXI") (n := 1) (cd := 4) (by decide +kernel)
      (by decide +kernel) (by decide +kernel) (by decide +kernel) (by decide +kernel) 1 2
    exact ⟨_, r, h, by decide +kernel, by decide +kernel⟩
  · obtain ⟨r, h⟩ := facesCode_loaded (v := .base64) (us := codeUnits "GGNA") (n := 2) (cd := 3) (by decide +kernel)
      (by decide +kernel) (by decide +kernel) (by decide +kernel) (by decide +kernel) 1 1
    exact ⟨_, r, h, by decide +kernel, by decide +kernel⟩

/-- DV-X1. -/
theorem witness_FirstCodeMustBeLiteral :
    let s := loaded (codeUnits "gAAA")
    Ready s ∧ s.cfg.bitOrder = .msbFirst ∧ s.inPresent = true ∧ s.inLen ≠ 0 ∧
      exceeds s.cfg.inCap s.inLen.toNat = false ∧ dec .base64 (inUnit s 0) = some 32 ∧ 2 ^ (bpc .base64 - 1) ≤ 32 :=
  ⟨ready_loaded _ (by decide +kernel), rfl, rfl, by decide +kernel, rfl, by decide +kernel, by decide⟩

/-- DV-X5: a pad first, and a unit outside the alphabet first. -/
theorem witness_FirstSymbolDecidesBeforeItsCode :
    (let s := loaded (codeUnits "=AAA")
     Ready s ∧ s.inPresent = true ∧ s.inLen ≠ 0 ∧ exceeds s.cfg.inCap s.inLen.toNat = false ∧
      dec .base64 (inUnit s 0) = none ∧ isPad .base64 (inUnit s 0) = true) ∧
    (let s := loaded (codeUnits "!AAA")
     Ready s ∧ s.inPresent = true ∧ s.inLen ≠ 0 ∧ exceeds s.cfg.inCap s.inLen.toNat = false ∧
      dec .base64 (inUnit s 0) = none ∧ isPad .base64 (inUnit s 0) = false) :=
  ⟨⟨ready_loaded _ (by decide +kernel), rfl, by decide +kernel, rfl, by decide +kernel, by decide +kernel⟩,
    ⟨ready_loaded _ (by decide +kernel), rfl, by decide +kernel, rfl, by decide +kernel, by decide +kernel⟩⟩

theorem witness_RawInputHasNoBadSymbol : Ready (loaded [0xFFFF]) := ready_loaded _ (by decide)

/-- DV-P12: symbols after the end code. -/
theorem witness_UnreadSymbolsDoNotMatter :
    Ready (loaded (codeUnits "HhA")) ∧ Ready (loaded (codeUnits "HhAAA=")) ∧ (loaded (codeUnits "HhA")).inLen ≠ 0 ∧
    ((loaded (codeUnits "HhA")).cfg.isReference = true ∧ (loaded (codeUnits "HhAAA=")).cfg.isReference = true ∧
      (loaded (codeUnits "HhA")).inPresent = true ∧ (loaded (codeUnits "HhAAA=")).inPresent = true) ∧
    inputSequence (loaded (codeUnits "HhAAA=")) = inputSequence (loaded (codeUnits "HhA")) ++ codeUnits "AA=" ∧
    (∀ u ∈ codeUnits "AA=", isPad .base64 u = true ∨ dec .base64 u ≠ none) ∧
    seen (exec (Instr.of .decompress .base64) (loaded (codeUnits "HhA"))) = some (0x106, codeUnits "x") := by
  have h : (codeUnits "AA=").all (fun u => isPad .base64 u || (dec .base64 u).isSome) = true := by decide +kernel
  refine ⟨ready_loaded _ (by decide +kernel), ready_loaded _ (by decide +kernel), by decide +kernel,
    ⟨rfl, rfl, rfl, rfl⟩, by decide +kernel, fun u hu => ?_, by decide +kernel⟩
  have := List.all_eq_true.mp h u hu
  simpa [Option.isSome_iff_ne_none] using this

theorem witness_FiniteCapacitiesOnlyCutOff : Ready (loadedWith { Params.reference with dictCap := some 5 } [65, 66]) :=
  ready_loadedWith _ rfl (by decide)

end Sys2Proof.Tests
end

section
/-! PROOF. The scope of the block (spec/00_scope.md): what a command computes (R9), that the engine's pace makes no
difference (R299), and that finite capacities only cut a command off (R11, R268). -/

namespace Sys2Proof.Machine

/-- While BUSY is 0 a command is accepted, and the engine runs until the host's next access (R240, R241). -/
theorem exec_of_idle {s : State} (hb : s.busy = false) (i : Instr) :
    exec i s = advance (accept i.dir i.variant s) := by
  rw [exec_eq, runCommand, if_neg (by simp [hb])]

/-- Settles O13: the run from acceptance, `accept_run`, as the host sees it. -/
theorem everyCommandComputesItsFunction : Obligations.EveryCommandComputesItsFunction := by
  unfold Obligations.EveryCommandComputesItsFunction
  intro s i h
  obtain ⟨t, ht, hc⟩ := accept_run h.inv.params h.pace i.dir i.variant
  rw [Instr.of_dir_variant] at hc
  exact ⟨t, (exec_of_idle h.idle i).trans ht, hc.completedWith h.inv.buffers.outWf rfl⟩

/-! ### The pace -/

/-- A run keeps the host's side: it commutes with putting back the side the state already has (R25, R253). -/
theorem engineRun_hostSide_on {k : Nat} {s t : State} (h : engineRun k s = .next t) : s.hostSide.on t = t := by
  have hcomm := engineRun_on s.hostSide k s
  rw [s.hostSide_on, h] at hcomm
  exact (Host.Outcome.next.inj hcomm).symm

/-- The state with its engine let run as far as `p` before the host's next access (R299). -/
def State.atPace (p : Pace) (s : State) : State := { s with pace := p }

/-- The engine does not look at the pace (R299). -/
theorem engineRun_atPace {k : Nat} {s t : State} (p : Pace) (h : engineRun k s = .next t) :
    engineRun k (s.atPace p) = .next (t.atPace p) := by
  have hcomm := engineRun_on { s.hostSide with pace := p } k s
  rw [h] at hcomm
  calc engineRun k (s.atPace p)
    _ = .next ((s.hostSide.on t).atPace p) := hcomm
    _ = .next (t.atPace p) := by rw [engineRun_hostSide_on h]

/-- Nor does acceptance: each of its outcomes keeps the pace it finds (R240). -/
theorem accept_atPace (d : Dir) (v : Variant) (s : State) (p : Pace) :
    accept d v (s.atPace p) = (accept d v s).atPace p := by
  rw [accept_eq, accept_eq, apply_ite (State.atPace p), apply_ite (State.atPace p), apply_ite (State.atPace p)]
  cases d <;> rfl

/-- Two runs from one state that both reach an idle engine reach the same state (R9). -/
theorem engineRun_idle_unique {m n : Nat} {s t u : State} (hm : engineRun m s = .next t) (hn : engineRun n s = .next u)
    (ht : t.phase = .idle) (hu : u.phase = .idle) : t = u := by
  have h := engineRun_more n hm ht
  rw [Nat.add_comm, engineRun_more m hn hu] at h
  exact (Host.Outcome.next.inj h).symm

/-- An engine stopped after `n` steps and then run on comes to where it comes in one go (R299). -/
theorem engineRun_resume {m : Nat} {s t : State} (hs : Inv s) (h : engineRun m s = .next t) (ht : t.phase = .idle)
    (n : Nat) : ∃ u k, engineRun n s = .next u ∧ engineRun k u = .next t := by
  obtain ⟨u, hu, hiu⟩ := engineRun_inv n hs
  obtain ⟨v, hv, hiv⟩ := engineRun_stepsLeft hiu
  have hsum : engineRun (n + stepsLeft u) s = .next v := (engineRun_add _ hu).trans hv
  exact ⟨u, stepsLeft u, hu, engineRun_idle_unique hsum h hiv ht ▸ hv⟩

/-- A host that waits for the result lets the engine run to its bound (R299, R300). -/
theorem advance_of_toEnd {s : State} (hp : s.pace = .toEnd) : advance s = engineRun (engineBound s) s := by
  simp only [advance, hp]

/-- Settles O23: neither acceptance nor the engine looks at the pace, and every stopped run can be resumed to its end. -/
theorem paceDoesNotChangeTheEndState : Obligations.PaceDoesNotChangeTheEndState := by
  unfold Obligations.PaceDoesNotChangeTheEndState
  intro s i n h
  have ha : Inv (accept i.dir i.variant s) := accept_inv h.inv _ _
  have hp : (accept i.dir i.variant s).pace = .toEnd :=
    (HostPartKept.of_hostPart (accept_hostPart _ _ s)).pace.trans h.pace
  obtain ⟨t, ht, -, hidle⟩ := advance_toEnd ha hp
  obtain ⟨u, k, hu, hk⟩ := engineRun_resume ha ((advance_of_toEnd hp).symm.trans ht) hidle n
  have htp : t.pace = .toEnd := (HostPartKept.of_hostPart (advance_hostPart ht)).pace.trans hp
  have hexec : exec i (s.atPace (.steps n)) = .next (u.atPace (.steps n)) :=
    calc exec i (s.atPace (.steps n))
      _ = advance (accept i.dir i.variant (s.atPace (.steps n))) :=
        exec_of_idle (s := s.atPace (.steps n)) h.idle i
      _ = engineRun n ((accept i.dir i.variant s).atPace (.steps n)) := by rw [accept_atPace]; rfl
      _ = .next (u.atPace (.steps n)) := engineRun_atPace _ hu
  exact ⟨t, _, k, t.atPace (.steps n), (exec_of_idle h.idle i).trans ht, hexec, engineRun_atPace _ hk, by
    rw [← htp]; rfl⟩

/-! ### The capacities -/

/-- A block that is ready for a command is ready for it with unbounded capacities too (R11). -/
theorem Ready.unbounded {s : State} (h : Ready s) : Ready { s with cfg := s.cfg.unbounded } where
  inv :=
    { params := rfl
      status := { h.inv.status with }
      buffers := ⟨h.inv.buffers.inWf, h.inv.buffers.outWf, fun _ _ => rfl⟩
      engine := by
        have hidle : s.phase = .idle := busy_eq_false.mp h.idle
        simpa only [EngineCoherent, hidle] using h.inv.engine.untainted hidle }
  idle := h.idle
  pace := h.pace

/-- Settles O59: both runs compute `commandValue`, which a finite capacity cuts off or leaves as it is. -/
theorem finiteCapacitiesOnlyCutOff : Obligations.FiniteCapacitiesOnlyCutOff := by
  unfold Obligations.FiniteCapacitiesOnlyCutOff
  intro s i h
  obtain ⟨t, ht, hct⟩ := everyCommandComputesItsFunction s i h
  obtain ⟨u, hu, hcu⟩ := everyCommandComputesItsFunction _ i h.unbounded
  refine ⟨t, u, _, _, ht, hu, hcu, ?_⟩
  rcases commandValue_unbounded s.cfg i s.inPresent (inputSequence s) with ⟨c, hc⟩ | heq
  · left
    rw [hct.result, hc]
    rfl
  · right
    rw [heq] at hct
    exact hct

end Sys2Proof.Machine
end

section
/-! PROOF. The state of the block (spec/10_state.md): every step keeps the invariant, what a command reads and leaves, the
registers as the host sees them, and the state after reset (R20 to R46). -/

namespace Sys2Proof.Machine

/-! ### One step of the machine, by what stands first in the host's program -/

/-- Without a host event the step is one engine step, or none where no command runs (R282). -/
theorem step_of_host_nil {s : State} (h : s.host = []) : step s = if s.busy then engineStep s else .next s := by
  rw [step, machineStep, h]

/-- A bus access of the host acts on the state past its event, at the event's pace (R73, R299). -/
theorem step_of_access {s : State} {a : Access} {p : Pace} {rest : List HostEvent}
    (h : s.host = { act := .access a, pace := p } :: rest) :
    step s = hostAccess a { s with host := rest, pace := p } := by
  rw [step, machineStep, h]

/-- A hardware reset acts on the state past its event (R291). -/
theorem step_of_hardReset {s : State} {p : Pace} {rest : List HostEvent}
    (h : s.host = { act := .hardReset, pace := p } :: rest) :
    step s = .next (hardReset { s with host := rest, pace := p }) := by
  rw [step, machineStep, h]

/-- An access that is no aligned word or unit is refused (R66, U7). -/
theorem hostAccess_of_place_none {s : State} {a : Access} (h : a.place s.cfg = none) :
    hostAccess a s = .refused .irregularAccess := by
  rw [hostAccess, h]

/-! ### The invariant -/

/-- Hardware reset leaves a state of the invariant, whatever it interrupts (R46, R291). -/
theorem hardReset_inv {s : State} (h : Inv s) : Inv (hardReset s) :=
  Inv.of_idle h.params rfl rfl ⟨.nil, .nil, fun _ he => by cases he⟩ rfl rfl

/-- Settles O11: the engine, a host access and a hardware reset each keep the invariant. -/
theorem stepKeepsInvariant : Obligations.StepKeepsInvariant := by
  unfold Obligations.StepKeepsInvariant
  intro s t h ht
  match hhost : s.host with
  | [] =>
    rw [step_of_host_nil hhost] at ht
    split at ht
    · rename_i hbusy
      obtain ⟨u, hu, hinv⟩ := engineStep_inv h (busy_eq_true.mp hbusy)
      exact Host.Outcome.next.inj (hu.symm.trans ht) ▸ hinv
    · exact Host.Outcome.next.inj ht ▸ h
  | { act := .access a, pace := p } :: rest =>
    rw [step_of_access hhost] at ht
    have hpast : Inv { s with host := rest, pace := p } := hostRegs_inv h _ _ rest p _ _
    cases hplace : a.place s.cfg with
    | none => exact absurd (ht.symm.trans (hostAccess_of_place_none hplace)) (by simp)
    | some k =>
      obtain ⟨u, hu, hinv⟩ := hostAccess_inv hpast hplace
      exact Host.Outcome.next.inj (hu.symm.trans ht) ▸ hinv
  | { act := .hardReset, pace := p } :: rest =>
    rw [step_of_hardReset hhost] at ht
    exact Host.Outcome.next.inj ht ▸ hardReset_inv (hostRegs_inv h _ _ rest p _ _)

/-- Settles O8: the block is idle, and its buffers are empty. -/
theorem resetMeetsInvariant : Obligations.ResetMeetsInvariant :=
  Inv.of_idle rfl rfl rfl ⟨.nil, .nil, fun _ he => by cases he⟩ rfl rfl

/-! ### Commands and the host's part of the state -/

/-- An advance keeps the host's side: putting it back changes nothing (R25, R253). -/
theorem advance_hostSide_on {s t : State} (h : advance s = .next t) : s.hostSide.on t = t := by
  unfold advance at h
  split at h <;> exact engineRun_hostSide_on h

/-- A change of the host's side that keeps the pace commutes with an advance (R25, R26, R295). -/
theorem advance_changeHostSide (f : HostSide → HostSide) {s t : State} (hf : (f s.hostSide).pace = s.pace)
    (ht : advance s = .next t) : advance ((f s.hostSide).on s) = .next ((f t.hostSide).on t) := by
  have hside : t.hostSide = s.hostSide := (congrArg State.hostSide (advance_hostSide_on ht)).symm
  rw [advance_on _ s hf, ht, hside]
  rfl

/-- Settles O20: IN_LEN and IN_CTRL are of the host's side, at which the engine does not look. -/
theorem operandWritesWhileBusyHaveNoEffect : Obligations.OperandWritesWhileBusyHaveNoEffect := by
  unfold Obligations.OperandWritesWhileBusyHaveNoEffect
  intro s t v _ ht
  exact ⟨advance_changeHostSide (fun h => { h with inLen := v }) rfl ht,
    advance_changeHostSide (fun h => { h with inPresent := v.getLsbD 0 }) rfl ht⟩

/-- Settles O24: both blocks complete with `commandValue` of the same parameters, presence and input. -/
theorem commandsDoNotInteract : Obligations.CommandsDoNotInteract := by
  unfold Obligations.CommandsDoNotInteract
  intro r s i hr hs hcfg hpresent hinput
  obtain ⟨t, ht, hct⟩ := everyCommandComputesItsFunction r i hr
  obtain ⟨u, hu, hcu⟩ := everyCommandComputesItsFunction s i hs
  rw [hcfg, hpresent, hinput] at hct
  exact ⟨t, u, _, _, ht, hu, hct, hcu⟩

theorem reject_hostPart (s : State) : (reject s).hostPart = s.hostPart := rfl

/-- A command, accepted or rejected, changes no part of the host's state (R25, R29, R68). -/
theorem exec_hostPart {s t : State} {i : Instr} (h : exec i s = .next t) : t.hostPart = s.hostPart := by
  rw [exec_eq, runCommand] at h
  split at h
  · exact (advance_hostPart h).trans (reject_hostPart s)
  · exact (advance_hostPart h).trans (accept_hostPart _ _ s)

/-- OUT after a command has completed: the written units from index 0 on, and elsewhere what it held (R62, R72). -/
theorem CompletedFrom.outUnit {s t : State} {e : Ending} {out written : List CodeUnit}
    (h : CompletedFrom s t e out written) (hm : s.outMem.wf) (j : Nat) :
    outUnit t j = written[j]?.getD (Machine.outUnit s j) := by
  have hepoch : t.epoch = s.epoch := (HostPartKept.of_hostPart h.hostPart).epoch
  simp only [Machine.outUnit, h.outMem, hepoch, Memory.read_writeSeq _ _ _ _ hm]
  by_cases hj : j < written.length
  · simp [hj]
  · simp [hj]

/-- Settles O25: the host's part by `exec_hostPart`, and OUT by the run from acceptance, `accept_run`. -/
theorem commandFrame : Obligations.CommandFrame := by
  unfold Obligations.CommandFrame
  intro s i
  refine ⟨fun t ht => .of_hostPart (exec_hostPart ht), fun h => ?_⟩
  obtain ⟨t, ht, hc⟩ := accept_run h.inv.params h.pace i.dir i.variant
  rw [Instr.of_dir_variant] at hc
  obtain ⟨hdir, hvar, hpresent, hlen⟩ := hc.latched
  have hout (j : Nat) : outUnit t j =
      (writtenUnits s.cfg i s.inPresent (inputSequence s))[j]?.getD (outUnit s j) := hc.outUnit h.inv.buffers.outWf j
  refine ⟨t, (exec_of_idle h.idle i).trans ht, hdir, hvar, hpresent, hlen, fun j hj => ?_, fun j u hu => ?_⟩
  · rw [hout, List.getElem?_eq_none hj]
    rfl
  · rw [hout, hu]
    rfl

/-! ### The capacity of IN -/

/-- A present input that exceeds IN_CAP decides a command's value, whatever its units (R240, R268). -/
theorem commandValue_of_exceeds {p : Params} {us : List CodeUnit} (i : Instr) (h : exceeds p.inCap us.length = true) :
    commandValue p i true us = (.capacity .capIn, []) := by
  simp [commandValue, h]

/-- A unit written at an index from `n` on is none of the first `n` units of IN (R61). -/
theorem inputUnits_write_of_le {s : State} {n k : Nat} (u : CodeUnit) (hm : s.inMem.wf) (h : n ≤ k) :
    inputUnits { s with inMem := Memory.write s.inMem k u } n = inputUnits s n := by
  refine List.map_congr_left fun j hj => ?_
  have hne : j ≠ k := by have := List.mem_range.mp hj; omega
  simp [inUnit, Memory.read_write _ _ _ _ hm, hne]

/-- A unit written past IN_CAP changes no command's value: it is past the input, or the input exceeds IN_CAP (R25, R268). -/
theorem commandValue_write_past_capacity {s : State} {k : Nat} (i : Instr) (u : CodeUnit) (hm : s.inMem.wf)
    (hk : exceeds s.cfg.inCap (k + 1) = true) :
    commandValue s.cfg i s.inPresent (inputSequence { s with inMem := Memory.write s.inMem k u }) =
      commandValue s.cfg i s.inPresent (inputSequence s) := by
  by_cases hlen : s.inLen.toNat ≤ k
  · exact congrArg _ (inputUnits_write_of_le u hm hlen)
  · have hover : exceeds s.cfg.inCap s.inLen.toNat = true := exceeds_mono (by omega) hk
    cases hpresent : s.inPresent with
    | false => rfl
    | true =>
      rw [commandValue_of_exceeds i (by simpa [inputSequence] using hover),
        commandValue_of_exceeds i (by simpa [inputSequence] using hover)]

/-- A host write of a unit of IN leaves a ready block ready (R60, R61). -/
theorem Ready.write_inMem {s : State} (h : Ready s) (k : Nat) (u : CodeUnit) :
    Ready { s with inMem := Memory.write s.inMem k u } where
  inv := by simpa [h.idle] using inMem_inv h.inv k u
  idle := h.idle
  pace := h.pace

/-- Settles O35: the write changes no command's value, and both blocks complete with their value. -/
theorem unitsPastTheCapacityAreNoInput : Obligations.UnitsPastTheCapacityAreNoInput := by
  unfold Obligations.UnitsPastTheCapacityAreNoInput
  intro s i k u h hk
  obtain ⟨t, ht, hct⟩ := everyCommandComputesItsFunction s i h
  obtain ⟨v, hv, hcv⟩ := everyCommandComputesItsFunction _ i (h.write_inMem k u)
  rw [commandValue_write_past_capacity i u h.inv.buffers.inWf hk] at hcv
  exact ⟨t, v, _, _, ht, hv, hct, hcv⟩

/-- Completion with no output, from a state accepted or cleared of REJECTED, is what the host finds (R242, R261). -/
theorem finish_completedWith_nil (e : Ending) {s : State} (h : s.status.rejected = false) :
    CompletedWith (finish e 0 s) e [] where
  idle := rfl
  done := rfl
  result := rfl
  cause := rfl
  present := rfl
  rejected := h
  length he _ := by rw [finish_outLen, if_pos he]; rfl
  noLength he := by rw [finish_outLen, if_neg he]
  output _ := rfl

/-- Acceptance of a present input longer than IN_CAP completes the command with CAP_IN (R240, R268). -/
theorem accept_of_overlong {s : State} (d : Dir) (v : Variant) (hp : s.inPresent = true)
    (hx : exceeds s.cfg.inCap s.inLen.toNat = true) :
    accept d v s = finish (.capacity .capIn) 0 (acceptedState d v s) := by
  rw [accept_eq, if_neg (by simp [acceptedState, hp]), if_pos (by exact hx)]

/-- Settles O17: the command completes at acceptance, and the engine never starts. -/
theorem overlongInputIsCapacity : Obligations.OverlongInputIsCapacity := by
  unfold Obligations.OverlongInputIsCapacity
  intro s i hb hp hx
  have hexec : exec i s = .next (finish (.capacity .capIn) 0 (acceptedState i.dir i.variant s)) := by
    rw [exec_of_idle hb, accept_of_overlong _ _ hp hx, advance_idle rfl]
  exact ⟨_, hexec, finish_completedWith_nil _ rfl, .of_hostPart (exec_hostPart hexec), rfl⟩

/-! ### The host's accesses -/

/-- A write of an aligned register reaches it (R20, R94). -/
theorem place_wrReg (p : Params) {off : Nat} (v : Word) (h : off % 4 = 0) : (wrReg p off v).place p = some off := by
  simp [wrReg, Access.place, h]

/-- A read of an aligned register reaches it (R20, R94). -/
theorem place_rdReg (p : Params) {off : Nat} (h : off % 4 = 0) : (rdReg p off).place p = some off := by
  simp [rdReg, Access.place, h]

theorem hostAccess_wrReg {off : Nat} (v : Word) (s : State) (h : off % 4 = 0) :
    hostAccess (wrReg s.cfg off v) s = writeReg off v s := by
  rw [hostAccess, place_wrReg _ _ h]
  rfl

theorem hostAccess_rdReg {off : Nat} (s : State) (h : off % 4 = 0) :
    hostAccess (rdReg s.cfg off) s = advance (pushRead (.word (readReg s off)) s) := by
  rw [hostAccess, place_rdReg _ h]
  rfl

/-- A write of a legal word to CMD is the command it decodes to (R21, R73). -/
theorem writeReg_cmd {v : Word} {i : Instr} (s : State) (h : decode v = .ok i) : writeReg 0x00 v s = exec i s := by
  rw [writeReg, if_pos rfl, writeCmd, h]

/-- A step at a CMD write of a legal word runs the command it decodes to (R21, R94). -/
theorem step_of_cmd {s : State} {v : Word} {i : Instr} {p : Pace} {rest : List HostEvent} (hv : decode v = .ok i)
    (h : s.host = { act := .access (wrReg s.cfg 0 v), pace := p } :: rest) :
    step s = exec i { s with host := rest, pace := p } :=
  calc step s
    _ = hostAccess (wrReg s.cfg 0 v) { s with host := rest, pace := p } := step_of_access h
    _ = writeReg 0 v { s with host := rest, pace := p } :=
      hostAccess_wrReg v { s with host := rest, pace := p } rfl
    _ = exec i { s with host := rest, pace := p } := writeReg_cmd _ hv

/-- `withFetchWord` places the command word it is given (log 9). -/
theorem withFetchWord_toNat (s : State) (v : Word) : s.withFetchWord 32 v.toNat = placeCommand s v := by
  rw [State.withFetchWord, Nat.mod_eq_of_lt v.isLt, BitVec.ofNat_toNat, BitVec.setWidth_eq]

/-- Settles O1: the CMD write reaches `exec`, and `withFetchWord` places such a write. -/
theorem stepRunsDecodedCommand : Obligations.StepRunsDecodedCommand := by
  unfold Obligations.StepRunsDecodedCommand
  intro s v i hv
  refine ⟨fun p rest h => step_of_cmd hv h, ?_⟩
  rw [withFetchWord_toNat]
  exact step_of_cmd (s := placeCommand s v) hv (placeCommand_host s v)

/-- Settles O28: each read records its value, and the engine goes on. -/
theorem readsReturnTheStateAndChangeNothing : Obligations.ReadsReturnTheStateAndChangeNothing := by
  unfold Obligations.ReadsReturnTheStateAndChangeNothing
  intro s a p rest k hhost hread hplace
  rw [step_of_access hhost, hostAccess, hplace, hread]
  cases a.space with
  | regs => rfl
  | inBuf => rfl
  | outBuf =>
    simp only [readOut]
    split
    · exact ⟨outUnit s k, fun _ _ => rfl, s.free, rfl⟩
    · rename_i hundefined
      exact ⟨Config.freeUnit s.free, fun hb hk => absurd ⟨hb, hk⟩ hundefined, s.free + 1, rfl⟩

/-! ### The registers -/

/-- Every offset above that of OUT_LEN is reserved and reads 0 (R20). -/
theorem readReg_reserved (s : State) {off : Nat} (h : 0x10 < off) : readReg s off = 0 := by
  rw [readReg, if_neg (by omega), if_neg (by omega), if_neg (by omega), if_neg (by omega)]

/-- A write to an offset other than those of CMD, IN_LEN and IN_CTRL is ignored (R20). -/
theorem writeReg_ignored {off : Nat} (v : Word) (s : State) (hcmd : off ≠ 0x00) (hlen : off ≠ 0x08) (hctrl : off ≠ 0x0C) :
    writeReg off v s = advance s := by
  rw [writeReg, if_neg hcmd, if_neg hlen, if_neg hctrl]

/-- Settles O29, register by register. -/
theorem registerWindow : Obligations.RegisterWindow := by
  unfold Obligations.RegisterWindow
  refine ⟨fun s off v h => ⟨hostAccess_wrReg v s h, hostAccess_rdReg s h⟩, fun s i v h => writeReg_cmd s h, fun s => ?_,
    fun s v => ?_, fun s hb => advance_idle (busy_eq_false.mp hb), rfl⟩
  · exact ⟨rfl, rfl, rfl, rfl, rfl, fun off h => readReg_reserved s h⟩
  · exact ⟨writeReg_ignored v s (by decide) (by decide) (by decide),
      writeReg_ignored v s (by decide) (by decide) (by decide),
      fun off h => writeReg_ignored v s (by omega) (by omega) (by omega), rfl, rfl⟩

/-! ### The STATUS word -/

theorem getLsbD_flagWord (b : Bool) (k : Nat) : (flagWord b).getLsbD k = (decide (k = 0) && b) := by
  cases b <;> simp [flagWord, BitVec.getLsbD_one]

/-- A word below 8 stands in its three low bits. -/
theorem getLsbD_eq_false_of_lt {x : Word} (hx : x.toNat < 2 ^ 3) {k : Nat} (hk : 3 ≤ k) : x.getLsbD k = false :=
  Nat.testBit_lt_two_pow (hx.trans_le (Nat.pow_le_pow_right (by decide) hk))

/-- RESULT and CAUSE fit their fields of three bits (R23, R24). -/
theorem resultCode_lt (r : Result) : (resultCode r).toNat < 2 ^ 3 := by cases r <;> decide

theorem causeCode_lt (c : Cause) : (causeCode c).toNat < 2 ^ 3 := by cases c <;> decide

/-- The STATUS word bit by bit (R22). -/
theorem getLsbD_statusWord (s : State) {k : Nat} (hk : k < 32) : (statusWord s).getLsbD k =
    if k = 0 then s.busy
    else if k = 1 then s.status.done
    else if k < 5 then (resultCode s.status.result).getLsbD (k - 2)
    else if k < 8 then (causeCode s.status.cause).getLsbD (k - 5)
    else if k = 8 then s.status.outPresent
    else if k = 9 then s.status.rejected
    else false := by
  have hr (j : Nat) (hj : 3 ≤ j) := getLsbD_eq_false_of_lt (resultCode_lt s.status.result) hj
  have hc (j : Nat) (hj : 3 ≤ j) := getLsbD_eq_false_of_lt (causeCode_lt s.status.cause) hj
  -- at each position one field at most can have a bit
  simp only [statusWord, BitVec.getLsbD_or, BitVec.getLsbD_shiftLeft, getLsbD_flagWord, hk]
  grind

/-- The field of three bits from `i` on is `x` where each of its bits is. -/
theorem toNat_extractLsb'_eq {w x : Word} {i : Nat} (hx : x.toNat < 2 ^ 3)
    (h : ∀ j, j < 3 → w.getLsbD (i + j) = x.getLsbD j) : (w.extractLsb' i 3).toNat = x.toNat := by
  have hfield : w.extractLsb' i 3 = x.setWidth 3 := by
    ext j hj
    simp [h j hj]
  rw [hfield, BitVec.toNat_setWidth, Nat.mod_eq_of_lt hx]

/-- RESULT stands in bits 4 to 2 (R22, R23). -/
theorem statusWord_result (s : State) :
    ((statusWord s).extractLsb' 2 3).toNat = (resultCode s.status.result).toNat := by
  refine toNat_extractLsb'_eq (resultCode_lt _) fun j hj => ?_
  rw [getLsbD_statusWord s (by omega), if_neg (by omega), if_neg (by omega), if_pos (by omega), Nat.add_sub_cancel_left]

/-- CAUSE stands in bits 7 to 5 (R22, R24). -/
theorem statusWord_cause (s : State) :
    ((statusWord s).extractLsb' 5 3).toNat = (causeCode s.status.cause).toNat := by
  refine toNat_extractLsb'_eq (causeCode_lt _) fun j hj => ?_
  rw [getLsbD_statusWord s (by omega), if_neg (by omega), if_neg (by omega), if_neg (by omega), if_pos (by omega),
    Nat.add_sub_cancel_left]

/-- Bits 31 to 10 are 0 (R22). -/
theorem statusWord_reserved (s : State) {k : Nat} (hk : 10 ≤ k) : (statusWord s).getLsbD k = false := by
  by_cases hw : k < 32
  · rw [getLsbD_statusWord s hw]
    grind
  · exact BitVec.getLsbD_of_ge _ _ (by omega)

/-- While a command runs, DONE is 0 (R22). -/
theorem StatusCoherent.not_busy_and_done {s : State} (h : StatusCoherent s) :
    ¬ (s.busy = true ∧ s.status.done = true) := by
  rintro ⟨hbusy, hdone⟩
  obtain ⟨hnot, -⟩ := h.busy hbusy
  rw [hnot] at hdone
  cases hdone

/-- While a command runs, RESULT is NONE (R22). -/
theorem StatusCoherent.result_of_busy {s : State} (h : StatusCoherent s) (hb : s.busy = true) :
    s.status.result = .none :=
  let ⟨_, hresult, _⟩ := h.busy hb
  hresult

/-- Settles O30: the fields by the bits of the word, their agreement by the invariant. -/
theorem statusWordLayout : Obligations.StatusWordLayout := by
  unfold Obligations.StatusWordLayout
  intro s
  refine ⟨getLsbD_statusWord s (by decide), getLsbD_statusWord s (by decide), ?_, ?_, getLsbD_statusWord s (by decide),
    getLsbD_statusWord s (by decide), fun k => statusWord_reserved s, fun h => ?_⟩
  · rw [statusWord_result]
    cases s.status.result <;> rfl
  · rw [statusWord_cause]
    cases s.status.cause <;> rfl
  · exact ⟨h.status.not_busy_and_done, h.status.result_of_busy, h.status.malformed.symm, h.status.capacity.symm⟩

/-! ### The state after reset -/

/-- STATUS reads 0 after reset (R46). -/
theorem statusWord_reset : statusWord State.reset = 0 := by decide

/-- Every register offset reads 0 after reset (R46). -/
theorem readReg_reset (off : Nat) : readReg State.reset off = 0 := by
  unfold readReg
  rw [statusWord_reset]
  split_ifs <;> rfl

/-- Settles O7: the registers by `readReg_reset`, and the buffers are empty. -/
theorem resetRegisterValues : Obligations.ResetRegisterValues :=
  ⟨rfl, rfl, rfl, rfl, rfl, rfl, rfl, rfl, rfl, rfl, readReg_reset, fun _ => ⟨rfl, rfl⟩⟩

/-- The block after reset is ready for a command (R292). -/
theorem reset_ready : Ready State.reset where
  inv := resetMeetsInvariant
  idle := rfl
  pace := rfl

/-- Settles O9: PRESENT is 0 after reset, so that the value of each command is ABSENT. -/
theorem commandRightAfterReset : Obligations.CommandRightAfterReset := by
  unfold Obligations.CommandRightAfterReset
  intro i
  exact everyCommandComputesItsFunction State.reset i reset_ready

end Sys2Proof.Machine
end

section
/-! PROOF. The address spaces (spec/20_memory.md): which accesses are refused (R66), and what a host write of a unit of IN
or OUT does (R60, R61, R72). -/

namespace Sys2Proof.Machine

/-- Settles O32: in each space the access fails the check of `Access.place`. -/
theorem irregularAccessesAreRefused : Obligations.IrregularAccessesAreRefused := by
  unfold Obligations.IrregularAccessesAreRefused
  intro s a p rest hhost hirregular
  have hplace : a.place s.cfg = none := by
    rw [Access.place]
    cases hspace : a.space <;> simp only [hspace] at hirregular <;> exact if_neg (by omega)
  exact (step_of_access hhost).trans (hostAccess_of_place_none hplace)

/-- Settles O34: the write reaches `writeOut`, which only lets the engine go on. -/
theorem hostWriteOfOutChangesNothing : Obligations.HostWriteOfOutChangesNothing := by
  unfold Obligations.HostWriteOfOutChangesNothing
  intro s a p rest k hhost hspace hwrite hplace
  rw [step_of_access hhost, hostAccess, hplace, hspace, hwrite]
  rfl

/-! ### Host writes of IN -/

/-- A write of a unit of IN reaches it (R60, R94). -/
theorem place_wrIn (p : Params) (k : Nat) (u : CodeUnit) : (wrIn p k u).place p = some k := by
  simp [wrIn, Access.place]

/-- The unit a write of IN carries in its data word is the unit written (R63, R67). -/
theorem setWidth_wrIn_data (p : Params) (k : Nat) (u : CodeUnit) : (wrIn p k u).data.setWidth 16 = u :=
  (BitVec.setWidth_setWidth_of_le u (by decide)).trans u.setWidth_eq

theorem hostAccess_wrIn (k : Nat) (u : CodeUnit) (s : State) : hostAccess (wrIn s.cfg k u) s = writeIn k u s := by
  rw [hostAccess, place_wrIn]
  exact congrArg (writeIn k · s) (setWidth_wrIn_data s.cfg k u)

/-- While no command runs, a host write of IN changes IN alone, and the engine stays at rest (R61). -/
theorem writeIn_of_idle {s : State} (hb : s.busy = false) (k : Nat) (u : CodeUnit) :
    writeIn k u s = .next { s with inMem := Memory.write s.inMem k u } := by
  rw [writeIn, hb, Bool.or_false]
  exact advance_idle (busy_eq_false.mp hb)

/-- A step at a write of a unit of IN on an idle block takes the event and writes the unit (R61, R94). -/
theorem step_of_wrIn {s : State} {k : Nat} {u : CodeUnit} {p : Pace} {rest : List HostEvent} (hb : s.busy = false)
    (h : s.host = { act := .access (wrIn s.cfg k u), pace := p } :: rest) :
    step s = .next { s with host := rest, pace := p, inMem := Memory.write s.inMem k u } :=
  calc step s
    _ = hostAccess (wrIn s.cfg k u) { s with host := rest, pace := p } := step_of_access h
    _ = writeIn k u { s with host := rest, pace := p } := hostAccess_wrIn k u { s with host := rest, pace := p }
    _ = .next { s with host := rest, pace := p, inMem := Memory.write s.inMem k u } :=
      writeIn_of_idle (s := { s with host := rest, pace := p }) hb k u

/-- A unit of IN after a write is the unit written, or the unit it was (R61, R67). -/
theorem inUnit_write {s : State} (hm : s.inMem.wf) (k : Nat) (u : CodeUnit) (j : Nat) :
    inUnit { s with inMem := Memory.write s.inMem k u } j = if j = k then u else inUnit s j := by
  simp only [inUnit, Memory.read_write _ _ _ _ hm]
  split <;> rfl

/-- Settles O36: the step writes the unit, and `inUnit_write` says what IN then holds. -/
theorem inHoldsWhatTheHostWrote : Obligations.InHoldsWhatTheHostWrote := by
  unfold Obligations.InHoldsWhatTheHostWrote
  intro s k u p rest hm hb hhost
  have hunit := inUnit_write (s := { s with host := rest, pace := p }) hm k u
  exact ⟨_, step_of_wrIn hb hhost, (hunit k).trans (if_pos rfl), fun j hj => (hunit j).trans (if_neg hj), rfl⟩

end Sys2Proof.Machine
end

section
/-! PROOF. The encodings of the block (spec/30_encoding.md): the command word (R80 to R82), the items of a code stream
(R83 to R85, R123), the length of an output (R90), and the output symbols of URI beside those of BASE64 (R91, R250). -/

namespace Sys2Proof.Machine

/-! ### The command word -/

/-- A word with a reserved bit set does not decode (R82). -/
theorem decode_of_reserved {v : Word} (h : v &&& 0xFFFFFFF8#32 ≠ 0#32) : decode v = .error .reservedBits := by
  rw [decode, if_neg (by simpa [cmdWordLegal] using h)]

/-- Every other word is dispatched on its fields (R80, R81). -/
theorem decode_of_legal {v : Word} (h : v &&& 0xFFFFFFF8#32 = 0#32) :
    decode v = .ok (Instr.of (decodeDir v) (decodeVariant v)) := by
  rw [decode, if_pos (by simpa [cmdWordLegal] using h)]

/-- Each command decodes from its word (R80, R81). -/
theorem decode_encode (i : Instr) : decode (encode i) = .ok i := by cases i <;> rfl

/-- The mask of the RSV field covers bits 31 to 3 (R80). -/
theorem getLsbD_reservedMask : ∀ k < 32, 3 ≤ k → (0xFFFFFFF8#32).getLsbD k = true := by decide

/-- A word with no reserved bit set is its OP field, bits 2 to 0 (R80). -/
theorem eq_setWidth_of_legal {v : Word} (h : v &&& 0xFFFFFFF8#32 = 0#32) : v = (v.setWidth 3).setWidth 32 := by
  refine BitVec.eq_of_getLsbD_eq fun k hk => ?_
  by_cases hop : k < 3
  · simp [hop, hk]
  · have hbit : (v &&& 0xFFFFFFF8#32).getLsbD k = false := by rw [h, BitVec.getLsbD_zero]
    rw [BitVec.getLsbD_and, getLsbD_reservedMask k hk (by omega), Bool.and_true] at hbit
    simp [hop, hbit]

/-- The fields of a word of three bits give it back (R80, R81). -/
theorem encode_of_fields : ∀ op : BitVec 3,
    encode (Instr.of (decodeDir (op.setWidth 32)) (decodeVariant (op.setWidth 32))) = op.setWidth 32 := by
  decide

/-- A word that decodes is the word of the command it decodes to (R80, R82). -/
theorem encode_of_decode {v : Word} {i : Instr} (h : decode v = .ok i) : encode i = v := by
  by_cases hlegal : v &&& 0xFFFFFFF8#32 = 0#32
  · rw [decode_of_legal hlegal, Except.ok.injEq] at h
    rw [← h, eq_setWidth_of_legal hlegal]
    exact encode_of_fields _
  · rw [decode_of_reserved hlegal] at h
    cases h

/-- Settles O2: `decode` checks the reserved bits, and `encode` is its inverse on the words that pass. -/
theorem commandWordDecodesExactly : Obligations.CommandWordDecodesExactly := by
  unfold Obligations.CommandWordDecodesExactly
  refine fun v => ⟨decode_of_reserved, fun h => ⟨_, decode_of_legal h⟩, fun i => ⟨fun h => ?_, fun h => ?_⟩⟩
  · exact (encode_of_decode h).symm
  · exact h ▸ decode_encode i

/-- Settles O3: the rows are the words of the commands, and the last two words have a reserved bit set. -/
theorem commandWordValues : Obligations.CommandWordValues :=
  ⟨decode_encode .compressRaw, decode_encode .decompressRaw, decode_encode .compressUtf, decode_encode .decompressUtf,
    decode_encode .compressBase64, decode_encode .decompressBase64, decode_encode .compressUri,
    decode_encode .decompressUri, decode_of_reserved (by decide), decode_of_reserved (by decide)⟩

/-! ### The items of a code stream -/

/-- The literal after code 0 is the zero extension of its eight bits (R85, R216). -/
theorem takeLiteral_lit8 (o : BitOrder) (u : BitVec 8) (rest : List Bool) :
    takeLiteral o 0 (valueBits o u.toNat 8 ++ rest) = some (u.setWidth 16, rest) := by
  rw [takeLiteral, if_pos rfl, takeBits_valueBits o u.isLt, Option.map_some, BitVec.ofNat_toNat]

/-- The literal after code 1 is its sixteen bits, whatever the unit (R85, R216). -/
theorem takeLiteral_lit16 (o : BitOrder) (u : CodeUnit) (rest : List Bool) :
    takeLiteral o 1 (valueBits o u.toNat 16 ++ rest) = some (u, rest) := by
  rw [takeLiteral, if_neg (by decide), takeBits_valueBits o u.isLt, Option.map_some, BitVec.ofNat_toNat,
    BitVec.setWidth_eq]

/-- Settles O4: the code field by `takeBits_valueBits`, which asks that the code fits, and the literal after it. -/
theorem streamItemsReadBack : Obligations.StreamItemsReadBack := by
  unfold Obligations.StreamItemsReadBack
  intro o it rest hwf
  cases it with
  | lit8 n u =>
    refine ⟨_, ?_, takeLiteral_lit8 o u rest⟩
    rw [StreamItem.bits, List.append_assoc]
    exact takeBits_valueBits o (Nat.two_pow_pos n) _
  | lit16 n u =>
    refine ⟨_, ?_, takeLiteral_lit16 o u rest⟩
    rw [StreamItem.bits, List.append_assoc]
    exact takeBits_valueBits o (of_decide_eq_true hwf) _
  | ref k n =>
    obtain ⟨-, hk⟩ : 3 ≤ k ∧ k < 2 ^ n := by simpa [StreamItem.wf] using hwf
    exact takeBits_valueBits o hk rest
  | stop n => exact takeBits_valueBits o (of_decide_eq_true hwf) rest

/-- The item of a literal is a `LIT16` only for a unit from 256 on (R85, R186). -/
theorem le_of_literalItem_eq_lit16 {n m : Nat} {u x : CodeUnit} (h : literalItem n u = .lit16 m x) :
    256 ≤ x.toNat := by
  rw [literalItem] at h
  split at h
  · cases h
  · cases h
    omega

/-- An emission is a literal item or a reference, so it is a `LIT16` only for such a unit too (R186, R188). -/
theorem le_of_emission_eq_lit16 {dict : List (List CodeUnit)} {sent : List CodeUnit} {d m : Nat} {w : List CodeUnit}
    {x : CodeUnit} (h : (emission dict sent d w).1 = .lit16 m x) : 256 ≤ x.toNat := by
  rcases pending_cases sent w with ⟨u, rfl, hu⟩ | hw
  · rw [emission_literal hu] at h
    exact le_of_literalItem_eq_lit16 h
  · rw [emission_reference hw] at h
    cases h

/-- The encoder writes no `LIT16` of a unit below 256, whatever it has read so far (R85). -/
theorem le_of_lit16_mem_encodeFrom {m : Nat} {x : CodeUnit} (cs : List CodeUnit) (dict : List (List CodeUnit))
    (sent : List CodeUnit) (d : Nat) (w : List CodeUnit) (h : .lit16 m x ∈ (encodeFrom dict sent d w cs).1) :
    256 ≤ x.toNat := by
  induction cs generalizing dict sent d w with
  | nil =>
    simp only [encodeFrom, List.mem_cons, List.not_mem_nil, reduceCtorEq, or_false] at h
    exact le_of_emission_eq_lit16 h.symm
  | cons c cs ih =>
    rw [encodeFrom_cons] at h
    split at h
    · exact ih _ _ _ _ h
    · rcases List.mem_cons.mp h with h | h
      · exact le_of_emission_eq_lit16 h.symm
      · exact ih _ _ _ _ h

/-- Settles O5: the encoder's items by induction over its input, the decoder's literals by the two rules above. -/
theorem literalsTakeTheShorterForm : Obligations.LiteralsTakeTheShorterForm := by
  unfold Obligations.LiteralsTakeTheShorterForm
  refine ⟨fun us it hit => ?_, takeLiteral_lit8, takeLiteral_lit16⟩
  cases it with
  | lit16 n u => exact le_of_lit16_mem_encodeFrom us [] [] 2 [] hit
  | lit8 | ref | stop => trivial

/-! ### The output of a compress command with the reference capacities -/

/-- The reference semantics fix the three capacities and the bit order (R10, R11). -/
theorem isReference_iff (p : Params) : p.isReference = true ↔
    p.inCap = none ∧ p.outCap = none ∧ p.dictCap = none ∧ p.bitOrder = .msbFirst := by
  simp [Params.isReference, and_assoc]

/-- With the reference capacities a compress command on a present, non-empty input has its output as value (R195). -/
theorem commandValue_compress_of_reference {p : Params} (hp : p.isReference = true) (v : Variant)
    {us : List CodeUnit} (hne : us ≠ []) :
    commandValue p (Instr.of .compress v) true us = (.ok, compressed .msbFirst v us) := by
  obtain ⟨hin, hout, hdict, horder⟩ := (isReference_iff p).mp hp
  simp [commandValue, compressValue, Instr.dir_of, Instr.variant_of, exceeds, hin, hout, hdict, horder, hne]

/-- On an empty input it is the empty output (R240). -/
theorem commandValue_nil_of_reference {p : Params} (hp : p.isReference = true) (i : Instr) :
    commandValue p i true [] = (.ok, []) := by
  obtain ⟨hin, -⟩ := (isReference_iff p).mp hp
  simp [commandValue, exceeds, hin]

/-- An output has the symbols that carry its bits, and what post-processing appends (R90, R194). -/
theorem compressed_length (o : BitOrder) (v : Variant) (us : List CodeUnit) :
    (compressed o v us).length = (streamBits o (codeStream us)).length / bpc v + 1 +
      (postUnits v ((streamBits o (codeStream us)).length / bpc v + 1)).length := by
  rw [compressed, post, List.length_append, symbolsOf_length]

/-- IN_LEN other than 0 is a non-empty input (R61). -/
theorem inputSequence_ne_nil {s : State} (h : s.inLen ≠ 0) : inputSequence s ≠ [] := by
  refine List.ne_nil_of_length_pos ?_
  rw [inputSequence, inputUnits_length]
  exact Nat.pos_of_ne_zero fun hz => h (BitVec.eq_of_toNat_eq hz)

/-- Settles O42: the command's output is `compressed`, and each variant appends its own number of units. -/
theorem outputLengthFromStreamBits : Obligations.OutputLengthFromStreamBits := by
  unfold Obligations.OutputLengthFromStreamBits
  intro s v h href hpresent hlen
  obtain ⟨t, ht, hc⟩ := everyCommandComputesItsFunction s (Instr.of .compress v) h
  rw [hpresent, commandValue_compress_of_reference href v (inputSequence_ne_nil hlen)] at hc
  refine ⟨t, _, ht, hc, ?_⟩
  rw [compressed_length]
  cases v <;> simp [postUnits]

/-! ### URI and BASE64 -/

/-- The URI unit in the place of a BASE64 unit (R158, R163, R250). -/
def uriUnit (x : CodeUnit) : CodeUnit := if x = 0x002F then 0x002D else if x = 0x003D then 0x0024 else x

/-- The two encode tables differ in the last symbol only, and no symbol of BASE64 is its pad (R151, R156, R158). -/
theorem uriUnit_enc : ∀ x < 64, uriUnit (enc .base64 x) = enc .uri x := by decide

/-- The same bits take the same values in both alphabets, which are both of six bits (R91, R150). -/
theorem symbolsOf_uri (bs : List Bool) : symbolsOf .uri bs = (symbolsOf .base64 bs).map uriUnit := by
  rw [symbolsOf, symbolsOf, List.map_map]
  refine List.map_congr_left fun j _ => (uriUnit_enc _ ?_).symm
  exact (msbValue_lt _).trans_le (Nat.pow_le_pow_right (by decide) (List.length_take_le _ _))

/-- The padding has the same length, with the URI pad for the BASE64 pad (R162, R163). -/
theorem postUnits_uri (n : Nat) : postUnits .uri n = (postUnits .base64 n).map uriUnit := by
  rw [postUnits, postUnits, List.map_replicate]
  rfl

/-- The URI output unit by unit: the symbols, then the padding (R91, R250). -/
theorem compressed_uri (o : BitOrder) (us : List CodeUnit) :
    compressed o .uri us = (compressed o .base64 us).map uriUnit := by
  rw [compressed, post, symbolsOf_uri, List.length_map, postUnits_uri, ← List.map_append]
  rfl

/-- The values of the two compress commands, the empty output included (R250). -/
theorem commandValue_uri_of_reference {p : Params} (hp : p.isReference = true) (us : List CodeUnit) :
    ∃ out, commandValue p .compressBase64 true us = (.ok, out) ∧
      commandValue p .compressUri true us = (.ok, out.map uriUnit) := by
  by_cases hnil : us = []
  · subst hnil
    exact ⟨[], commandValue_nil_of_reference hp _, commandValue_nil_of_reference hp _⟩
  · exact ⟨_, commandValue_compress_of_reference hp .base64 hnil,
      (commandValue_compress_of_reference hp .uri hnil).trans (by rw [compressed_uri])⟩

/-- Settles O43: both commands complete with their value, and `commandValue_uri_of_reference` compares the two. -/
theorem uriOutputIsBase64WithOtherSymbols : Obligations.UriOutputIsBase64WithOtherSymbols := by
  unfold Obligations.UriOutputIsBase64WithOtherSymbols
  intro s h href hpresent
  obtain ⟨t, ht, hct⟩ := everyCommandComputesItsFunction s .compressBase64 h
  obtain ⟨u, hu, hcu⟩ := everyCommandComputesItsFunction s .compressUri h
  obtain ⟨out, hbase64, huri⟩ := commandValue_uri_of_reference href (inputSequence s)
  rw [hpresent, hbase64] at hct
  rw [hpresent, huri] at hcu
  exact ⟨t, u, out, ht, hu, hct, hcu⟩

end Sys2Proof.Machine
end

section
/-! PROOF. The bit packer and the bit unpacker (spec/40_bitpacker.md): the order of a value's bits (R122), what the packer
emits (R123, R127), what the unpacker reads (R128, R133, R135), and the units after the end of a stream (R134). -/

namespace Sys2Proof.Machine

/-! ### The bits of a value (R122) -/

/-- The bits of a value, counted from the first: bit n-1 goes first (R122). -/
theorem getElem?_msbBits {v n k : Nat} (h : k < n) : (msbBits v n)[k]? = some (v.testBit (n - 1 - k)) := by
  induction n generalizing k with
  | zero => omega
  | succ n ih =>
    cases k with
    | zero => rfl
    | succ k =>
      rw [msbBits, List.getElem?_cons_succ, ih (by omega)]
      congr 2
      omega

/-- Under `LSB_FIRST` bit 0 goes first (R122). -/
theorem getElem?_reverse_msbBits {v n k : Nat} (h : k < n) : (msbBits v n).reverse[k]? = some (v.testBit k) := by
  rw [List.getElem?_reverse (by simpa using h), msbBits_length, getElem?_msbBits (by omega)]
  congr 2
  omega

/-- `readBits` answers the value of the bits it reads (R131). -/
theorem readBits_of_readBitList {v : Variant} (o : BitOrder) {N k : Nat} {inp : Nat → CodeUnit} {u u' : Unpacker}
    {bs : List Bool} (h : u.readBitList v N inp k = .ok (bs, u')) : u.readBits v o N inp k = .ok (bitsValue o bs, u') := by
  rw [Unpacker.readBits, h]
  rfl

/-- Settles O6: the two orders bit by bit, and `bitsValue` is the inverse of `valueBits`. -/
theorem valueBitsGoMsbFirst : Obligations.ValueBitsGoMsbFirst := by
  unfold Obligations.ValueBitsGoMsbFirst
  intro v n
  exact ⟨fun k hk => ⟨getElem?_msbBits hk, getElem?_reverse_msbBits hk⟩,
    fun o => ⟨valueBits_length o v n, bitsValue_valueBits o⟩, fun _ _ p h => Packer.emitBits_of_lt p h,
    fun _ o _ _ _ _ _ h => readBits_of_readBitList o h⟩

/-! ### The packer (R123, R127) -/

/-- A value that does not fit its width is a fault (R123, U4). -/
theorem Packer.emitBits_of_le {v : Variant} {o : BitOrder} {x n : Nat} (p : Packer) (h : 2 ^ n ≤ x) :
    p.emitBits v o x n = .error (.defect .emitOverflow) := by
  rw [Packer.emitBits, if_neg (by omega)]

/-- Settles O46: `emitBits` asks whether the value fits before it sends a bit. -/
theorem emitBitsFaultsOnOverflow : Obligations.EmitBitsFaultsOnOverflow := by
  unfold Obligations.EmitBitsFaultsOnOverflow
  exact fun v o x n p => ⟨p.emitBits_of_le, fun h => ⟨_, p.emitBits_of_lt h⟩⟩

/-- Values with their widths, given to the packer one after another. -/
def Packer.emitFields (v : Variant) (o : BitOrder) (fields : List (Nat × Nat)) (p : Packer) : Except Stop Packer :=
  fields.foldlM (fun p f => Packer.emitBits v o f.1 f.2 p) p

/-- The bits of values with their widths, in the order they are sent. -/
def fieldBits (o : BitOrder) (fields : List (Nat × Nat)) : List Bool := fields.flatMap fun f => valueBits o f.1 f.2

theorem fieldBits_length (o : BitOrder) (fields : List (Nat × Nat)) :
    (fieldBits o fields).length = (fields.map Prod.snd).sum := by
  simp [fieldBits, List.length_flatMap]

/-- Values that fit their widths raise no fault (R123). -/
theorem Packer.emitFields_of_fit (v : Variant) (o : BitOrder) {fields : List (Nat × Nat)}
    (h : ∀ f ∈ fields, f.1 < 2 ^ f.2) (p : Packer) : ∃ q, p.emitFields v o fields = .ok q := by
  induction fields generalizing p with
  | nil => exact ⟨p, rfl⟩
  | cons f fields ih =>
    obtain ⟨hf, hrest⟩ := List.forall_mem_cons.mp h
    obtain ⟨q, hq⟩ := ih hrest ((valueBits o f.1 f.2).foldl (Packer.emitBit v) p)
    refine ⟨q, ?_⟩
    rw [Packer.emitFields, List.foldlM_cons, p.emitBits_of_lt hf]
    exact hq

/-- The packer has then been given their bits (R121, R123). -/
theorem Packed.emitFields {v : Variant} {o : BitOrder} {fields : List (Nat × Nat)} {bs : List Bool} {p q : Packer}
    (h : Packed v bs p) (hq : p.emitFields v o fields = .ok q) : Packed v (bs ++ fieldBits o fields) q := by
  induction fields generalizing bs p with
  | nil =>
    cases hq
    simpa [fieldBits] using h
  | cons f fields ih =>
    obtain ⟨r, hr, hq⟩ := bind_eq_ok.mp hq
    obtain ⟨-, hpacked⟩ := h.emitBits hr
    simpa [fieldBits] using ih hpacked hq

/-- Settles O44: a packer that has been given B bits flushes to the symbols that carry them. -/
theorem packerEmitsOneSymbolMore : Obligations.PackerEmitsOneSymbolMore := by
  unfold Obligations.PackerEmitsOneSymbolMore
  intro v o fields hfit
  obtain ⟨p, hp⟩ := Packer.emitFields_of_fit v o hfit Packer.start
  have hpacked := (packed_start v).emitFields hp
  obtain ⟨hsym, hnsym⟩ := hpacked.flush
  obtain ⟨hpos, -⟩ := hpacked.flush_empty
  rw [List.nil_append] at hsym hnsym
  refine ⟨p, hp, ?_, ?_, hpos⟩
  · rw [hnsym, fieldBits_length]
  · rw [hsym, hnsym, symbolsOf_length]

/-! ### The unpacker (R128, R129, R135) -/

section
variable {v : Variant} {n : Nat} {inp : Nat → CodeUnit} {u u' : Unpacker}

/-- The end of the input comes before anything else (R128, R133). -/
theorem refill_of_end (h : n ≤ u.idx) : u.refill v n inp = malformed .exhausted := by
  rw [Unpacker.refill, if_pos h]

/-- A pad symbol is as the end of the input (R128, R273). -/
theorem refill_of_isPad (h : isPad v (inp u.idx) = true) : u.refill v n inp = malformed .exhausted := by
  rw [Unpacker.refill, if_pos h, ite_self]

theorem refill_of_invalid (hn : u.idx < n) (hp : isPad v (inp u.idx) = false) (hd : dec v (inp u.idx) = none) :
    u.refill v n inp = malformed .badSymbol := by
  rw [Unpacker.refill, if_neg (by omega), if_neg (by simp [hp]), hd]

theorem refill_of_symbol {x : Nat} (hn : u.idx < n) (hd : dec v (inp u.idx) = some x) :
    u.refill v n inp = .ok { reg := x, rem := bpc v, idx := u.idx + 1 } := by
  have hp : isPad v (inp u.idx) ≠ true := fun hp => by
    rw [dec_of_isPad v _ hp] at hd
    cases hd
  rw [Unpacker.refill, if_neg (by omega), if_neg hp, hd]

/-- Where a bit is left, no symbol is fetched (R129, D12). -/
theorem readBit_of_pos (h : 0 < u.rem) :
    u.readBit v n inp = .ok (u.reg.testBit (u.rem - 1), { u with rem := u.rem - 1 }) := by
  rw [Unpacker.readBit, if_neg (by omega)]
  rfl

/-- Where none is left, the bit is the first of the symbol fetched (R129). -/
theorem readBit_of_refill (h : u.rem = 0) (hr : u.refill v n inp = .ok u') :
    u.readBit v n inp = .ok (u'.reg.testBit (u'.rem - 1), { u' with rem := u'.rem - 1 }) := by
  rw [Unpacker.readBit, if_pos h, hr]
  rfl

end

/-- Settles O47: one lemma per check of `refill`, and one per case of `readBit`. -/
theorem refillChecksInOrder : Obligations.RefillChecksInOrder := by
  unfold Obligations.RefillChecksInOrder
  intro v n inp u
  refine ⟨refill_of_end, fun _ => refill_of_isPad, refill_of_invalid, readBit_of_pos, fun x hn _ hd => ?_⟩
  exact ⟨refill_of_symbol hn hd, fun h => readBit_of_refill h (refill_of_symbol hn hd)⟩

/-- Symbols that all carry bits supply BPC bits each (R65, R128). -/
theorem suppliedBits_length_of_carry {v : Variant} {us : List CodeUnit} (h : ∀ u ∈ us, carriesBits v u = true) :
    (suppliedBits v us).length = us.length * bpc v := by
  induction us with
  | nil => simp [suppliedBits]
  | cons u us ih =>
    obtain ⟨hu, hrest⟩ := List.forall_mem_cons.mp h
    rw [suppliedBits_cons, if_pos hu, List.length_append, msbBits_length, ih hrest, List.length_cons]
    ring

/-- Every symbol of a string of bits carries bits (R88, R150). -/
theorem carriesBits_symbolsOf (v : Variant) (bs : List Bool) : ∀ u ∈ symbolsOf v bs, carriesBits v u = true := by
  have hpacked := (packed_start v).emitAll bs
  obtain ⟨hsym, -⟩ := hpacked.flush
  obtain ⟨hcoherent, -⟩ := hpacked.flush_coherent
  rw [List.nil_append] at hsym
  exact hsym ▸ hcoherent.sym

/-- The symbols of a string of bits supply it again, and then from 1 to BPC zero bits (R127, R135). -/
theorem suppliedBits_symbolsOf_eq (v : Variant) (bs : List Bool) :
    ∃ z, 1 ≤ z ∧ z ≤ bpc v ∧ suppliedBits v (symbolsOf v bs) = bs ++ List.replicate z false := by
  obtain ⟨z, hz⟩ := suppliedBits_symbolsOf v bs []
  rw [List.append_nil, show suppliedBits v [] = [] from rfl, List.append_nil] at hz
  have hlen : (bs.length / bpc v + 1) * bpc v = bs.length + z := by
    rw [← symbolsOf_length, ← suppliedBits_length_of_carry (carriesBits_symbolsOf v bs), hz, List.length_append,
      List.length_replicate]
  have hdiv := Nat.div_add_mod' bs.length (bpc v)
  have hmod := Nat.mod_lt bs.length (bpc_pos v)
  rw [Nat.add_mul, Nat.one_mul] at hlen
  exact ⟨z, by omega, by omega, hz⟩

/-- An unpacker with nothing left to read has consumed every symbol, where all of them carry bits (R129, R135). -/
theorem Unread.consumed {v : Variant} {us : List CodeUnit} {u : Unpacker} (h : Unread v us u [])
    (hc : ∀ x ∈ us, carriesBits v x = true) : u.idx = us.length ∧ u.rem = 0 := by
  have hlen := congrArg List.length h.bits
  rw [List.length_append, msbBits_length, suppliedBits_length_of_carry fun x hx => hc x (List.mem_of_mem_drop hx),
    List.length_nil, List.length_drop] at hlen
  obtain ⟨hrem, hrest⟩ := Nat.add_eq_zero_iff.mp hlen.symm
  have hleft : us.length - u.idx = 0 := (Nat.mul_eq_zero.mp hrest).resolve_right (bpc_pos v).ne'
  exact ⟨by have := h.idx; omega, hrem⟩

/-- An unpacker reads all the bits its input supplies, and stands then at the end of it (R128, R129). -/
theorem readBitList_all {v : Variant} {us : List CodeUnit} {inp : Nat → CodeUnit}
    (hi : ∀ i (hi : i < us.length), inp i = us[i]) (hc : ∀ x ∈ us, carriesBits v x = true) :
    ∃ u, Unpacker.start.readBitList v us.length inp (suppliedBits v us).length = .ok (suppliedBits v us, u) ∧
      u.idx = us.length ∧ u.rem = 0 := by
  have hread := (unread_start v us).readBitList hi (suppliedBits v us).length
  rw [if_pos le_rfl, List.take_length, List.drop_length] at hread
  obtain ⟨u, hu, hend⟩ := hread
  exact ⟨u, hu, hend.consumed hc⟩

/-- Settles O45: the flushed symbols supply the packed bits and the padding, and the unpacker reads all of them. -/
theorem unpackerReturnsThePackedBits : Obligations.UnpackerReturnsThePackedBits := by
  unfold Obligations.UnpackerReturnsThePackedBits
  intro v o fields p hp
  have hpacked := (packed_start v).emitFields hp
  obtain ⟨hsym, -⟩ := hpacked.flush
  rw [List.nil_append] at hsym
  obtain ⟨z, hpos, hle, hbits⟩ := suppliedBits_symbolsOf_eq v (fieldBits o fields)
  obtain ⟨u, hu, hend⟩ := readBitList_all (fun i hi => List.getD_eq_getElem (p.flush v).sym 0 hi)
    (hsym ▸ carriesBits_symbolsOf v _)
  rw [hsym, hbits, List.length_append, List.length_replicate] at hu
  rw [← hsym] at hu
  exact ⟨z, u, hpos, hle, hu, hend⟩

/-! ### The units after the end of the stream (R134, R164) -/

theorem drainable_iff (v : Variant) (u : CodeUnit) : drainable v u = true ↔ isPad v u = true ∨ dec v u ≠ none := by
  simp [drainable, Option.isSome_iff_ne_none]

/-- `drainCheck` passes exactly where every unit it looks at is drainable (R134). -/
theorem drainCheck_eq_ok_iff (v : Variant) (inp : Nat → CodeUnit) (i k : Nat) :
    drainCheck v inp i k = .ok () ↔ ∀ j, i ≤ j → j < i + k → drainable v (inp j) = true := by
  have hall : ((List.range' i k).map inp).all (drainable v) = true ↔
      ∀ j, i ≤ j → j < i + k → drainable v (inp j) = true := by
    simp [List.all_eq_true, List.mem_range'_1]
  rw [drainCheck_spec, ← hall]
  split
  · rename_i h
    exact ⟨fun _ => h, fun _ => rfl⟩
  · rename_i h
    exact ⟨nofun, fun h' => absurd h' h⟩

/-- It ends in no other way than passing or raising BAD_SYMBOL (R134). -/
theorem drainCheck_cases (v : Variant) (inp : Nat → CodeUnit) (i k : Nat) :
    drainCheck v inp i k = .ok () ∨ drainCheck v inp i k = malformed .badSymbol := by
  rw [drainCheck_spec]
  split
  · exact .inl rfl
  · exact .inr rfl

/-- Settles O48: `drainCheck_eq_ok_iff`, and in RAW every unit decodes. -/
theorem drainAcceptsAlphabetAndPad : Obligations.DrainAcceptsAlphabetAndPad := by
  unfold Obligations.DrainAcceptsAlphabetAndPad
  intro v inp i k
  refine ⟨?_, drainCheck_cases v inp i k, fun hraw => ?_⟩
  · simp only [drainCheck_eq_ok_iff, drainable_iff]
  · subst hraw
    exact (drainCheck_eq_ok_iff _ _ _ _).mpr fun _ _ _ => rfl

/-- A decompress command on a present, non-empty input that fits IN has the value of its decoding (R241). -/
theorem commandValue_decompress {p : Params} (v : Variant) {us : List CodeUnit} (hne : us ≠ [])
    (hcap : exceeds p.inCap us.length = false) :
    commandValue p (Instr.of .decompress v) true us = decompressValue p v us := by
  simp [commandValue, Instr.dir_of, Instr.variant_of, hne, hcap]

/-- A first unit outside the alphabet decides the value: no bit is supplied, so not even the first code (R133, R273). -/
theorem decompressValue_of_dec_none (p : Params) {v : Variant} {u : CodeUnit} (us : List CodeUnit) (h : dec v u = none) :
    decompressValue p v (u :: us) = (if isPad v u then .malformed .exhausted else .malformed .badSymbol, []) := by
  have hc : carriesBits v u ≠ true := by simp [carriesBits, h]
  rw [decompressValue, suppliedBits_cons, if_neg hc, shortage_cons, if_neg hc]
  split_ifs <;> rfl

/-- A non-empty input begins with unit 0 of IN (R61). -/
theorem inputSequence_eq_cons {s : State} (h : s.inLen ≠ 0) : ∃ us, inputSequence s = inUnit s 0 :: us := by
  obtain ⟨n, hn⟩ := Nat.exists_eq_succ_of_ne_zero fun hz : s.inLen.toNat = 0 => h (BitVec.eq_of_toNat_eq hz)
  rw [inputSequence, hn, inputUnits, List.range_succ_eq_map]
  exact ⟨_, rfl⟩

/-- Settles O56: the command completes with its value, which its first unit decides. -/
theorem firstSymbolDecidesBeforeItsCode : Obligations.FirstSymbolDecidesBeforeItsCode := by
  unfold Obligations.FirstSymbolDecidesBeforeItsCode
  intro s v h hpresent hlen hcap hdec
  obtain ⟨t, ht, hc⟩ := everyCommandComputesItsFunction s (Instr.of .decompress v) h
  obtain ⟨us, hus⟩ := inputSequence_eq_cons hlen
  rw [hpresent, commandValue_decompress v (inputSequence_ne_nil hlen) (by simpa [inputSequence] using hcap), hus,
    decompressValue_of_dec_none _ _ hdec] at hc
  exact ⟨t, ht, hc⟩

/-- The parameters of the reference agree but for the windows, at which no decoding looks (R10). -/
theorem decompressValue_reference {p q : Params} (hp : p.isReference = true) (hq : q.isReference = true) (v : Variant)
    (us : List CodeUnit) : decompressValue p v us = decompressValue q v us := by
  obtain ⟨-, hpout, hpdict, hporder⟩ := (isReference_iff p).mp hp
  obtain ⟨-, hqout, hqdict, hqorder⟩ := (isReference_iff q).mp hq
  exact decompressValue_congr (hpout.trans hqout.symm) (hpdict.trans hqdict.symm) (hporder.trans hqorder.symm) v us

/-- With the reference parameters a decompress command on a present, non-empty input completes with the value of its
decoding (R241). -/
theorem decompress_of_reference {s : State} (h : Ready s) (href : s.cfg.isReference = true) (hpresent : s.inPresent = true)
    (hne : inputSequence s ≠ []) (v : Variant) :
    ∃ t, exec (Instr.of .decompress v) s = .next t ∧
      CompletedWith t (decompressValue s.cfg v (inputSequence s)).1 (decompressValue s.cfg v (inputSequence s)).2 := by
  obtain ⟨hin, -⟩ := (isReference_iff s.cfg).mp href
  obtain ⟨t, ht, hc⟩ := everyCommandComputesItsFunction s (Instr.of .decompress v) h
  rw [hpresent, commandValue_decompress v hne (by rw [hin]; rfl)] at hc
  exact ⟨t, ht, hc⟩

/-- Settles O58: both commands complete with their value, and `decompressValue_append` says that of the longer input. -/
theorem unreadSymbolsDoNotMatter : Obligations.UnreadSymbolsDoNotMatter := by
  unfold Obligations.UnreadSymbolsDoNotMatter
  intro r s v extra hr hs hrref hsref hrpresent hspresent hlen hinput hextra
  have hne := inputSequence_ne_nil hlen
  obtain ⟨t, ht, hct⟩ := decompress_of_reference hr hrref hrpresent hne v
  refine ⟨t, _, _, ht, hct, fun hok => ?_⟩
  obtain ⟨u, hu, hcu⟩ := decompress_of_reference hs hsref hspresent (by simp [hinput, hne]) v
  have hvalue : decompressValue s.cfg v (inputSequence s) = (.ok, (decompressValue r.cfg v (inputSequence r)).2) := by
    rw [hinput, decompressValue_reference hsref hrref]
    exact decompressValue_append extra (Prod.ext hok rfl) fun x hx => (drainable_iff v x).mpr (hextra x hx)
  rw [hvalue] at hcu
  exact ⟨u, hu, hcu⟩

end Sys2Proof.Machine
end

section
/-! PROOF. The engine around the packer and the unpacker: no step ends in a fault (R123, R196), and a command leaves the
registers of the other direction alone, the packer or the unpacker among them (R120, R130). -/

namespace Sys2Proof.Machine

/-! ### No fault (R123, R196) -/

/-- From a state of the invariant a step answers a next state, or refuses an irregular access (R66, R277). -/
theorem step_next_or_refused {s : State} (h : Inv s) :
    (∃ t, step s = .next t) ∨ step s = .refused .irregularAccess := by
  match hhost : s.host with
  | [] =>
    rw [step_of_host_nil hhost]
    split
    · rename_i hbusy
      obtain ⟨t, ht, -⟩ := engineStep_inv h (busy_eq_true.mp hbusy)
      exact .inl ⟨t, ht⟩
    · exact .inl ⟨s, rfl⟩
  | { act := .access a, pace := p } :: rest =>
    rw [step_of_access hhost]
    have hpast : Inv { s with host := rest, pace := p } := hostRegs_inv h _ _ rest p _ _
    cases hplace : a.place s.cfg with
    | none => exact .inr (hostAccess_of_place_none hplace)
    | some k =>
      obtain ⟨t, ht, -⟩ := hostAccess_inv hpast hplace
      exact .inl ⟨t, ht⟩
  | { act := .hardReset, pace := p } :: rest => exact .inl ⟨_, step_of_hardReset hhost⟩

/-- Settles O12: a step answers or refuses, and the engine run on from a state of the invariant always answers. -/
theorem stepHasNoEngineFault : Obligations.StepHasNoEngineFault := by
  unfold Obligations.StepHasNoEngineFault
  intro s h
  obtain ⟨t, ht, -⟩ := advance_inv h
  refine ⟨fun f hf => ?_, t, ht⟩
  rcases step_next_or_refused h with ⟨u, hu⟩ | hrefused
  · exact absurd (hu.symm.trans hf) (by simp)
  · exact absurd (hrefused.symm.trans hf) (by simp)

/-! ### The registers of the other direction (R120, R130) -/

/-- The registers that only the decoder uses (R35, R36, R39); `w` and the counters are shared (log 12). -/
def State.decoderRegs (s : State) : List (List CodeUnit) × Nat × List CodeUnit × Nat × Unpacker :=
  (s.dDict, s.cd, s.entry, s.outIdx, s.unpacker)

/-- The registers that only the encoder uses (R31 to R33, R38, R40). -/
def State.encoderRegs (s : State) : List (List CodeUnit × Nat) × List (List CodeUnit) × CodeUnit × Nat × Packer :=
  (s.eDict, s.ePend, s.c, s.inIdx, s.packer)

/-- Where the work `x` answers a state, its registers `f` are those of `s`. -/
def Keeps {α : Type} (f : State → α) (s : State) (x : Except Stop State) : Prop := ∀ t, x = .ok t → f t = f s

namespace Keeps
variable {α β : Type} {f : State → α} {s t : State}

theorem ok (h : f t = f s) : Keeps f s (.ok t) := fun _ ht => Except.ok.inj ht ▸ h

theorem error (e : Stop) : Keeps f s (.error e) := fun _ ht => by cases ht

theorem of_eq {x : Except Stop State} (hx : Keeps f t x) (h : f t = f s) : Keeps f s x := fun u hu => (hx u hu).trans h

/-- A computation whose value is no state has no registers to change. -/
theorem bind_value {x : Except Stop β} {g : β → Except Stop State} (hg : ∀ b, x = .ok b → Keeps f s (g b)) :
    Keeps f s (x >>= g) := fun t ht => by
  obtain ⟨b, hb, ht⟩ := bind_eq_ok.mp ht
  exact hg b hb t ht

theorem bind {x : Except Stop State} {g : State → Except Stop State} (hx : Keeps f s x) (hg : ∀ t, Keeps f t (g t)) :
    Keeps f s (x >>= g) := bind_value fun t ht => (hg t).of_eq (hx t ht)

end Keeps

theorem register_keeps (x : List CodeUnit) (s : State) : Keeps State.decoderRegs s (register x s) := by
  unfold register
  split
  · exact .error _
  · exact .ok rfl

theorem emitBits_keeps (x n : Nat) (s : State) : Keeps State.decoderRegs s (emitBits x n s) :=
  .bind_value fun _ _ => .ok rfl

theorem emitLiteral_keeps (u : CodeUnit) (s : State) : Keeps State.decoderRegs s (emitLiteral u s) := by
  have hitem : Keeps State.decoderRegs s (emitLiteralItem u s.ctr.numBits s) := by
    unfold emitLiteralItem
    split <;> exact (emitBits_keeps _ _ s).bind fun t => emitBits_keeps _ _ t
  exact hitem.bind fun _ => .ok rfl

theorem emitW_keeps (s : State) : Keeps State.decoderRegs s (emitW s) := by
  unfold emitW
  split
  · exact .error _
  · split
    · exact emitLiteral_keeps _ s
    · unfold emitReference
      split
      · exact .error _
      · exact (emitBits_keeps _ _ s).bind fun _ => .ok rfl

theorem registerUnit_keeps (u : CodeUnit) (s : State) : Keeps State.decoderRegs s (registerUnit u s) := by
  unfold registerUnit
  split
  · exact .ok rfl
  · exact (register_keeps _ s).bind fun _ => .ok rfl

theorem encStep_keeps (s : State) : Keeps State.decoderRegs s (encStep s) := by
  refine (registerUnit_keeps s.c s).bind fun t => ?_
  cases hlookup : eLookup t.eDict (t.w ++ [t.c]) with
  | some k =>
    simp only [hlookup]
    exact .ok rfl
  | none =>
    simp only [hlookup]
    exact (emitW_keeps t).bind fun u => (register_keeps _ u).bind fun _ => .ok rfl

/-- Completion changes no register of the engine, also where the host wrote IN meanwhile (R242, R295; log 24). -/
theorem complete_decoderRegs (e : Ending) (m : Nat) (s : State) : (complete e m s).decoderRegs = s.decoderRegs := by
  unfold complete finishOpen
  split <;> rfl

theorem complete_encoderRegs (e : Ending) (m : Nat) (s : State) : (complete e m s).encoderRegs = s.encoderRegs := by
  unfold complete finishOpen
  split <;> rfl

theorem addEntry_keeps (x : List CodeUnit) (s : State) : Keeps State.encoderRegs s (addEntry x s) := by
  unfold addEntry
  split
  · exact .error _
  · exact .ok rfl

theorem output_keeps (us : List CodeUnit) (s : State) : Keeps State.encoderRegs s (output us s) := fun t ht => by
  rw [output_eq ht]
  rfl

theorem readBits_encoderRegs {k x : Nat} {s t : State} (h : readBits k s = .ok (x, t)) :
    t.encoderRegs = s.encoderRegs := by
  rw [readBits_eq h]
  rfl

theorem readLiteral_encoderRegs {cd : Nat} {u : CodeUnit} {s t : State} (h : readLiteral cd s = .ok (u, t)) :
    t.encoderRegs = s.encoderRegs := by
  rw [readLiteral_eq h]
  rfl

theorem decLiteral_keeps (cd : Nat) (s : State) : Keeps State.encoderRegs s (decLiteral cd s) :=
  .bind_value fun (_, t) ht => .of_eq ((addEntry_keeps _ t).bind fun _ => .ok rfl) (readLiteral_encoderRegs ht)

theorem decEntry_keeps (s : State) : Keeps State.encoderRegs s (decEntry s) := by
  refine .bind_value fun x _ => (output_keeps x { s with entry := x }).bind fun t => ?_
  cases t.entry with
  | nil => exact .error _
  | cons a x => exact (addEntry_keeps _ t).bind fun _ => .ok rfl

theorem decFirst_keeps (s : State) : Keeps State.encoderRegs s (decFirst s) := by
  refine .bind_value fun (cd, t) ht => .of_eq ?_ (readBits_encoderRegs ht)
  simp only
  split
  · exact .bind_value fun (u, v) hv => (output_keeps [u] _).of_eq (readLiteral_encoderRegs (t := v) hv)
  · exact .error _

theorem decLoop_keeps (s : State) : Keeps State.encoderRegs s (decLoop s) := by
  refine .bind_value fun (cd, t) ht => .of_eq ?_ (readBits_encoderRegs ht)
  simp only
  split
  · exact .ok rfl
  · split
    · exact (decLiteral_keeps cd _).bind decEntry_keeps
    · exact decEntry_keeps _

/-- The engine's work in a compress command keeps the decoder's registers (R180 to R194). -/
theorem engineWork_keeps_decoderRegs {s : State} (h : Inv s) (hd : s.curDir = .compress) :
    Keeps State.decoderRegs s (engineWork s) := by
  have hengine := h.engine
  unfold engineWork
  cases hp : s.phase <;> simp only [EngineCoherent, hp, hd] at hengine ⊢
  case idle => exact .ok rfl
  case encScan =>
    unfold encScan
    split
    · exact encStep_keeps _
    · exact .ok rfl
  case encFinal => exact (emitW_keeps s).bind fun t => (emitBits_keeps _ _ t).bind fun _ => .ok rfl
  case encPost =>
    unfold encPost
    simp only
    split
    · exact .error _
    · exact .ok (complete_decoderRegs _ _ _)
  case decFirst | decLoop | decDrain => simp at hengine

/-- The engine's work in a decompress command keeps the encoder's registers (R210 to R224). -/
theorem engineWork_keeps_encoderRegs {s : State} (h : Inv s) (hd : s.curDir = .decompress) :
    Keeps State.encoderRegs s (engineWork s) := by
  have hengine := h.engine
  unfold engineWork
  cases hp : s.phase <;> simp only [EngineCoherent, hp, hd] at hengine ⊢
  case idle => exact .ok rfl
  case decFirst => exact decFirst_keeps s
  case decLoop => exact decLoop_keeps s
  case decDrain => exact .bind_value fun _ _ => .ok (complete_encoderRegs _ _ _)
  case encScan | encFinal | encPost => simp at hengine

/-- An engine step keeps CUR_OP (R29). -/
theorem engineStep_curDir {s t : State} (h : engineStep s = .next t) : t.curDir = s.curDir := by
  rcases engineStep_cases h with ho | ⟨-, e, m, u, rfl, ho, -⟩
  · exact outside_curDir ho
  · rw [← outside_curDir ho]
    unfold complete finishOpen
    split <;> rfl

/-- Acceptance latches the direction (R29, R240). -/
theorem accept_curDir (d : Dir) (v : Variant) (s : State) : (accept d v s).curDir = d := by
  rw [accept_eq]
  cases d <;> split_ifs <;> rfl

section
variable {α : Type} {f : State → α} {d : Dir} (hcomplete : ∀ e m s, f (complete e m s) = f s)
  (hwork : ∀ s, Inv s → s.curDir = d → Keeps f s (engineWork s))
include hcomplete hwork

/-- Registers that a step's work and completion keep are kept by the step, also where its work raises a condition (R262). -/
theorem engineStep_keeps {s t : State} (hs : Inv s) (hd : s.curDir = d) (h : engineStep s = .next t) : f t = f s := by
  unfold engineStep at h
  cases hw : engineWork s with
  | ok u =>
    rw [hw] at h
    exact Host.Outcome.next.inj h ▸ hwork s hs hd u hw
  | error e =>
    rw [hw] at h
    cases e with
    | raise e => exact Host.Outcome.next.inj h ▸ hcomplete e 0 s
    | defect _ => cases h

/-- A run of the engine then keeps them (R29, R262). -/
theorem engineRun_keeps {k : Nat} {s t : State} (hs : Inv s) (hd : s.curDir = d) (h : engineRun k s = .next t) :
    f t = f s := by
  induction k generalizing s with
  | zero => exact Host.Outcome.next.inj h ▸ rfl
  | succ k ih =>
    by_cases hidle : s.phase = .idle
    · rw [engineRun_idle hidle] at h
      exact Host.Outcome.next.inj h ▸ rfl
    · obtain ⟨u, hu, hinv⟩ := engineStep_inv hs hidle
      rw [engineRun_step hidle hu] at h
      have hrest : f t = f u := ih hinv ((engineStep_curDir hu).trans hd) h
      exact hrest.trans (engineStep_keeps hcomplete hwork hs hd hu)

/-- And so does a command of that direction, where its acceptance keeps them too (R180, R210, R240). -/
theorem exec_keeps {s t : State} {i : Instr} (hs : Ready s) (hd : i.dir = d)
    (haccept : f (accept i.dir i.variant s) = f s) (h : exec i s = .next t) : f t = f s := by
  have hpace : (accept i.dir i.variant s).pace = .toEnd :=
    (HostPartKept.of_hostPart (accept_hostPart _ _ s)).pace.trans hs.pace
  rw [exec_of_idle hs.idle, advance_of_toEnd hpace] at h
  exact (engineRun_keeps hcomplete hwork (accept_inv hs.inv _ _) ((accept_curDir _ _ s).trans hd) h).trans haccept

end

/-- The start of a compress command sets no register of the decoder (R180, R240). -/
theorem accept_compress_decoderRegs (v : Variant) (s : State) : (accept .compress v s).decoderRegs = s.decoderRegs := by
  rw [accept_eq]
  split_ifs <;> rfl

/-- The start of a decompress command sets no register of the encoder (R210, R240). -/
theorem accept_decompress_encoderRegs (v : Variant) (s : State) :
    (accept .decompress v s).encoderRegs = s.encoderRegs := by
  rw [accept_eq]
  split_ifs <;> rfl

/-- Settles O26: acceptance, each step's work and completion keep the registers of the other direction. -/
theorem engineRegisterFrame : Obligations.EngineRegisterFrame := by
  unfold Obligations.EngineRegisterFrame
  intro s i h
  obtain ⟨t, ht, -⟩ := exec_inv h.inv i
  refine ⟨t, ht, fun hd => ?_, fun hd => ?_⟩
  · have hkept : t.decoderRegs = s.decoderRegs :=
      exec_keeps complete_decoderRegs (fun _ => engineWork_keeps_decoderRegs) h hd
        (hd ▸ accept_compress_decoderRegs _ s) ht
    simpa [State.decoderRegs] using hkept
  · have hkept : t.encoderRegs = s.encoderRegs :=
      exec_keeps complete_encoderRegs (fun _ => engineWork_keeps_encoderRegs) h hd
        (hd ▸ accept_decompress_encoderRegs _ s) ht
    simpa [State.encoderRegs] using hkept

end Sys2Proof.Machine
end

section
/-! PROOF. The alphabets (spec/41_alphabet.md): the encode and decode tables (R150 to R159), what a compress output may
hold (R165) and the length its padding gives it (R166), and that RAW has no invalid unit (R153, R267). -/

namespace Sys2Proof.Machine

/-! ### The tables -/

/-- Settles O37: `dec` undoes `enc`, `enc` undoes `dec`, and no pad decodes. -/
theorem alphabetTablesAreInverse : Obligations.AlphabetTablesAreInverse := by
  unfold Obligations.AlphabetTablesAreInverse
  intro v
  exact ⟨fun _ hx => ⟨dec_enc v hx, isPad_enc v hx⟩, fun u _ hu => ⟨dec_lt v u hu, enc_dec v u hu⟩, dec_of_isPad v⟩

/-- The BASE64 table lists its symbols in the order of the listing (R151, R156). -/
theorem getElem?_base64Listing : ∀ x < 64, base64Listing[x]? = some (enc .base64 x) := by decide

/-- So does the URI table (R151, R158). -/
theorem getElem?_uriListing : ∀ x < 64, uriListing[x]? = some (enc .uri x) := by decide

/-- Settles O38: the two listings, position by position. -/
theorem sixBitTablesFollowTheListing : Obligations.SixBitTablesFollowTheListing := by
  unfold Obligations.SixBitTablesFollowTheListing
  exact ⟨by decide, by decide, fun x => ⟨getElem?_base64Listing x x.isLt, getElem?_uriListing x x.isLt⟩⟩

/-- The RAW table is the identity (R152). -/
theorem toNat_enc_raw {x : Nat} (h : x < 2 ^ 16) : (enc .raw x).toNat = x := by
  rw [enc, BitVec.toNat_ofNat, Nat.mod_eq_of_lt h]

/-- The UTF table adds 32, on its whole domain without a carry out of the unit (R154). -/
theorem toNat_enc_utf {x : Nat} (h : x < 2 ^ 15) : (enc .utf x).toNat = x + 32 := by
  rw [enc, BitVec.toNat_ofNat, Nat.mod_eq_of_lt (by omega)]

/-- Settles O39: the symbol of each value as a number; the decode tables are their definitions. -/
theorem rawAndUtfTables : Obligations.RawAndUtfTables := by
  unfold Obligations.RawAndUtfTables
  refine ⟨fun x hx => toNat_enc_raw (by omega), fun u => ⟨rfl, rfl⟩, fun x hx => ?_, fun u => rfl⟩
  rw [toNat_enc_utf (by omega)]
  omega

/-! ### The output of a compress command (R165, R166) -/

/-- A symbol of a variant's alphabet is a unit its output may hold: it is the encoding of its value (R150, R165). -/
theorem outputUnit_of_dec {v : Variant} {u : CodeUnit} {x : Nat} (h : dec v u = some x) : outputUnit v u := by
  have hlt := dec_lt v u h
  have henc := enc_dec v u h
  cases v with
  | raw => trivial
  | utf =>
    have hu : u.toNat = x + 32 := henc ▸ toNat_enc_utf hlt
    have hx : x < 2 ^ 15 := hlt
    rw [outputUnit, hu]
    omega
  | base64 => exact .inl (List.mem_of_getElem? (henc ▸ getElem?_base64Listing x hlt))
  | uri => exact .inl (List.mem_of_getElem? (henc ▸ getElem?_uriListing x hlt))

/-- So is each unit that post-processing appends: the space of UTF, the pad of BASE64 and URI (R161 to R163, R165). -/
theorem outputUnit_of_mem_postUnits {v : Variant} {n : Nat} {u : CodeUnit} (h : u ∈ postUnits v n) : outputUnit v u := by
  cases v with
  | raw => trivial
  | utf =>
    rw [List.mem_singleton.mp h]
    exact outputUnit_of_dec (x := 0) rfl
  | base64 => exact .inr (List.eq_of_mem_replicate h)
  | uri => exact .inr (List.eq_of_mem_replicate h)

/-- The symbols of the code stream carry bits, and the rest is post-processing (R165, R194). -/
theorem outputUnit_of_mem_compressed {o : BitOrder} {v : Variant} {us : List CodeUnit} {u : CodeUnit}
    (h : u ∈ compressed o v us) : outputUnit v u := by
  rcases List.mem_append.mp h with hsym | hpost
  · obtain ⟨-, x, hx⟩ := (carriesBits_iff v u).mp (carriesBits_symbolsOf v _ u hsym)
    exact outputUnit_of_dec hx
  · exact outputUnit_of_mem_postUnits hpost

/-- The output of a compress command is empty where it ends at acceptance, has an empty input or meets a capacity, and
otherwise `compressed` (R194, R195, R240). -/
theorem commandValue_compress_output (p : Params) (v : Variant) (present : Bool) (us : List CodeUnit) :
    (commandValue p (Instr.of .compress v) present us).2 = [] ∨
      (commandValue p (Instr.of .compress v) present us).2 = compressed p.bitOrder v us := by
  unfold commandValue compressValue
  rw [Instr.dir_of, Instr.variant_of]
  split_ifs
  · exact .inl rfl
  · exact .inl rfl
  · exact .inl rfl
  · exact .inl rfl
  · exact .inl rfl
  · exact .inr rfl

/-- Settles O40: the command completes with its value, whose output is empty or `compressed`. -/
theorem outputStaysInTheAlphabet : Obligations.OutputStaysInTheAlphabet := by
  unfold Obligations.OutputStaysInTheAlphabet
  intro s v h
  obtain ⟨t, ht, hc⟩ := everyCommandComputesItsFunction s (Instr.of .compress v) h
  refine ⟨t, _, _, ht, hc, fun u hu => ?_⟩
  rcases commandValue_compress_output s.cfg v s.inPresent (inputSequence s) with hnil | hout
  · rw [hnil] at hu
    cases hu
  · rw [hout] at hu
    exact outputUnit_of_mem_compressed hu

/-- The padding of BASE64 and URI fills up to a multiple of four (R162, R163). -/
theorem postUnits_length_of_sixBit {v : Variant} (hv : v = .base64 ∨ v = .uri) (n : Nat) :
    (postUnits v n).length = (4 - n % 4) % 4 := by
  rcases hv with rfl | rfl
  · exact List.length_replicate
  · exact List.length_replicate

/-- So their outputs have a length that is a multiple of four (R90, R166). -/
theorem compressed_length_mod_four {v : Variant} (hv : v = .base64 ∨ v = .uri) (o : BitOrder) (us : List CodeUnit) :
    (compressed o v us).length % 4 = 0 := by
  rw [compressed_length, postUnits_length_of_sixBit hv]
  omega

/-- OUT_LEN counts the output, and is 0 where there is none (R27, R261). -/
theorem CompletedWith.outLen_toNat {t : State} {e : Ending} {out : List CodeUnit} (h : CompletedWith t e out)
    (hlt : out.length < 2 ^ 32) : t.outLen.toNat = if e = .ok then out.length else 0 := by
  split_ifs with he
  · exact h.length he hlt
  · rw [h.noLength he]
    rfl

/-- Settles O41: the output of the command's value is empty or `compressed`, and OUT_LEN is its length or 0. -/
theorem paddedLengthIsAMultipleOfFour : Obligations.PaddedLengthIsAMultipleOfFour := by
  unfold Obligations.PaddedLengthIsAMultipleOfFour
  intro s v h hv r
  obtain ⟨t, ht, hc⟩ := everyCommandComputesItsFunction s (Instr.of .compress v) h
  have hmod : r.2.length % 4 = 0 := by
    rcases commandValue_compress_output s.cfg v s.inPresent (inputSequence s) with hnil | hout
    · exact congrArg (List.length · % 4) hnil
    · exact (congrArg (List.length · % 4) hout).trans (compressed_length_mod_four hv _ _)
  refine ⟨t, ht, hc, hmod, fun hlt => ?_⟩
  rw [hc.outLen_toNat hlt]
  split_ifs
  · exact hmod
  · rfl

/-! ### RAW has no invalid unit (R153, R245, R267) -/

/-- A new entry is refused for a capacity alone (R229). -/
theorem Rebuilt.capacity_of_add_error {p : Params} {r : Rebuilt} {x : List CodeUnit} {e : Ending}
    (h : Rebuilt.add p r x = .error e) : ∃ c, e = .capacity c := by
  unfold Rebuilt.add at h
  split at h
  · cases h
    exact ⟨_, rfl⟩
  · cases h

/-- So is the output of an entry (R221 to R223). -/
theorem Rebuilt.capacity_of_push_error {p : Params} {r : Rebuilt} {x : List CodeUnit} {e : Ending}
    (h : r.push p x = .error e) : ∃ c, e = .capacity c := by
  unfold Rebuilt.push at h
  split at h
  · cases h
    exact ⟨_, rfl⟩
  · rcases bind_eq_error.mp h with h | ⟨_, _, h⟩
    · exact Rebuilt.capacity_of_add_error h
    · cases h

/-- The step of a literal code fails for a capacity alone (R216, R221). -/
theorem capacity_of_add_push_error {p : Params} {r : Rebuilt} {x : List CodeUnit} {e : Ending}
    (h : (Rebuilt.add p r x >>= fun r => r.push p x) = .error e) : ∃ c, e = .capacity c := by
  rcases bind_eq_error.mp h with h | ⟨_, _, h⟩
  · exact Rebuilt.capacity_of_add_error h
  · exact Rebuilt.capacity_of_push_error h

/-- The step of an entry's code fails for its index or for a capacity (R219 to R221). -/
theorem badIndex_or_capacity_of_entry_push_error {p : Params} {r : Rebuilt} {cd : Nat} {e : Ending}
    (h : (r.entry cd >>= r.push p) = .error e) : e = .malformed .badIndex ∨ ∃ c, e = .capacity c := by
  rcases bind_eq_error.mp h with h | ⟨_, _, h⟩
  · unfold Rebuilt.entry at h
    split_ifs at h
    cases h
    exact .inl rfl
  · exact .inr (Rebuilt.capacity_of_push_error h)

/-- The codes after the first end with BAD_SYMBOL only where a shortage of bits does (R267). -/
theorem decodeFrom_ne_badSymbol (p : Params) {short : Ending} (hs : short ≠ .malformed .badSymbol) (fuel : Nat)
    (r : Rebuilt) (bs : List Bool) : (decodeFrom p short fuel r bs).1 ≠ .malformed .badSymbol := by
  fun_induction decodeFrom p short fuel r bs with
  -- the bits do not suffice
  | case1 | case2 | case4 => exact hs
  -- the end code
  | case3 => simp
  -- a literal or an entry ends the command
  | case5 _ _ _ _ _ _ _ _ _ _ _ e he =>
    obtain ⟨c, rfl⟩ := capacity_of_add_push_error he
    simp
  | case7 _ _ _ _ _ _ _ _ e he =>
    rcases badIndex_or_capacity_of_entry_push_error he with rfl | ⟨c, rfl⟩
    · simp
    · simp
  -- the codes go on
  | case6 | case8 => assumption

/-- So does the whole stream (R212 to R223, R267). -/
theorem decodeBits_ne_badSymbol (p : Params) {short : Ending} (hs : short ≠ .malformed .badSymbol) (bs : List Bool) :
    (decodeBits p short bs).1 ≠ .malformed .badSymbol := by
  fun_cases decodeBits p short bs with
  -- the bits do not suffice
  | case1 | case2 => exact hs
  -- the literal meets a capacity, or there is none
  | case3 | case5 => simp
  | case4 => exact decodeFrom_ne_badSymbol p hs _ _ _

/-- Every RAW unit carries bits, so that a shortage is always the end of the input (R133, R153). -/
theorem shortage_raw (us : List CodeUnit) : shortage .raw us = .malformed .exhausted := by
  induction us with
  | nil => rfl
  | cons u us ih => exact (shortage_cons _ _ _).trans ((if_pos rfl).trans ih)

/-- A RAW decoding has no bad symbol: not in a shortage of bits, and not after the end code (R134, R153, R267). -/
theorem decompressValue_raw_ne_badSymbol (p : Params) (us : List CodeUnit) :
    (decompressValue p .raw us).1 ≠ .malformed .badSymbol := by
  have hbits : (decodeBits p (shortage .raw us) (suppliedBits .raw us)).1 ≠ .malformed .badSymbol :=
    decodeBits_ne_badSymbol p (by simp [shortage_raw]) _
  fun_cases decompressValue p .raw us with
  | case1 => simp
  | case2 _ _ _ _ _ hdrain => exact absurd (List.all_eq_true.mpr fun _ _ => rfl) hdrain
  | case3 _ _ _ _ _ hd => exact fun he => hbits ((congrArg Prod.fst hd).trans he)

/-- Nor does any other way to end a command name one (R240, R267). -/
theorem commandValue_decompressRaw_ne_badSymbol (p : Params) (present : Bool) (us : List CodeUnit) :
    (commandValue p .decompressRaw present us).1 ≠ .malformed .badSymbol := by
  unfold commandValue
  split_ifs
  · simp
  · simp
  · simp
  · exact decompressValue_raw_ne_badSymbol p us

/-- The cause BAD_SYMBOL belongs to one ending (R24). -/
theorem endingCause_eq_badSymbol {e : Ending} (h : endingCause e = .badSymbol) : e = .malformed .badSymbol := by
  cases e with
  | malformed why => cases why with
    | badSymbol => rfl
    | badFirstCode | badIndex | exhausted => cases h
  | capacity which => cases which <;> cases h
  | ok | absent | illegalCmd => cases h

/-- Settles O57: the command completes with its value, which `commandValue_decompressRaw_ne_badSymbol` speaks of. -/
theorem rawInputHasNoBadSymbol : Obligations.RawInputHasNoBadSymbol := by
  unfold Obligations.RawInputHasNoBadSymbol
  intro s h
  obtain ⟨t, ht, hc⟩ := everyCommandComputesItsFunction s .decompressRaw h
  refine ⟨t, ht, hc.done, fun hcause => ?_⟩
  exact commandValue_decompressRaw_ne_badSymbol _ _ _ (endingCause_eq_badSymbol (hc.cause.symm.trans hcause))

end Sys2Proof.Machine
end

section
/-! PROOF. The encoder (spec/42_encoder.md): the growth of the code width (R187) and its bound (R197), one unit of the scan
(R182 to R190), and the bound of the dictionary (R199). -/

namespace Sys2Proof.Machine

/-! ### The growth of the code width (R187) -/

/-- At the end of the countdown the code widens, and the new countdown is 2 to the old width (R187). -/
theorem Counters.grow_of_one {c : Counters} (h : c.enlargeIn = 1) :
    c.grow = { dictSize := c.dictSize, numBits := c.numBits + 1, enlargeIn := 2 ^ c.numBits } :=
  if_pos (by omega)

/-- A longer countdown only counts down (R187). -/
theorem Counters.grow_of_two_le {c : Counters} (h : 2 ≤ c.enlargeIn) :
    c.grow = { c with enlargeIn := c.enlargeIn - 1 } :=
  if_neg (by omega)

/-- Settles O49, by the two branches of `grow`; the example is the first at 3 bits. -/
theorem growWidensTheCode : Obligations.GrowWidensTheCode :=
  ⟨fun _ h => Counters.grow_of_one h, fun _ h => Counters.grow_of_two_le h, fun _ => Counters.grow_of_one rfl⟩

/-! ### The bound of the code width (R197) -/

/-- While the encoder scans or ends, its registers are coherent (R31 to R38). -/
theorem Inv.encoderCoherent {s : State} (h : Inv s) (hp : s.phase = .encScan ∨ s.phase = .encFinal) :
    EncoderCoherent s := by
  have hengine := h.engine
  unfold EngineCoherent at hengine
  rcases hp with hp | hp
  · rw [hp] at hengine
    exact hengine.2.2
  · rw [hp] at hengine
    exact hengine.2.2.1

/-- The width in force is that of a dictionary no larger than the encoder's (R197). -/
theorem EncoderCoherent.two_pow_le_dictSize {s : State} (h : EncoderCoherent s) :
    2 ^ (s.ctr.numBits - 1) ≤ s.ctr.dictSize := by
  obtain ⟨hnumBits, -, henlarge⟩ := h.bounds
  have hgrowth := h.growth
  have hpow : 2 ^ s.ctr.numBits = 2 * 2 ^ (s.ctr.numBits - 1) := by rw [← pow_succ']; congr 1; omega
  omega

/-- So whatever bounds `dictSize` bounds the width (R197). -/
theorem EncoderCoherent.numBits_le {s : State} (h : EncoderCoherent s) {n : Nat} (hn : s.ctr.dictSize ≤ n) :
    s.ctr.numBits ≤ Nat.log2 n + 1 := by
  have hpow := h.two_pow_le_dictSize
  have hpos := Nat.two_pow_pos (s.ctr.numBits - 1)
  have hlog : s.ctr.numBits - 1 ≤ Nat.log2 n := (Nat.le_log2 (by omega)).mpr (hpow.trans hn)
  omega

/-- What does not exceed a finite capacity is at most it (R268). -/
theorem exceeds_some_eq_false {k n : Nat} : exceeds (some k) n = false ↔ n ≤ k := by simp [exceeds]

/-- Settles O51: `numBits_le` at `dictSize`, and at DICT_CAP, which bounds it. -/
theorem codeWidthIsBoundedByDictSize : Obligations.CodeWidthIsBoundedByDictSize := by
  unfold Obligations.CodeWidthIsBoundedByDictSize
  intro s h hp
  have henc := h.encoderCoherent hp
  refine ⟨henc.numBits_le le_rfl, fun k hk => henc.numBits_le ?_⟩
  have hroom := henc.room
  rw [hk] at hroom
  exact exceeds_some_eq_false.mp hroom

/-! ### The bound of the dictionary (R199) -/

/-- A unit adds at most itself to the dictionary (R183). -/
theorem length_withUnit_le (dict : List (List CodeUnit)) (c : CodeUnit) :
    (withUnit dict c).length ≤ dict.length + 1 := by
  unfold withUnit
  split
  · omega
  · simp

/-- Each further unit registers at most two sequences: itself and the longer one (R183, R189, R199). -/
theorem encodeFrom_count_le (cs : List CodeUnit) (dict : List (List CodeUnit)) (sent : List CodeUnit) (d : Nat)
    (w : List CodeUnit) : (encodeFrom dict sent d w cs).2 ≤ dict.length + 2 * cs.length := by
  induction cs generalizing dict sent d w with
  | nil => exact le_rfl
  | cons c cs ih =>
    have hunit := length_withUnit_le dict c
    rw [encodeFrom_cons]
    split
    · have hextend := ih (withUnit dict c) sent d (w ++ [c])
      simp only [List.length_cons]
      omega
    · have hemit := ih (withUnit dict c ++ [w ++ [c]]) (emission (withUnit dict c) sent d w).2.1
        (emission (withUnit dict c) sent d w).2.2 [c]
      simp only [List.length_append, List.length_cons, List.length_nil] at hemit ⊢
      omega

/-- The first unit registers only itself, so that N units end at 2 N + 2 at most (R199). -/
theorem finalDictSize_le {us : List CodeUnit} (h : us ≠ []) : finalDictSize us ≤ 2 * us.length + 2 := by
  obtain ⟨c, cs, rfl⟩ := List.exists_cons_of_ne_nil h
  have hcount := encodeFrom_count_le cs [[c]] [] 2 [c]
  rw [finalDictSize, encodeFrom_first]
  simp only [List.length_cons, List.length_nil] at hcount ⊢
  omega

/-- The cause CAP_DICT belongs to one ending (R24). -/
theorem endingCause_eq_capDict {e : Ending} (h : endingCause e = .capDict) : e = .capacity .capDict := by
  cases e with
  | capacity which => cases which with
    | capDict => rfl
    | capIn | capOut => cases h
  | malformed why => cases why <;> cases h
  | ok | absent | illegalCmd => cases h

/-- A compress command whose dictionary has room for its input does not end with CAP_DICT (R195, R200). -/
theorem commandValue_compress_ne_capDict {p : Params} {i : Instr} (hi : i.dir = .compress) (present : Bool)
    {us : List CodeUnit} (h : us ≠ [] → exceeds p.dictCap (finalDictSize us) = false) :
    (commandValue p i present us).1 ≠ .capacity .capDict := by
  unfold commandValue
  rw [hi]
  split_ifs with _ _ hne
  · simp
  · simp
  · simp
  · simp only [compressValue, h hne, Bool.false_eq_true, if_false]
    split
    · simp
    · simp

/-- Settles O52: the command completes with its value, whose dictionary `finalDictSize_le` bounds. -/
theorem dictionaryNeverOutgrowsTwiceTheInput : Obligations.DictionaryNeverOutgrowsTwiceTheInput := by
  unfold Obligations.DictionaryNeverOutgrowsTwiceTheInput
  intro s i k h hi hcap hk
  obtain ⟨t, ht, hc⟩ := everyCommandComputesItsFunction s i h
  have hlen : (inputSequence s).length = s.inLen.toNat := by simp [inputSequence, inputUnits]
  have hroom (hne : inputSequence s ≠ []) : exceeds s.cfg.dictCap (finalDictSize (inputSequence s)) = false := by
    have hsize := finalDictSize_le hne
    rw [hcap, exceeds_some_eq_false]
    omega
  exact ⟨t, ht, hc.done, fun hcause =>
    commandValue_compress_ne_capDict hi _ hroom (endingCause_eq_capDict (hc.cause.symm.trans hcause))⟩

/-! ### One unit of the scan (R182 to R190) -/

/-- A smaller size fits where a larger one does (R268). -/
theorem exceeds_false_of_le {cap : Option Nat} {m n : Nat} (h : m ≤ n) (hn : exceeds cap n = false) :
    exceeds cap m = false :=
  Bool.eq_false_iff.mpr fun hm => Bool.eq_false_iff.mp hn (exceeds_mono h hm)

/-- The sequences of a dictionary whose codes are their places (R198). -/
theorem encoderKeys_of_zipIdx {t : State} {dict : List (List CodeUnit)} (h : t.eDict = dict.zipIdx 3) :
    encoderKeys t = dict := by
  rw [encoderKeys, h, List.zipIdx_map_fst]

/-- The step where the longer sequence is known (R184). -/
theorem encStep_of_known {s r : State} {k : Nat} (hr : registerUnit s.c s = .ok r)
    (hk : eLookup r.eDict (r.w ++ [r.c]) = some k) : encStep s = .ok { r with w := r.w ++ [r.c] } := by
  unfold encStep
  rw [hr, bind_ok]
  simp only [hk]
  rfl

/-- The step where it is new (R185, R189, R190). -/
theorem encStep_of_new {s r e t : State} (hr : registerUnit s.c s = .ok r) (hk : eLookup r.eDict (r.w ++ [r.c]) = none)
    (he : emitW r = .ok e) (ht : register (r.w ++ [r.c]) e = .ok t) : encStep s = .ok { t with w := [t.c] } := by
  unfold encStep
  rw [hr, bind_ok]
  simp only [hk]
  rw [he, bind_ok, ht, bind_ok]
  rfl

/-- `register(x)` where the codes are the places of registration and the dictionary has room (R198, R200). -/
theorem register_eq {s : State} {dict : List (List CodeUnit)} (hd : s.eDict = dict.zipIdx 3)
    (hsize : s.ctr.dictSize = dict.length + 3) (hroom : exceeds s.cfg.dictCap (dict.length + 4) = false)
    (x : List CodeUnit) :
    register x s = .ok { s with
      eDict := (dict ++ [x]).zipIdx 3, ctr := { s.ctr with dictSize := dict.length + 4 } } := by
  unfold register
  rw [hsize, hroom]
  simp [hd, List.zipIdx_append, Nat.add_comm 3]

/-- The scanning state once its next unit has been read and, where it is new, registered and marked pending (R182, R183). -/
def State.takeUnit (s : State) : State :=
  { s with
    c := inUnit s s.inIdx
    inIdx := s.inIdx + 1
    eDict := (withUnit (encoderKeys s) (inUnit s s.inIdx)).zipIdx 3
    ePend := if [inUnit s s.inIdx] ∈ encoderKeys s then s.ePend else s.ePend ++ [[inUnit s s.inIdx]]
    ctr := { s.ctr with dictSize := (withUnit (encoderKeys s) (inUnit s s.inIdx)).length + 3 } }

/-- The pending units then (R183). -/
theorem mem_takeUnit_ePend (s : State) (x : List CodeUnit) : x ∈ s.takeUnit.ePend ↔
    x ∈ s.ePend ∨ (x = [inUnit s s.inIdx] ∧ [inUnit s s.inIdx] ∉ encoderKeys s) := by
  unfold State.takeUnit
  split_ifs with h
  · simp [h]
  · simp [h]

/-- The step of the scan, where `w` is emitted: the packer, the counters and the pending units are those the emission leaves;
the longer sequence gets the next code, and `w` becomes the unit (R189, R190). -/
def State.restart (s : State) (p : Packer) (ct : Counters) (pend : List (List CodeUnit)) : State :=
  { s.takeUnit with
    packer := p
    ctr := { ct with dictSize := (withUnit (encoderKeys s) (inUnit s s.inIdx)).length + 4 }
    ePend := pend
    eDict := (withUnit (encoderKeys s) (inUnit s s.inIdx) ++ [s.w ++ [inUnit s s.inIdx]]).zipIdx 3
    w := [inUnit s s.inIdx] }

/-- A scan step with units left works on the next one (R182). -/
theorem engineStep_of_encStep {s t : State} (hphase : s.phase = .encScan) (hidx : s.inIdx < inputLength s)
    (h : encStep { s with c := inUnit s s.inIdx, inIdx := s.inIdx + 1 } = .ok t) : engineStep s = .next t := by
  have hwork : engineWork s = .ok t :=
    calc engineWork s
      _ = encScan s := by simp only [engineWork, hphase]
      _ = encStep { s with c := inUnit s s.inIdx, inIdx := s.inIdx + 1 } := if_pos hidx
      _ = .ok t := h
  rw [engineStep, hwork]

section
variable {s : State} (hs : EncoderCoherent s)
include hs

/-- Registering the next unit (R183). -/
theorem EncoderCoherent.registerUnit_next (hroom : exceeds s.cfg.dictCap (s.ctr.dictSize + 1) = false) :
    registerUnit (inUnit s s.inIdx) { s with c := inUnit s s.inIdx, inIdx := s.inIdx + 1 } = .ok s.takeUnit :=
  registerUnit_eq (s := { s with c := inUnit s s.inIdx, inIdx := s.inIdx + 1 }) hs.codes hs.size _ hroom

/-- Where the longer sequence is new, `w` is one of the dictionary: before the first unit, that unit is the longer sequence
(R33, R184). -/
theorem EncoderCoherent.w_mem {c : CodeUnit} (hx : s.w ++ [c] ∉ withUnit (encoderKeys s) c) : s.w ∈ encoderKeys s := by
  have hwindow := hs.window
  split_ifs at hwindow
  · exact absurd ((mem_withUnit _ _ _).mpr (.inr (by simp [hwindow.2]))) hx
  · exact hwindow

/-- The code of a `w` that is not pending fits the width in force (R196). -/
theorem EncoderCoherent.codeOf_lt (hw : s.w ∈ encoderKeys s) (hp : s.w ∉ s.ePend) :
    codeOf (encoderKeys s) s.w < 2 ^ s.ctr.numBits := by
  have hidx := List.idxOf_lt_length_of_mem hw
  have hgrowth := hs.growth
  have hsize := hs.size
  obtain ⟨-, henlarge, -⟩ := hs.bounds
  rw [if_neg hp] at hgrowth
  unfold codeOf
  omega

/-- A code 0 or 1 does too (R196). -/
theorem EncoderCoherent.one_lt_two_pow : 1 < 2 ^ s.ctr.numBits :=
  Nat.one_lt_two_pow (by have := hs.bounds.1; omega)

/-- A scan step that extends `w`: the longer sequence is known (R184). -/
theorem EncoderCoherent.engineStep_of_known (hphase : s.phase = .encScan) (hidx : s.inIdx < inputLength s)
    (hroom : exceeds s.cfg.dictCap (s.ctr.dictSize + 1) = false)
    (hx : s.w ++ [inUnit s s.inIdx] ∈ withUnit (encoderKeys s) (inUnit s s.inIdx)) :
    engineStep s = .next { s.takeUnit with w := s.w ++ [inUnit s s.inIdx] } :=
  engineStep_of_encStep hphase hidx
    (encStep_of_known (hs.registerUnit_next hroom) ((eLookup_zipIdx _ _ _).trans (if_pos hx)))

/-- A scan step that emits `w`: the longer sequence is new (R185, R189, R190). -/
theorem EncoderCoherent.engineStep_of_new (hphase : s.phase = .encScan) (hidx : s.inIdx < inputLength s)
    (hroom : exceeds s.cfg.dictCap (s.ctr.dictSize + 2) = false)
    (hx : s.w ++ [inUnit s s.inIdx] ∉ withUnit (encoderKeys s) (inUnit s s.inIdx)) {p : Packer} {ct : Counters}
    {pend : List (List CodeUnit)} (hsize : ct.dictSize = s.takeUnit.ctr.dictSize)
    (he : emitW s.takeUnit = .ok { s.takeUnit with packer := p, ctr := ct, ePend := pend }) :
    engineStep s = .next (s.restart p ct pend) := by
  have hlen := length_withUnit_le (encoderKeys s) (inUnit s s.inIdx)
  have hroom1 : exceeds s.cfg.dictCap (s.ctr.dictSize + 1) = false := exceeds_false_of_le (by omega) hroom
  have hroom2 : exceeds s.cfg.dictCap ((withUnit (encoderKeys s) (inUnit s s.inIdx)).length + 4) = false :=
    exceeds_false_of_le (by have := hs.size; omega) hroom
  exact engineStep_of_encStep hphase hidx (encStep_of_new (hs.registerUnit_next hroom1)
    ((eLookup_zipIdx _ _ _).trans (if_neg hx)) he
    (register_eq (s := { s.takeUnit with packer := p, ctr := ct, ePend := pend }) rfl hsize hroom2 _))

/-- The emission of a pending `w` in the scan is the literal of its unit, with two growth steps (R186). -/
theorem EncoderCoherent.emitW_takeUnit_of_pending (hp : s.w ∈ s.ePend) : ∃ u, s.w = [u] ∧
    emitW s.takeUnit = .ok { s.takeUnit with
      packer := ((literalItem s.ctr.numBits u).bits s.cfg.bitOrder).foldl (Packer.emitBit s.curVar) s.packer
      ctr := s.takeUnit.ctr.grow.grow
      ePend := s.takeUnit.ePend.filter (· != s.w) } := by
  obtain ⟨u, hu⟩ := List.length_eq_one_iff.mp (hs.pending _ hp).2.1
  exact ⟨u, hu, emitW_pending (s := s.takeUnit) hu ((mem_takeUnit_ePend s _).mpr (.inl hp)) hs.one_lt_two_pow⟩

/-- The emission of any other `w` in the scan is the reference to its code, with one growth step (R188). -/
theorem EncoderCoherent.emitW_takeUnit_of_known (hw : s.w ∈ encoderKeys s) (hp : s.w ∉ s.takeUnit.ePend) :
    emitW s.takeUnit = .ok { s.takeUnit with
      packer := (StreamItem.bits s.cfg.bitOrder (.ref (codeOf (encoderKeys s) s.w) s.ctr.numBits)).foldl
        (Packer.emitBit s.curVar) s.packer
      ctr := s.takeUnit.ctr.grow } := by
  have hlookup : eLookup s.takeUnit.eDict s.w = some (codeOf (encoderKeys s) s.w) := by
    rw [← codeOf_withUnit hw (inUnit s s.inIdx)]
    exact (eLookup_zipIdx _ _ _).trans (if_pos ((mem_withUnit _ _ _).mpr (.inl hw)))
  have hkept : s.w ∉ s.ePend := fun h => hp ((mem_takeUnit_ePend s _).mpr (.inl h))
  exact emitW_known (s := s.takeUnit) (hs.units _ hw).1 hp hlookup (hs.codeOf_lt hw hkept)

end

/-- The counters after one growth step, or two, do not depend on the size the unit's registration has set (R187). -/
theorem grow_takeUnit_setSize (s : State) (n : Nat) :
    { s.takeUnit.ctr.grow with dictSize := n } = { s.ctr.grow with dictSize := n } ∧
      { s.takeUnit.ctr.grow.grow with dictSize := n } = { s.ctr.grow.grow with dictSize := n } := by
  unfold State.takeUnit
  simp only [Counters.grow_setSize, and_self]

/-- Settles O53: the longer sequence is known, or `w` is pending, or neither; each case is one of the steps above. -/
theorem encoderScanStep : Obligations.EncoderScanStep := by
  unfold Obligations.EncoderScanStep
  intro s h hphase hidx hroom c keys
  have hs : EncoderCoherent s := h.encoderCoherent (.inl hphase)
  by_cases hx : s.w ++ [c] ∈ keys
  · have hstep := hs.engineStep_of_known hphase hidx (exceeds_false_of_le (by omega) hroom) hx
    have hkeys := encoderKeys_of_zipIdx (t := { s.takeUnit with w := s.w ++ [c] }) (dict := keys) rfl
    exact ⟨_, hstep, hphase, rfl, rfl, rfl, .of_hostPart (engineStep_hostPart hstep), by rw [hkeys]; rfl,
      fun _ => ⟨rfl, hkeys, rfl, rfl, mem_takeUnit_ePend s⟩, fun hn => absurd hx hn⟩
  · have hw := hs.w_mem hx
    have hkeys (p : Packer) (ct : Counters) (pend : List (List CodeUnit)) :
        encoderKeys (s.restart p ct pend) = keys ++ [s.w ++ [c]] := encoderKeys_of_zipIdx rfl
    by_cases hp : s.w ∈ s.ePend
    · obtain ⟨u, hu, he⟩ := hs.emitW_takeUnit_of_pending hp
      have hstep := hs.engineStep_of_new hphase hidx hroom hx (by simp) he
      refine ⟨_, hstep, hphase, rfl, rfl, rfl, .of_hostPart (engineStep_hostPart hstep), by rw [hkeys]; rfl,
        fun hk => absurd hk hx, fun _ => ⟨rfl, hkeys _ _ _, fun x => ?_, fun _ => ⟨u, hu, rfl, ?_⟩, fun hn => absurd hp hn⟩⟩
      · rw [← mem_takeUnit_ePend]
        exact List.mem_filter.trans (and_congr_right' bne_iff_ne)
      · exact (grow_takeUnit_setSize s _).2
    · have hp' : s.w ∉ s.takeUnit.ePend := fun hmem => by
        rcases (mem_takeUnit_ePend s _).mp hmem with hpend | ⟨heq, hnew⟩
        · exact hp hpend
        · exact hnew (heq ▸ hw)
      have hstep := hs.engineStep_of_new hphase hidx hroom hx (by simp) (hs.emitW_takeUnit_of_known hw hp')
      refine ⟨_, hstep, hphase, rfl, rfl, rfl, .of_hostPart (engineStep_hostPart hstep), by rw [hkeys]; rfl,
        fun hk => absurd hk hx, fun _ => ⟨rfl, hkeys _ _ _, fun x => ?_, fun hpend => absurd hpend hp, fun _ => ⟨rfl, ?_⟩⟩⟩
      · rw [← mem_takeUnit_ePend]
        exact (and_iff_left_of_imp fun hmem (heq : x = s.w) => hp' (heq ▸ hmem)).symm
      · exact (grow_takeUnit_setSize s _).1

end Sys2Proof.Machine
end

section
/-! PROOF. The decoder (spec/43_decoder.md): its counters (R226), and one code of the loop (R214 to R223). -/

namespace Sys2Proof.Machine

/-- Between two codes the decoder's registers are coherent (R35 to R39). -/
theorem Inv.decoderCoherent {s : State} (h : Inv s) (hphase : s.phase = .decLoop) : DecoderCoherent s := by
  have hengine := h.engine
  unfold EngineCoherent at hengine
  rw [hphase] at hengine
  exact hengine.2.2

/-! ### The counters (R226) -/

/-- Settles O50: the start is computed, `grow_coherent` is the step, and the invariant of the block holds both between codes.
A code up to `dictSize` is below `2^numBits` because `enlargeIn` is not 0. -/
theorem growKeepsTheDecoderInvariant : Obligations.GrowKeepsTheDecoderInvariant := by
  unfold Obligations.GrowKeepsTheDecoderInvariant
  intro Law
  refine ⟨by decide, ?_, ?_, ?_⟩
  · intro c hsize ⟨hgrowth, hbounds⟩
    exact (grow_coherent hgrowth hbounds hsize).2
  · intro s h hphase
    have hs := h.decoderCoherent hphase
    exact ⟨⟨hs.growth, hs.bounds⟩, hs.size⟩
  · intro c k ⟨hgrowth, hpos, _⟩ hk
    omega

/-! ### One code of the loop (R214 to R223) -/

/-- The loop's work is the engine's step (R30). -/
theorem engineStep_of_decLoop_ok {s t : State} (hphase : s.phase = .decLoop) (h : decLoop s = .ok t) :
    engineStep s = .next t := by
  have hwork : engineWork s = .ok t := by simp only [engineWork, hphase, h]
  rw [engineStep, hwork]

/-- A condition raised in the loop ends the command (R262). -/
theorem engineStep_of_decLoop_raise {s : State} {e : Ending} (hphase : s.phase = .decLoop)
    (htaint : s.tainted = false) (h : decLoop s = .error (.raise e)) : engineStep s = .next (finish e 0 s) := by
  have hwork : engineWork s = .error (.raise e) := by simp only [engineWork, hphase, h]
  rw [engineStep, hwork, ← complete_untainted htaint]

section
variable {s r : State} {cd : Nat} (hread : readBits s.ctr.numBits s = .ok (cd, r))
include hread

/-- Code 2 ends the codes (R215). -/
theorem decLoop_of_stop (hcd : cd = 2) : decLoop s = .ok { r with cd := cd, phase := .decDrain } := by
  rw [decLoop, hread, bind_ok]
  simp only [if_pos hcd]
  rfl

/-- Code 0 or 1 makes an entry of its literal, and goes on as the code of that entry (R216). -/
theorem decLoop_of_literal (hcd : cd < 2) : decLoop s = decLiteral cd { r with cd := cd } >>= decEntry := by
  rw [decLoop, hread, bind_ok]
  simp only [if_neg (show cd ≠ 2 by omega), if_pos hcd]

/-- Any other code goes on as it is (R219). -/
theorem decLoop_of_reference (hcd : 3 ≤ cd) : decLoop s = decEntry { r with cd := cd } := by
  rw [decLoop, hread, bind_ok]
  simp only [if_neg (show cd ≠ 2 by omega), if_neg (show ¬ cd < 2 by omega)]

end

/-- What a code up to `dictSize` stands for (R219, R220): its entry, or `w` and its first unit for the one about to be
made. -/
def State.entryOf (s : State) (cd : Nat) : List CodeUnit :=
  if cd < s.ctr.dictSize then s.dDict.getD cd [] else s.w ++ s.w.take 1

/-- The resolution of a code of the dictionary (R219). -/
theorem resolve_of_getElem? {s : State} {x : List CodeUnit} (hcd : s.cd < s.ctr.dictSize)
    (hx : s.dDict[s.cd]? = some x) : resolve s = .ok x := by
  rw [resolve, if_pos hcd, hx]

/-- A code above `dictSize` stands for nothing (R220). -/
theorem decEntry_of_lt {s : State} (hcd : s.ctr.dictSize < s.cd) : decEntry s = malformed .badIndex := by
  have hresolve : resolve s = malformed .badIndex := by
    rw [resolve, if_neg (by omega), if_neg (by omega)]
  rw [decEntry, hresolve]
  rfl

/-- `decEntry_eq` for an entry that is known not to be empty (R219 to R223). -/
theorem decEntry_of_resolve {s : State} {x : List CodeUnit} (hx : x ≠ []) (hresolve : resolve s = .ok x)
    (hout : exceeds s.cfg.outCap (s.outIdx + x.length) = false)
    (hdict : exceeds s.cfg.dictCap (s.ctr.dictSize + 1) = false) :
    decEntry s = .ok { s with
      entry := x, w := x, dDict := s.dDict ++ [s.w ++ x.take 1],
      ctr := Counters.grow { s.ctr with dictSize := s.ctr.dictSize + 1 },
      outMem := Memory.writeSeq s.outMem s.outIdx x, outIdx := s.outIdx + x.length } := by
  obtain ⟨a, t, rfl⟩ := List.exists_cons_of_ne_nil hx
  exact decEntry_eq hresolve hout hdict

/-- The state after a literal code: the literal is an entry, and its index the code (R216, R218). -/
def State.addLiteral (s : State) (u : CodeUnit) : State :=
  { s with
    cd := s.ctr.dictSize
    dDict := s.dDict ++ [[u]]
    ctr := Counters.grow { s.ctr with dictSize := s.ctr.dictSize + 1 } }

section
variable {s : State} (hs : DecoderCoherent s)
include hs

/-- Every entry up to the one about to be made holds a unit (R35, R36). -/
theorem DecoderCoherent.entryOf_ne_nil (cd : Nat) : s.entryOf cd ≠ [] := by
  unfold State.entryOf
  split
  case isTrue hlt =>
    rw [hs.size] at hlt
    rw [List.getD_eq_getElem _ _ hlt]
    exact hs.nonempty _ (List.getElem_mem hlt)
  case isFalse => exact List.append_ne_nil_of_left_ne_nil hs.w_ne _

/-- The resolution of a code up to `dictSize` (R219, R220). -/
theorem DecoderCoherent.resolve_eq (hcd : s.cd ≤ s.ctr.dictSize) : resolve s = .ok (s.entryOf s.cd) := by
  unfold State.entryOf
  split
  case isTrue hlt =>
    have hlen : s.cd < s.dDict.length := hs.size ▸ hlt
    rw [List.getD_eq_getElem _ _ hlen]
    exact resolve_of_getElem? hlt (List.getElem?_eq_getElem hlen)
  case isFalse hge =>
    obtain ⟨a, t, hw⟩ := List.exists_cons_of_ne_nil hs.w_ne
    rw [resolve, if_neg hge, if_pos (by omega), hw]
    rfl

/-- At least the three placeholders and the first literal are there (R35, R37). -/
theorem DecoderCoherent.four_le_dictSize : 4 ≤ s.ctr.dictSize := by
  have hpos := List.length_pos_of_mem hs.window
  rw [List.length_drop] at hpos
  have hsize := hs.size
  omega

/-- The code of a literal's entry resolves to it: the entry is the last one (R219). -/
theorem DecoderCoherent.resolve_addLiteral (u : CodeUnit) : resolve (s.addLiteral u) = .ok [u] := by
  have hlt : (s.addLiteral u).cd < (s.addLiteral u).ctr.dictSize := by simp [State.addLiteral]
  exact resolve_of_getElem? hlt (by simp [State.addLiteral, hs.size])

/-- What follows a literal's entry: it is output, `w` and its unit are registered, and it becomes the window (R219 to
R223). -/
theorem DecoderCoherent.decEntry_addLiteral (u : CodeUnit) (hout : exceeds s.cfg.outCap (s.outIdx + 1) = false)
    (hdict : exceeds s.cfg.dictCap (s.ctr.dictSize + 2) = false) :
    decEntry (s.addLiteral u) = .ok { s.addLiteral u with
      entry := [u], w := [u], dDict := s.dDict ++ [[u], s.w ++ [u]],
      ctr := Counters.grow { (s.addLiteral u).ctr with dictSize := (s.addLiteral u).ctr.dictSize + 1 },
      outMem := Memory.write s.outMem s.outIdx u, outIdx := s.outIdx + 1 } := by
  have hsize : (s.addLiteral u).ctr.dictSize = s.ctr.dictSize + 1 := Counters.grow_dictSize _
  have hdDict : s.dDict ++ [[u], s.w ++ [u]] = (s.dDict ++ [[u]]) ++ [s.w ++ [u]] := by simp
  rw [hdDict]
  exact decEntry_of_resolve (List.cons_ne_nil _ _) (hs.resolve_addLiteral u) hout (hsize ▸ hdict)

end

/-- A read leaves the unpacker in its ranges (R39, R131). -/
theorem UnpackerOk.of_readBits {s r : State} {k x : Nat} (h : UnpackerOk s.curVar (inputLength s) s.unpacker)
    (hread : readBits k s = .ok (x, r)) : UnpackerOk s.curVar (inputLength s) r.unpacker := by
  rcases readBits_ok k h with ⟨e, he⟩ | ⟨y, u, he, hu⟩
  · cases hread.symm.trans he
  · cases hread.symm.trans he
    exact hu

/-- A read does not look at the code read before (R131). -/
theorem readBits_setCd {s : State} {k x : Nat} {u : Unpacker} (h : readBits k s = .ok (x, { s with unpacker := u }))
    (cd : Nat) : readBits k { s with cd := cd } = .ok (x, { s with cd := cd, unpacker := u }) := by
  obtain ⟨u', hu', heq⟩ := readBits_eq_ok.mp h
  have hu : u = u' := congrArg State.unpacker heq
  exact readBits_eq_ok.mpr ⟨u', hu', by rw [hu]⟩

/-- Settles O54: the code read is 2, or a literal's, or above `dictSize`, or one that resolves. The reads change the unpacker
alone, which stays within its ranges, so that the lemmas above hold of the state with the code read. -/
theorem decoderLoopStep : Obligations.DecoderLoopStep := by
  unfold Obligations.DecoderLoopStep
  intro s r cd h hphase htaint hread
  have hs : DecoderCoherent s := h.decoderCoherent hphase
  have hsize := hs.four_le_dictSize
  obtain ⟨v, -, rfl⟩ := readBits_eq_ok.mp hread
  have hcode : DecoderCoherent { s with unpacker := v, cd := cd } :=
    hs.setUnpacker (hs.unpackerOk.of_readBits hread) cd
  refine ⟨?stop, ?literal, ?badIndex, ?reference⟩
  case stop =>
    intro hcd
    subst hcd
    exact engineStep_of_decLoop_ok hphase (decLoop_of_stop hread rfl)
  case literal =>
    intro hcd x q hlit hout hdict u once
    obtain ⟨v', -, rfl⟩ := readBits_eq_ok.mp hlit
    have hliteral : DecoderCoherent { s with unpacker := v', cd := cd } :=
      hs.setUnpacker (hcode.unpackerOk.of_readBits (readBits_setCd hlit cd)) cd
    refine engineStep_of_decLoop_ok hphase ?_
    rw [decLoop_of_literal hread hcd,
      decLiteral_eq (readBits_setCd hlit cd) (exceeds_false_of_le (Nat.le_succ _) hdict), bind_ok]
    exact hliteral.decEntry_addLiteral u hout hdict
  case badIndex =>
    intro hcd
    have hstep := engineStep_of_decLoop_raise hphase htaint
      ((decLoop_of_reference hread (by omega)).trans (decEntry_of_lt hcd))
    exact ⟨_, hstep, rfl, rfl, rfl, rfl, rfl, .of_hostPart (engineStep_hostPart hstep)⟩
  case reference =>
    intro hcd hle x hout hdict
    refine engineStep_of_decLoop_ok hphase ((decLoop_of_reference hread hcd).trans ?_)
    exact decEntry_of_resolve (hcode.entryOf_ne_nil cd) (hcode.resolve_eq hle) hout hdict

end Sys2Proof.Machine
end

section
/-! PROOF. The commands (spec/44_commands.md): a decompress command undoes a compress command (R254), absent and empty
inputs (R243, R181, R211), illegal command words (R252), and CMD writes while a command runs (R253). -/

namespace Sys2Proof.Machine

/-! ### Decompress undoes compress -/

/-- An absent input decides a command's value, whatever the rest (R240, R243). -/
theorem commandValue_of_absent (p : Params) (i : Instr) (us : List CodeUnit) :
    commandValue p i false us = (.absent, []) := by
  rw [commandValue, if_pos rfl]

/-- With the reference capacities a decompress command on a present, non-empty input has the value of its decoding. -/
theorem commandValue_decompress_of_reference {p : Params} (hp : p.isReference = true) (v : Variant)
    {us : List CodeUnit} (hne : us ≠ []) :
    commandValue p (Instr.of .decompress v) true us = decompressValue p v us := by
  obtain ⟨hin, -⟩ := (isReference_iff p).mp hp
  simp [commandValue, Instr.dir_of, Instr.variant_of, exceeds, hin, hne]

/-- A code stream takes at least one symbol, since the packer always emits one more than it fills (R127). -/
theorem compressed_ne_nil (o : BitOrder) (v : Variant) (us : List CodeUnit) : compressed o v us ≠ [] := by
  refine List.ne_nil_of_length_pos ?_
  rw [compressed_length]
  exact Nat.add_pos_left (Nat.succ_pos _) _

/-- The values of the two commands undo each other: for an empty input both outputs are empty, for any other the first is
`compressed` and the second its decoding, which `decompressValue_compressed` gives (R254). -/
theorem commandValue_decompress_compress {p : Params} (hp : p.isReference = true) (v : Variant) (us : List CodeUnit) :
    ∃ out, commandValue p (Instr.of .compress v) true us = (.ok, out) ∧
      (us = [] → out = []) ∧ out.length ≤ (compressed .msbFirst v us).length ∧
      ∀ q : Params, q.isReference = true → commandValue q (Instr.of .decompress v) true out = (.ok, us) := by
  by_cases hnil : us = []
  · subst hnil
    exact ⟨[], commandValue_nil_of_reference hp _, fun _ => rfl, Nat.zero_le _,
      fun q hq => commandValue_nil_of_reference hq _⟩
  · refine ⟨_, commandValue_compress_of_reference hp v hnil, fun h => absurd h hnil, le_rfl, fun q hq => ?_⟩
    obtain ⟨-, hout, hdict, horder⟩ := (isReference_iff q).mp hq
    rw [commandValue_decompress_of_reference hq v (compressed_ne_nil _ _ _), ← horder]
    exact decompressValue_compressed hout hdict v hnil

/-- The host reads the output of a command at the indices below OUT_LEN, where 32 bits count it (R27, R72). -/
theorem CompletedWith.outputUnits_outLen {t : State} {out : List CodeUnit} (h : CompletedWith t .ok out)
    (hlt : out.length < 2 ^ 32) : outputUnits t t.outLen.toNat = out := by
  rw [h.length rfl hlt]
  exact h.output rfl

/-- A block whose IN holds what another holds in OUT takes it as its input (R61, R72). -/
theorem inputSequence_eq_outputUnits {r t : State} (hlen : r.inLen = t.outLen)
    (hunits : ∀ k, k < t.outLen.toNat → inUnit r k = outUnit t k) :
    inputSequence r = outputUnits t t.outLen.toNat := by
  rw [inputSequence, hlen]
  exact List.map_congr_left fun k hk => hunits k (List.mem_range.mp hk)

/-- IN_LEN counts the input (R25, R61). -/
theorem inputSequence_length (s : State) : (inputSequence s).length = s.inLen.toNat := inputUnits_length s _

/-- Settles O15: both commands complete with their value, and `commandValue_decompress_compress` composes the two. -/
theorem decompressUndoesCompress : Obligations.DecompressUndoesCompress := by
  unfold Obligations.DecompressUndoesCompress
  intro v s hs href
  obtain ⟨t, ht, hct⟩ := everyCommandComputesItsFunction s (Instr.of .compress v) hs
  refine ⟨fun hpresent hlt => ?present, fun habsent => ?absent⟩
  case present =>
    obtain ⟨out, hcompress, hempty, hle, hdecompress⟩ := commandValue_decompress_compress href v (inputSequence s)
    rw [hpresent, hcompress] at hct
    have hout : out.length < 2 ^ 32 := hle.trans_lt hlt
    refine ⟨t, ht, hct.result, fun hzero => ?_, fun r hr hrefr hpresentr hlen hunits => ?_⟩
    · have hnil : out = [] := hempty (List.eq_nil_of_length_eq_zero (by rw [inputSequence_length, hzero]; rfl))
      refine BitVec.eq_of_toNat_eq ((hct.length rfl hout).trans ?_)
      rw [hnil]
      rfl
    · have hinput : inputSequence r = out :=
        (inputSequence_eq_outputUnits hlen hunits).trans (hct.outputUnits_outLen hout)
      obtain ⟨u, hu, hcu⟩ := everyCommandComputesItsFunction r (Instr.of .decompress v) hr
      rw [hpresentr, hinput, hdecompress r.cfg hrefr] at hcu
      have hlenu : u.outLen = s.inLen := BitVec.eq_of_toNat_eq
        ((hcu.length rfl (inputSequence_length s ▸ s.inLen.isLt)).trans (inputSequence_length s))
      refine ⟨u, hu, hcu.result, hlenu, ?_⟩
      rw [← inputSequence_length]
      exact hcu.output rfl
  case absent =>
    obtain ⟨u, hu, hcu⟩ := everyCommandComputesItsFunction s (Instr.of .decompress v) hs
    rw [habsent, commandValue_of_absent] at hct hcu
    exact ⟨t, u, ht, hct.result, hu, hcu.result⟩

/-! ### CMD writes while a command runs -/

/-- While BUSY is 1, a CMD write is rejected, whatever its word (R253, R270). -/
theorem writeCmd_of_busy {s : State} (hb : s.busy = true) (v : Word) : writeCmd v s = advance (reject s) := by
  unfold writeCmd
  split
  · rw [exec_eq, runCommand, if_pos hb]
  · rw [illegalCommand, if_pos hb]

/-- Acceptance clears REJECTED, whichever check ends it (R22, R240). -/
theorem accept_rejected (d : Dir) (v : Variant) (s : State) : (accept d v s).status.rejected = false := by
  rw [accept_eq]
  split_ifs
  · rfl
  · rfl
  · rfl
  · cases d <;> rfl

/-- Settles O19: REJECTED is of the host's side, at which the engine does not look. -/
theorem commandWhileBusyIsRejected : Obligations.CommandWhileBusyIsRejected := by
  unfold Obligations.CommandWhileBusyIsRejected
  refine ⟨fun s t v hb ht => ?_, fun s d v _ => accept_rejected d v s⟩
  rw [writeCmd_of_busy hb, reject_eq]
  exact advance_changeHostSide (fun h => { h with rejected := true }) rfl ht

/-! ### Commands that start no engine -/

/-- Completion keeps the engine's working registers (log 24). -/
theorem finish_registersKept (e : Ending) (m : Nat) (s : State) : EngineRegistersKept s (finish e m s) :=
  ⟨rfl, rfl, rfl, rfl, rfl, rfl, rfl, rfl, rfl, rfl, rfl, rfl⟩

/-- Acceptance of an absent input completes the command with ABSENT (R240, R243). -/
theorem accept_of_absent {s : State} (d : Dir) (v : Variant) (hp : s.inPresent = false) :
    accept d v s = finish .absent 0 (acceptedState d v s) := by
  rw [accept_eq, if_pos (by exact hp)]

/-- Acceptance of a present, empty input completes the command with OK (R181, R211, R240). -/
theorem accept_of_empty {s : State} (d : Dir) (v : Variant) (hp : s.inPresent = true) (hlen : s.inLen = 0) :
    accept d v s = finish .ok 0 (acceptedState d v s) := by
  have hzero : inputLength (acceptedState d v s) = 0 := congrArg BitVec.toNat hlen
  have hfits : exceeds s.cfg.inCap 0 = false := by cases hcap : s.cfg.inCap <;> simp [exceeds]
  rw [accept_eq, if_neg (by simp [acceptedState, hp]), if_neg (by simp [hzero, hfits]), if_pos hzero]

/-- A command that acceptance completes leaves the block in that state: there is no engine to run (R240, R282). -/
theorem exec_of_accept_eq_finish {s : State} {i : Instr} {e : Ending} (hb : s.busy = false)
    (h : accept i.dir i.variant s = finish e 0 (acceptedState i.dir i.variant s)) :
    exec i s = .next (finish e 0 (acceptedState i.dir i.variant s)) := by
  rw [exec_of_idle hb, h, advance_idle rfl]

/-- Settles O16: each command completes at acceptance, which looks at neither buffer and sets no engine register. -/
theorem absentAndEmptyInputs : Obligations.AbsentAndEmptyInputs := by
  unfold Obligations.AbsentAndEmptyInputs
  intro s i hb
  refine ⟨fun hp => ?absent, fun hp hlen => ?empty⟩
  case absent =>
    have hexec (r : State) (hbr : r.busy = false) (hpr : r.inPresent = false) :=
      exec_of_accept_eq_finish hbr (accept_of_absent i.dir i.variant hpr)
    exact ⟨_, hexec s hb hp, finish_completedWith_nil _ rfl, .of_hostPart (exec_hostPart (hexec s hb hp)), rfl,
      { finish_registersKept .absent 0 (acceptedState i.dir i.variant s) with }, rfl, rfl, rfl, rfl,
      fun m n => hexec { s with inMem := m, outMem := n } hb hp⟩
  case empty =>
    have hexec (r : State) (hbr : r.busy = false) (hpr : r.inPresent = true) (hlenr : r.inLen = 0) :=
      exec_of_accept_eq_finish hbr (accept_of_empty i.dir i.variant hpr hlenr)
    exact ⟨_, hexec s hb hp hlen, finish_completedWith_nil _ rfl, .of_hostPart (exec_hostPart (hexec s hb hp hlen)), rfl,
      { finish_registersKept .ok 0 (acceptedState i.dir i.variant s) with }, rfl, rfl, rfl, rfl,
      fun m n => hexec { s with inMem := m, outMem := n } hb hp hlen⟩

/-! ### Illegal command words -/

/-- The state in which an illegal command word completes: REJECTED is cleared, and the operands are not latched (R252). -/
def State.clearRejected (s : State) : State :=
  { s with status := { s.status with rejected := false }, tainted := false }

/-- While BUSY is 0, a word with a reserved bit completes at once (R252, R269). -/
theorem writeCmd_of_reserved {s : State} {v : Word} (hb : s.busy = false) (hv : v &&& 0xFFFFFFF8#32 ≠ 0#32) :
    writeCmd v s = .next (finish .illegalCmd 0 s.clearRejected) := by
  rw [writeCmd, decode_of_reserved hv]
  exact if_neg (by simp [hb])

/-- Settles O18: the word completes by `writeCmd_of_reserved`, which looks at neither buffer. -/
theorem illegalCommandWordCompletes : Obligations.IllegalCommandWordCompletes := by
  unfold Obligations.IllegalCommandWordCompletes
  intro s v hb hv
  exact ⟨_, writeCmd_of_reserved hb hv, finish_completedWith_nil _ rfl, .of_hostPart rfl, rfl,
    { finish_registersKept .illegalCmd 0 s.clearRejected with }, rfl, rfl, rfl, rfl,
    fun m n => writeCmd_of_reserved (s := { s with inMem := m, outMem := n }) hb hv⟩

end Sys2Proof.Machine
end

section
/-! PROOF. The exceptional conditions (spec/60_exceptions.md): a compress command raises no MALFORMED cause (R271), the
first control code of a stream is a literal's (R264), and the block refuses no regular access (R277). -/

namespace Sys2Proof.Machine

/-! ### Compress commands (R271) -/

/-- The value of a compress command is OK, ABSENT or CAPACITY: its checks are those of acceptance and of the capacities
(R195, R240, R271). -/
theorem commandValue_compress_ending (p : Params) {i : Instr} (hi : i.dir = .compress) (present : Bool)
    (us : List CodeUnit) :
    (commandValue p i present us).1 = .ok ∨ (commandValue p i present us).1 = .absent ∨
      ∃ c, (commandValue p i present us).1 = .capacity c := by
  unfold commandValue compressValue
  rw [hi]
  split_ifs
  · exact .inr (.inl rfl)
  · exact .inr (.inr ⟨_, rfl⟩)
  · exact .inl rfl
  · exact .inr (.inr ⟨_, rfl⟩)
  · exact .inr (.inr ⟨_, rfl⟩)
  · exact .inl rfl

/-- With the reference capacities a compress command's value is OK on every present input, the empty one included (R195,
R240). -/
theorem commandValue_compress_ok_of_reference {p : Params} (hp : p.isReference = true) {i : Instr}
    (hi : i.dir = .compress) (us : List CodeUnit) : (commandValue p i true us).1 = .ok := by
  by_cases hnil : us = []
  · rw [hnil, commandValue_nil_of_reference hp]
  · rw [← Instr.of_dir_variant i, hi, commandValue_compress_of_reference hp _ hnil]

/-- Settles O14: the command completes with its value, whose ending `commandValue_compress_ending` and, for the reference
capacities, `commandValue_compress_ok_of_reference` give. -/
theorem compressIsTotal : Obligations.CompressIsTotal := by
  unfold Obligations.CompressIsTotal
  intro s i h hi
  obtain ⟨t, ht, hc⟩ := everyCommandComputesItsFunction s i h
  refine ⟨t, ht, hc.done, ?_, fun hpresent href => ?_⟩
  · rw [hc.result]
    rcases commandValue_compress_ending s.cfg hi s.inPresent (inputSequence s) with hok | habsent | ⟨c, hcap⟩
    · exact .inl (congrArg endingResult hok)
    · exact .inr (.inl (congrArg endingResult habsent))
    · exact .inr (.inr (congrArg endingResult hcap))
  · rw [hc.result, hpresent, commandValue_compress_ok_of_reference href hi]
    rfl

/-! ### The first code (R212, R264) -/

/-- A symbol has at least the two bits of a first code (R150). -/
theorem two_le_bpc (v : Variant) : 2 ≤ bpc v := by cases v <;> decide

/-- A value with its top bit set sends a one first (R122). -/
theorem msbBits_of_top_bit {x n : Nat} (hle : 2 ^ n ≤ x) (hlt : x < 2 ^ (n + 1)) :
    msbBits x (n + 1) = true :: msbBits x n := by
  rw [msbBits, Nat.testBit_of_two_pow_le_and_two_pow_add_one_gt hle hlt]

/-- A stream whose first bit is a one has 2 or 3 as its first code (R131, R212). -/
theorem decodeBits_of_top_bit {p : Params} (hp : p.bitOrder = .msbFirst) (short : Ending) (b : Bool) (bs : List Bool) :
    decodeBits p short (true :: b :: bs) = (.malformed .badFirstCode, { dict := [], w := [], out := [] }, bs) := by
  have hcode : takeBits p.bitOrder 2 (true :: b :: bs) = some (2 + b.toNat, bs) := by
    simp [hp, takeBits, bitsValue, msbValue]
  rw [decodeBits, hcode]
  exact if_neg (by omega)

/-- The bits of a symbol come first among those its input supplies (R65, R128). -/
theorem suppliedBits_cons_of_dec {v : Variant} {u : CodeUnit} {x : Nat} (us : List CodeUnit) (h : dec v u = some x) :
    suppliedBits v (u :: us) = msbBits x (bpc v) ++ suppliedBits v us := by
  have hpad : isPad v u = false := Bool.eq_false_iff.mpr fun hp => by simp [dec_of_isPad v u hp] at h
  rw [suppliedBits_cons, if_pos ((carriesBits_iff v u).mpr ⟨hpad, x, h⟩), h, Option.getD_some]

/-- A first symbol with its top bit set decides the value of a decompress command, whatever follows it (R264). -/
theorem decompressValue_of_top_bit {p : Params} (hp : p.bitOrder = .msbFirst) {v : Variant} {u : CodeUnit} {x : Nat}
    (us : List CodeUnit) (hdec : dec v u = some x) (htop : 2 ^ (bpc v - 1) ≤ x) :
    decompressValue p v (u :: us) = (.malformed .badFirstCode, []) := by
  obtain ⟨n, hn⟩ := Nat.exists_eq_add_of_le' (two_le_bpc v)
  have hlt : x < 2 ^ (n + 2) := hn ▸ dec_lt v u hdec
  have hbits : suppliedBits v (u :: us) = true :: x.testBit n :: (msbBits x n ++ suppliedBits v us) := by
    rw [suppliedBits_cons_of_dec us hdec, hn, msbBits_of_top_bit (by simpa [hn] using htop) hlt]
    rfl
  rw [decompressValue, hbits, decodeBits_of_top_bit hp]

/-- Settles O55: the command completes with its value, which the top bit of its first symbol decides. -/
theorem firstCodeMustBeLiteral : Obligations.FirstCodeMustBeLiteral := by
  unfold Obligations.FirstCodeMustBeLiteral
  intro s v x h horder hpresent hlen hcap hdec htop
  obtain ⟨t, ht, hc⟩ := everyCommandComputesItsFunction s (Instr.of .decompress v) h
  obtain ⟨us, hus⟩ := inputSequence_eq_cons hlen
  rw [hpresent, commandValue_decompress v (inputSequence_ne_nil hlen) (by rwa [inputSequence_length]), hus,
    decompressValue_of_top_bit horder us hdec htop] at hc
  exact ⟨t, ht, hc⟩

/-! ### Regular accesses (R277) -/

/-- Settles O33: the step is the access on the state past its event, and `hostAccess_inv` answers it wherever it falls. -/
theorem everyAlignedAccessIsAllowed : Obligations.EveryAlignedAccessIsAllowed := by
  unfold Obligations.EveryAlignedAccessIsAllowed
  intro s a p rest k h hhost hplace
  rw [step_of_access hhost]
  exact hostAccess_inv (hostRegs_inv h _ _ rest p _ _) hplace

end Sys2Proof.Machine
end

section
/-! PROOF. Reset and hazards (spec/70_reset_and_hazards.md): a hardware reset in the middle of a command (R291), how long a
result stays (R294), the host's accesses while a command runs (R295, R296), and that every command completes (R300). -/

namespace Sys2Proof.Machine

/-! ### Hardware reset -/

/-- A register read after a hardware reset is one after reset: no register shows what a hardware reset keeps (R46, R291). -/
theorem readReg_hardReset (s : State) (off : Nat) : readReg (hardReset s) off = 0 := readReg_reset off

/-- Settles O10: the step is `hardReset`, which leaves every register as after reset and both buffers empty. -/
theorem hardResetAbandonsCommand : Obligations.HardResetAbandonsCommand := by
  unfold Obligations.HardResetAbandonsCommand
  intro s p rest hhost
  exact ⟨_, step_of_hardReset hhost, rfl, rfl, rfl, readReg_hardReset _, fun _ => ⟨rfl, rfl⟩, rfl, rfl, rfl⟩

/-! ### Termination -/

/-- Settles O22: the engine is idle after `stepsLeft` steps, and `stepsLeft_le` bounds their number. -/
theorem everyCommandTerminates : Obligations.EveryCommandTerminates := by
  unfold Obligations.EveryCommandTerminates
  intro s h
  obtain ⟨t, ht, hidle⟩ := engineRun_stepsLeft h
  exact ⟨stepsLeft s, t, stepsLeft_le h, ht, busy_eq_false.mpr hidle⟩

/-! ### How long a result stays -/

/-- What shows the host a result: PHASE, STATUS, OUT_LEN, and OUT with the count of resets (R22, R27, R72). -/
def State.resultView (s : State) : Phase × Status × Word × Memory × Nat :=
  (s.phase, s.status, s.outLen, s.outMem, s.epoch)

/-- An outcome of a host access that leaves the result in place before the engine goes on. -/
def KeepsResult (s : State) (o : Host.Outcome State Fault Refusal) : Prop :=
  ∃ u, o = advance u ∧ u.resultView = s.resultView

theorem keepsResult_advance {s u : State} (h : u.resultView = s.resultView) : KeepsResult s (advance u) := ⟨u, rfl, h⟩

/-- A register write other than one of CMD starts no command (R20). -/
theorem writeReg_keepsResult {off : Nat} (v : Word) (s : State) (h : off ≠ 0) : KeepsResult s (writeReg off v s) := by
  unfold writeReg
  rw [if_neg h]
  split_ifs <;> exact keepsResult_advance rfl

/-- A read of OUT changes the host's record and the count of free values alone (R68, U5). -/
theorem readOut_keepsResult (i : Nat) (s : State) : KeepsResult s (readOut i s) := by
  unfold readOut
  split_ifs <;> exact keepsResult_advance rfl

/-- A regular access other than a CMD write leaves the result in place (R294). -/
theorem hostAccess_keepsResult {s : State} {a : Access} {k : Nat} (hk : a.place s.cfg = some k)
    (h : ¬ (a.space = .regs ∧ a.isWrite = true ∧ k = 0)) : KeepsResult s (hostAccess a s) := by
  unfold hostAccess
  rw [hk]
  match hspace : a.space, hwrite : a.isWrite with
  | .regs, true => exact writeReg_keepsResult _ s fun hzero => h ⟨hspace, hwrite, hzero⟩
  | .regs, false => exact keepsResult_advance rfl
  | .inBuf, true => exact keepsResult_advance rfl
  | .inBuf, false => exact keepsResult_advance rfl
  | .outBuf, true => exact keepsResult_advance rfl
  | .outBuf, false => exact readOut_keepsResult k s

/-- While no command runs, an outcome that leaves the result in place is a state with that result: the engine is at rest
(R282). -/
theorem KeepsResult.resultView_eq {s t : State} {o : Host.Outcome State Fault Refusal} (h : KeepsResult s o)
    (hb : s.busy = false) (ht : o = .next t) : t.resultView = s.resultView := by
  obtain ⟨u, rfl, hu⟩ := h
  have hidle : u.phase = .idle := (congrArg Prod.fst hu).trans (busy_eq_false.mp hb)
  rw [advance_idle hidle] at ht
  exact Host.Outcome.next.inj ht ▸ hu

/-- While no command runs, a step that is neither a CMD write nor a hardware reset leaves the result in place (R294). -/
theorem step_resultView_of_idle {s t : State} (hb : s.busy = false) (ht : step s = .next t)
    (hev : s.host = [] ∨ ∃ a p rest, s.host = { act := .access a, pace := p } :: rest ∧
      ¬ (a.space = .regs ∧ a.isWrite = true ∧ a.place s.cfg = some 0)) : t.resultView = s.resultView := by
  rcases hev with hnil | ⟨a, p, rest, hhost, hcmd⟩
  · rw [step_of_host_nil hnil, hb] at ht
    exact congrArg State.resultView (Host.Outcome.next.inj ht).symm
  · rw [step_of_access hhost] at ht
    cases hplace : a.place s.cfg with
    | none => exact absurd (ht.symm.trans (hostAccess_of_place_none hplace)) (by simp)
    | some k =>
      have hkeeps : KeepsResult { s with host := rest, pace := p } (hostAccess a { s with host := rest, pace := p }) :=
        hostAccess_keepsResult hplace fun ⟨hs, hw, hk⟩ => hcmd ⟨hs, hw, hk ▸ hplace⟩
      exact hkeeps.resultView_eq hb ht

/-- Settles O27: the step leaves the result in place, and all that the statement names is read from it. -/
theorem resultsStayReadable : Obligations.ResultsStayReadable := by
  unfold Obligations.ResultsStayReadable
  intro s t hb ht hev
  have hresult := step_resultView_of_idle hb ht hev
  simp only [State.resultView, Prod.mk.injEq] at hresult
  obtain ⟨hphase, hstatus, hlen, hout, hepoch⟩ := hresult
  have hbusy : t.busy = s.busy := by rw [State.busy, hphase, State.busy]
  refine ⟨hbusy.trans hb, ?_, hlen, fun k => ?_⟩
  · rw [statusWord, statusWord, hbusy, hstatus]
  · rw [outUnit, outUnit, hout, hepoch]

/-! ### Host reads while a command runs -/

/-- A cause is NONE, or one of MALFORMED or of CAPACITY (R24). -/
theorem cause_cases (c : Cause) : c = .none ∨ c ∈ malformedCauses ∨ c ∈ capacityCauses := by cases c <;> decide

/-- Without a result there is no cause (R24). -/
theorem StatusCoherent.cause_of_result_none {s : State} (h : StatusCoherent s) (hr : s.status.result = .none) :
    s.status.cause = .none := by
  rcases cause_cases s.status.cause with hnone | hmalformed | hcapacity
  · exact hnone
  · exact absurd (h.malformed.mpr hmalformed) (by simp [hr])
  · exact absurd (h.capacity.mpr hcapacity) (by simp [hr])

/-- While a command runs, STATUS reads BUSY and REJECTED alone (R22, R296). -/
theorem StatusCoherent.statusWord_of_busy {s : State} (h : StatusCoherent s) (hb : s.busy = true) :
    statusWord s = if s.status.rejected then 0x201 else 0x001 := by
  obtain ⟨hdone, hresult, hpresent, -⟩ := h.busy hb
  rw [statusWord, hb, hdone, hresult, h.cause_of_result_none hresult, hpresent]
  cases s.status.rejected <;> decide

/-- While a command runs, every unit of OUT reads as a free value (R62, R296). -/
theorem readOut_of_busy {s : State} (hb : s.busy = true) (k : Nat) :
    readOut k s = advance (pushRead (.unit (Config.freeUnit s.free)) { s with free := s.free + 1 }) := by
  rw [readOut, if_neg (by simp [hb])]

/-- Settles O31: STATUS and OUT_LEN by the invariant, and each read records its value before the engine goes on. -/
theorem readsWhileBusy : Obligations.ReadsWhileBusy := by
  unfold Obligations.ReadsWhileBusy
  intro s h hb
  obtain ⟨-, -, -, hlen⟩ := h.status.busy hb
  exact ⟨h.status.statusWord_of_busy hb, hlen, fun off hoff => hostAccess_rdReg s hoff, fun _ => rfl,
    readOut_of_busy hb⟩

/-! ### Host writes of IN while a command runs -/

/-- An open completion ends as the free values say, with what OUT has room for of the free output (R295, U6; log 6). -/
theorem completedFrom_finishOpen (s : State) :
    CompletedFrom s (finishOpen s) (Config.freeEnding s.free) (cutTo s.cfg.outCap (Config.freeOutput s.free))
      (cutTo s.cfg.outCap (Config.freeOutput s.free)) :=
  CompletedFrom.finish _ _ (u := { s with outMem := s.outMem.writeSeq 0 (cutTo s.cfg.outCap (Config.freeOutput s.free)) })
    rfl rfl fun _ => rfl

/-- The same as the host finds it, where no command was rejected meanwhile. -/
theorem completedWith_finishOpen {s : State} (hm : s.outMem.wf) (hr : s.status.rejected = false) :
    CompletedWith (finishOpen s) (Config.freeEnding s.free) (cutTo s.cfg.outCap (Config.freeOutput s.free)) :=
  (completedFrom_finishOpen s).completedWith hm hr

/-- The state a host write of IN while a command runs leaves to the engine (R295). -/
def State.afterInWrite (s : State) (k : Nat) (u : CodeUnit) : State :=
  { s with inMem := Memory.write s.inMem k u, tainted := s.tainted || s.busy }

theorem writeIn_eq (k : Nat) (u : CodeUnit) (s : State) : writeIn k u s = advance (s.afterInWrite k u) := rfl

theorem inUnit_afterInWrite_same {s : State} (hm : s.inMem.wf) (k : Nat) (u : CodeUnit) :
    inUnit (s.afterInWrite k u) k = u :=
  (inUnit_write (s := { s with tainted := s.tainted || s.busy }) hm k u k).trans (if_pos rfl)

/-- A command during which the host wrote IN, run to its end, completes openly from a state that differs in OUT and the
engine's registers alone from that after the write (R295, R300). -/
theorem writeIn_of_busy {s : State} (h : Inv s) (hb : s.busy = true) (hp : s.pace = .toEnd) (k : Nat) (u : CodeUnit) :
    ∃ v, writeIn k u s = .next (finishOpen v) ∧ v.outside = (s.afterInWrite k u).outside ∧ v.outMem.wf := by
  have htainted : (s.afterInWrite k u).tainted = true := by simp [State.afterInWrite, hb]
  rw [writeIn_eq]
  exact advance_open (inMem_inv h k u) htainted hp

/-- Settles O21: the command completes through `finishOpen`. Its REJECTED flag is left open, and none of the fields the
statement names looks at it, so that they are those of the completion with REJECTED clear. -/
theorem inWriteWhileBusyStillCompletes : Obligations.InWriteWhileBusyStillCompletes := by
  unfold Obligations.InWriteWhileBusyStillCompletes
  intro s k u h hb hp
  obtain ⟨v, hwrite, hv, hm⟩ := writeIn_of_busy h hb hp k u
  have hc : CompletedWith (finishOpen v.clearRejected) (Config.freeEnding s.free)
      (cutTo s.cfg.outCap (Config.freeOutput s.free)) := by
    have hcfg : v.cfg = s.cfg := (outside_cfg hv :)
    have hfree : v.free = s.free := (outside_free hv :)
    rw [← hcfg, ← hfree]
    exact completedWith_finishOpen (s := v.clearRejected) hm rfl
  have hunit : inUnit (finishOpen v) k = u :=
    (congrFun (outside_inUnit hv) k).trans (inUnit_afterInWrite_same h.buffers.inWf k u)
  exact ⟨finishOpen v, hwrite, hc.idle, hc.done, hunit, hc.result, hc.cause, hc.present, hc.noLength, hc.length,
    hc.output⟩

end Sys2Proof.Machine
end
